-- ==== Sys2Proof/Word.lean ====
section
/-! DEFINITION. The word types of the engine, one for each width of 00_scope.md R4 and 10_state.md R20.
All values are unsigned (00_scope.md R8). -/

namespace Sys2Proof

/-- A 32-bit word: a command word, a register value, a node word, a frequency counter (`REG_DW`, `CNT_W`). -/
abbrev Word := BitVec 32

/-- A byte of the input or output stream. -/
abbrev Byte := BitVec 8

/-- A node index, `IDX_W` = 10 bits. -/
abbrev Idx := BitVec 10

/-- The symbol field of a serialized leaf, `SYM_W` = 9 bits; 0 to 255 are bytes, 256 is END-OF-STREAM. -/
abbrev Sym := BitVec 9

/-- A weight of the priority queue, `WT_W` = 40 bits. -/
abbrev Weight := BitVec 40

/-- A register word address, `REG_AW` = 12 bits. -/
abbrev RegAddr := BitVec 12

/-- A bit sequence in stream order, first bit first (00_scope.md R9). -/
abbrev Bits := List Bool

end Sys2Proof
end

