-- ==== Sys2Proof/Syntax.lean ====
section
/-! DEFINITION. The commands: one constructor for each row of spec/opcode_table.json (30_encoding.md R102).
No command has an operand (30_encoding.md R105). -/

namespace Sys2Proof

/-- The eleven commands of 30_encoding.md R102. -/
inductive Instr where
  /-- 44_container_and_control.md R203 -/
  | nop
  /-- 44_container_and_control.md R204 -/
  | init
  /-- 40_tree_builder.md R132 -/
  | hist
  /-- 40_tree_builder.md R133 -/
  | build
  /-- 44_container_and_control.md R200 -/
  | hdrWr
  /-- 41_tree_codec.md R152 -/
  | treeWr
  /-- 42_symbol_encoder.md R172 -/
  | enc
  /-- 44_container_and_control.md R202 -/
  | flush
  /-- 44_container_and_control.md R201 -/
  | hdrRd
  /-- 41_tree_codec.md R154 -/
  | treeRd
  /-- 43_symbol_decoder.md R185 -/
  | dec
  deriving DecidableEq, Repr

end Sys2Proof
end

