-- ==== Sys2Proof/WellFormed.lean ====
section
/-! DEFINITION. When a command, and a command word, is well formed. -/

namespace Sys2Proof

/-- Every command is well formed: none has an operand that could be out of range (30_encoding.md R105). -/
def Instr.wellFormed : Instr → Bool
  | .nop => true
  | .init => true
  | .hist => true
  | .build => true
  | .hdrWr => true
  | .treeWr => true
  | .enc => true
  | .flush => true
  | .hdrRd => true
  | .treeRd => true
  | .dec => true

/-- The check of field `ZERO`, bits 31:8 (30_encoding.md R101). -/
def zeroFieldOk (c : Word) : Bool := c.extractLsb' 8 24 == 0

/-- The check of field `OPC`, bits 7:0: one of the eleven opcodes (30_encoding.md R101, R102). -/
def opcodeOk (c : Word) : Bool := (c.extractLsb' 0 8).toNat ≤ 0x0A

/-- A command word is legal when both fields are (30_encoding.md R101). -/
def wordWellFormed (c : Word) : Bool := zeroFieldOk c && opcodeOk c

end Sys2Proof
end

