-- ==== Sys2Proof/Decode.lean ====
section
/-! DEFINITION. Command words: the decoder, total, rejecting by name, and the encoder, both from the table of
30_encoding.md R102. -/

namespace Sys2Proof

/-- Why a command word is illegal (30_encoding.md R103). -/
inductive DecodeError where
  /-- bits 31:8 are not all 0 -/
  | zeroFieldSet
  /-- the opcode is one of 0x0B to 0xFF -/
  | reservedOpcode
  deriving DecidableEq, Repr

/-- Field `ZERO`, bits 31:8 of format C (30_encoding.md R101). -/
def zeroField (c : Word) : BitVec 24 := c.extractLsb' 8 24

/-- Field `OPC`, bits 7:0 of format C (30_encoding.md R101). -/
def opcField (c : Word) : BitVec 8 := c.extractLsb' 0 8

/-- The opcode map of 30_encoding.md R102, by the value of `OPC`. -/
def opcodeMap : Nat → Option Instr
  | 0x00 => some .nop
  | 0x01 => some .init
  | 0x02 => some .hist
  | 0x03 => some .build
  | 0x04 => some .hdrWr
  | 0x05 => some .treeWr
  | 0x06 => some .enc
  | 0x07 => some .flush
  | 0x08 => some .hdrRd
  | 0x09 => some .treeRd
  | 0x0A => some .dec
  | _ => none

/-- The decoder: total on all words (30_encoding.md R101 to R103). -/
def decode (c : Word) : Except DecodeError Instr :=
  if zeroField c ≠ 0 then .error .zeroFieldSet
  else match opcodeMap (opcField c).toNat with
    | some i => .ok i
    | none => .error .reservedOpcode

/-- The instruction the decoder reads from a table row's word: bit 0 is the least significant bit of the one
32-bit word (30_encoding.md R100); bits above `nbits` are 0. -/
def decodeTableWord (nbits w : Nat) : Option Instr :=
  match decode (BitVec.ofNat 32 (w % 2 ^ nbits)) with
  | .ok i => some i
  | .error _ => none

/-- The encoder: the `match` word of each row of 30_encoding.md R102. -/
def encode : Instr → Word
  | .nop => 0x00000000
  | .init => 0x00000001
  | .hist => 0x00000002
  | .build => 0x00000003
  | .hdrWr => 0x00000004
  | .treeWr => 0x00000005
  | .enc => 0x00000006
  | .flush => 0x00000007
  | .hdrRd => 0x00000008
  | .treeRd => 0x00000009
  | .dec => 0x0000000A

end Sys2Proof
end

