-- ==== Sys2Proof/Config.lean ====
section
/-! DEFINITION. What is fixed for one engine (the parameters of 00_scope.md R4 that a rule uses by name) and the
free values. -/

namespace Sys2Proof.Config

/-- The header constant `MAGIC` = 1846 (00_scope.md R4, 30_encoding.md R107). DESIGN CHOICE (log entry 14): the spec
leaves it an open parameter with this default. Unsafe. -/
def magic : Word := 1846

/-- The END-OF-STREAM symbol (00_scope.md R4). -/
abbrev eos : Sym := 256

/-- `NODE_N` = 513 (00_scope.md R4): no path in node memory visits more nodes than there are. -/
abbrev nodeN : Nat := 513

/-- At most 256 Internal nodes in a serialized tree (41_tree_codec.md R155). -/
abbrev maxInternal : Nat := 256

/-- The largest value of a counter, 2^32 - 1 (40_tree_builder.md R138). -/
def cntMax : Word := 0xFFFFFFFF

/-- A FREE VALUE: the unspecified value of a register read, or of the entry a FREQ window write leaves, while
`BUSY` = 1 (20_memory.md R78). Nothing constrains it; log entry 6. -/
opaque freeWord : Nat → Word

end Sys2Proof.Config
end

