-- ==== Sys2Proof/Machine/State.lean ====
section
/-! DEFINITION. The state of one engine (10_state.md R20), the host's pending actions, and the reasons a step can
answer no next state. -/

namespace Sys2Proof.Machine

/-- The engine's fault kinds (60_exceptions.md R221). Raising one gives a NEXT state (R231): these are not
`Machine.Fault`. -/
inductive FaultCode where
  | invalidFormat
  | malformedStream
  | badSymbol
  | duplicateSymbol
  | treeTooLarge
  | noEosLeaf
  | noTree
  | symbolNotInTree
  | freqOverflow
  | illegalCommand
  | streamMisaligned
  deriving DecidableEq, Repr

/-- One entry of the symbol-to-code table (10_state.md R26). -/
structure CodeEntry where
  /-- 1 when the tree has a Leaf with this symbol -/
  present : Bool
  /-- that Leaf's depth -/
  len : BitVec 9
  /-- the root-to-leaf path, first branch first -/
  bits : Bits
  deriving DecidableEq, Repr

/-- One Weighted Node of the priority queue (10_state.md R27). -/
structure PqEntry where
  w : Weight
  seq : BitVec 10
  node : Idx
  deriving DecidableEq, Repr

/-- The host's actions (70_reset_and_hazards.md R258). -/
inductive HostMove where
  /-- hardware reset (70_reset_and_hazards.md R250) -/
  | reset
  /-- `MemRead(a, 1)` (20_memory.md R62) -/
  | memRead (a : RegAddr)
  /-- `MemWrite(a, 1, v)` (20_memory.md R63); at 0x001 it issues a command -/
  | memWrite (a : RegAddr) (v : Word)
  /-- `Supply(bytes)` (20_memory.md R81) -/
  | supply (bytes : List Byte)
  /-- `Discard` (20_memory.md R81) -/
  | discard
  /-- the host takes the next output byte (20_memory.md R82) -/
  | takeByte
  deriving DecidableEq, Repr

/-- The complete state: the elements of 10_state.md R20 under their names (`IN` is `inp`), then the model's own
fields for the host's side. -/
structure State where
  /-- `FREQ` (R21) -/
  freq : Vector Word 256
  /-- `NODE` (R22) -/
  node : Vector Word 513
  /-- `NNODES` (R23) -/
  nnodes : Idx
  /-- `ROOT` (R23) -/
  root : Idx
  /-- `TREE_VALID` (R24) -/
  treeValid : Bool
  /-- `CODE` (R26) -/
  code : Vector CodeEntry 257
  /-- `PQ`, in insertion order; its removal order is 40_tree_builder.md R134 (R27) -/
  pq : List PqEntry
  /-- `SEQ` (R28) -/
  seq : BitVec 10
  /-- `STACK` (R29) -/
  stack : List Idx
  /-- `CUR` (R30) -/
  cur : Idx
  /-- `OACC` (R31) -/
  oacc : Byte
  /-- `OCNT` (R31) -/
  ocnt : BitVec 3
  /-- `IACC` (R32) -/
  iacc : Byte
  /-- `ICNT` (R32) -/
  icnt : BitVec 3
  /-- `IN`, oldest byte first (R33) -/
  inp : List Byte
  /-- `OUT`, in order of emission (R34) -/
  out : List Byte
  /-- `FAULT` (R35) -/
  fault : BitVec 4
  /-- `FINFO` (R35) -/
  finfo : Word
  /-- `BUSY` (R36) -/
  busy : Bool
  /-- the MODEL's own (log entry 1): the host's actions still to come, next one first -/
  moves : List HostMove
  /-- the MODEL's own (log entry 2): the values the host's register reads returned, in order -/
  replies : List Word
  /-- the MODEL's own (log entry 3): how many bytes of `OUT` the host has taken -/
  taken : Nat
  /-- the MODEL's own (log entry 6): how many free values have been drawn -/
  draws : Nat
  deriving DecidableEq, Repr

/-- Reset and power-on (10_state.md R50, 70_reset_and_hazards.md R250): `IN` and `OUT` empty. `NODE` and the `len`
and `bits` of `CODE` have no reset value in the spec: DESIGN CHOICE 0 and empty (log entries 4, 5), unsafe. -/
def State.reset : State where
  freq := Vector.replicate 256 0
  node := Vector.replicate 513 0
  nnodes := 0
  root := 0
  treeValid := false
  code := Vector.replicate 257 ⟨false, 0, []⟩
  pq := []
  seq := 0
  stack := []
  cur := 0
  oacc := 0
  ocnt := 0
  iacc := 0
  icnt := 0
  inp := []
  out := []
  fault := 0
  finfo := 0
  busy := false
  moves := []
  replies := []
  taken := 0
  draws := 0

/-- Why a step answers no next state although the instruction has a meaning. Every one needs a state that
10_state.md R24 rules out; none is the engine's own fault mechanism (that one is `FaultCode`). -/
inductive Fault where
  /-- Raised by TREE_WR, DEC and the code computation of BUILD and TREE_RD when following `LEFT` and `RIGHT` from
  `ROOT` leaves the allocated nodes, goes through more than `NODE_N` nodes, or meets a Leaf symbol above 256.
  R24 rules it out. Safe: the model stops. Log entry 8. -/
  | treeBroken
  /-- Raised by DEC when the tree is a lone Leaf that is not EOS, so that it "would loop for ever"
  (43_symbol_decoder.md R188). R24 rules it out. Safe: the model stops. Log entry 9. -/
  | decoderEndless
  /-- Raised by BUILD if no queue entry were left for the root; at least one always is (40_tree_builder.md R137).
  Safe: the model stops. Log entry 10. -/
  | queueEmpty
  /-- Raised by TREE_RD if its recursion went deeper than 256 Internal nodes; the TreeTooLarge check comes first
  (41_tree_codec.md R155, R157). Safe: the model stops. Log entry 10. -/
  | readerTooDeep
  deriving DecidableEq, Repr

/-- What the model refuses to give a meaning to. -/
inductive Refusal where
  /-- Raised by exec's arm of an instruction without a meaning; no arm has it. Safe. -/
  | notModelled (mnemonic : String)
  /-- Raised by the host's `Discard` while `BUSY` = 1: the host has no such move (70_reset_and_hazards.md R258), and the
  spec gives it no effect. Safe: the model stops. Log entry 7. -/
  | discardWhileBusy
  deriving DecidableEq, Repr

end Sys2Proof.Machine
end

