-- ==== Sys2Proof/Machine/Operands.lean ====
section
/-! DEFINITION. The fields the engine assembles from bits and takes apart: node words (10_state.md R22) and the
fields of the bit streams (20_memory.md R65). Commands themselves have no operands (30_encoding.md R105). -/

namespace Sys2Proof.Machine

/-! ### Node words (10_state.md R22) -/

/-- `KIND`, bit 31: 1 = Internal. -/
def nodeKind (w : Word) : Bool := w.getLsbD 31

/-- `RIGHT`, bits 25:16. -/
def nodeRight (w : Word) : Idx := w.extractLsb' 16 10

/-- `LEFT`, bits 9:0. -/
def nodeLeft (w : Word) : Idx := w.extractLsb' 0 10

/-- `SYM`, bits 8:0. -/
def nodeSym (w : Word) : Sym := w.extractLsb' 0 9

/-- `LeafWord(s)` (40_tree_builder.md R133). -/
def leafWord (s : Sym) : Word := s.setWidth 32

/-- `InternalWord(l, r)` (40_tree_builder.md R133). -/
def internalWord (l r : Idx) : Word := 0x80000000#32 ||| (r.setWidth 32 <<< 16) ||| l.setWidth 32

/-- The node word with its `LEFT` field replaced (41_tree_codec.md R154). -/
def setLeft (w : Word) (l : Idx) : Word := (w &&& 0xFFFFFC00#32) ||| l.setWidth 32

/-- The node word with its `RIGHT` field replaced (41_tree_codec.md R154). -/
def setRight (w : Word) (r : Idx) : Word := (w &&& 0xFC00FFFF#32) ||| (r.setWidth 32 <<< 16)

/-! ### Stream fields (00_scope.md R9, 20_memory.md R64, R65) -/

/-- `msb(v, n)`: the value most significant bit first (00_scope.md R9). -/
def msb {n : Nat} (v : BitVec n) : Bits := (List.range n).map fun k => v.getMsbD k

/-- The bit sequence a byte stream carries, bit 7 of each byte first (20_memory.md R64). -/
def byteBits (bs : List Byte) : Bits := bs.flatMap msb

/-- The unsigned value of a bit sequence read most significant bit first (20_memory.md R65, R68). -/
def bitsValue (bs : Bits) : Nat := bs.foldl (fun v b => 2 * v + b.toNat) 0

/-- The symbol of a byte value: 0 to 255 (00_scope.md R11). -/
def byteSym (b : Byte) : Sym := b.setWidth 9

end Sys2Proof.Machine
end

