-- ==== Sys2Proof/Machine/Flags.lean ====
section
/-! DEFINITION. The values the status registers show, computed from the state (10_state.md R42 to R48). -/

namespace Sys2Proof.Machine

/-- `FAULTED` abbreviates `FAULT ≠ 0` (10_state.md R35). -/
def State.faulted (s : State) : Bool := s.fault != 0

/-- `STATUS` (10_state.md R42): bits 10:8 `ICNT`, 6:4 `OCNT`, 2 `FAULTED`, 1 `TREE_VALID`, 0 `BUSY`, the rest 0. -/
def statusWord (s : State) : Word :=
  0#21 ++ s.icnt ++ 0#1 ++ s.ocnt ++ 0#1 ++
    BitVec.ofBool s.faulted ++ BitVec.ofBool s.treeValid ++ BitVec.ofBool s.busy

/-- The `FAULT` register (10_state.md R43). -/
def faultWord (s : State) : Word := s.fault.setWidth 32

/-- `TREEINFO` (10_state.md R45): bits 25:16 `NNODES`, bits 9:0 `ROOT`. -/
def treeInfoWord (s : State) : Word := 0#6 ++ s.nnodes ++ 0#6 ++ s.root

/-- A `CODELEN` word (10_state.md R47). -/
def codeLenWord (e : CodeEntry) : Word := if e.present then 1#1 ++ 0#22 ++ e.len else 0

/-- The `NODE` window's word `i` (10_state.md R48): 0 from `NNODES` on. -/
def nodeWindowWord (s : State) (i : Nat) (h : i < 513) : Word := if i < s.nnodes.toNat then s.node[i] else 0

end Sys2Proof.Machine
end

