-- ==== Sys2Proof/Machine/Ops.lean ====
section
/-! DEFINITION. The named operations: the internal memories (10_state.md R21 to R28), the bit primitives
(20_memory.md R66 to R72), raising a fault and leaving the faulted state (60_exceptions.md R231, R233), and the frame
every command runs in (30_encoding.md R104). -/

namespace Sys2Proof.Machine

/-! ### How a piece of a command's pseudocode ends -/

/-- The result of a piece of a command's pseudocode. -/
inductive Cmd (α : Type) where
  /-- it ended with a value -/
  | ok (a : α) (s : State)
  /-- it executed `raise f(info)` in this state -/
  | raised (f : FaultCode) (info : Word) (s : State)
  /-- the model stops: the state is one that 10_state.md R24 rules out -/
  | stuck (r : Fault)

/-- Run the next piece where the first one ended with a value. -/
def Cmd.bind {α β : Type} (c : Cmd α) (k : α → State → Cmd β) : Cmd β :=
  match c with
  | .ok a s => k a s
  | .raised f info s => .raised f info s
  | .stuck r => .stuck r

/-! ### Raising a fault, and the way out -/

/-- The code numbers of 60_exceptions.md R221. -/
def faultNumber : FaultCode → BitVec 4
  | .invalidFormat => 1
  | .malformedStream => 2
  | .badSymbol => 3
  | .duplicateSymbol => 4
  | .treeTooLarge => 5
  | .noEosLeaf => 6
  | .noTree => 7
  | .symbolNotInTree => 8
  | .freqOverflow => 9
  | .illegalCommand => 10
  | .streamMisaligned => 11

/-- `raise F(info)` (60_exceptions.md R231): latch code and information, empty `STACK` and `PQ`, go idle; everything
else stays as it is. (TREE_RD clears `NNODES` and `ROOT` itself before it, 41_tree_codec.md R154.) -/
def raise (f : FaultCode) (info : Word) (s : State) : State :=
  { s with fault := faultNumber f, finfo := info, stack := [], pq := [], busy := false }

/-- A code table with every `present` cleared, `len` and `bits` as they were (log entry 12). -/
def clearPresent (c : Vector CodeEntry 257) : Vector CodeEntry 257 :=
  ⟨⟨c.toList.map fun e => { e with present := false }⟩, by simp⟩

/-- `CODE[s].present <- 0` for all `s` (10_state.md R26). -/
def clearCode (s : State) : State := { s with code := clearPresent s.code }

/-- What INIT (44_container_and_control.md R204) and reset (10_state.md R50) do to the engine: everything but `NODE`,
`IN` and `OUT`. It is the only way out of the faulted state (60_exceptions.md R233). -/
def clearEngine (s : State) : State :=
  { clearCode s with
    freq := Vector.replicate 256 0
    treeValid := false, nnodes := 0, root := 0
    pq := [], seq := 0, stack := [], cur := 0
    oacc := 0, ocnt := 0
    iacc := 0, icnt := 0
    fault := 0, finfo := 0
    busy := false }

/-! ### The frame of a command -/

/-- Dispatch of a command other than INIT (30_encoding.md R104): ignored while faulted; else `BUSY` rises, the body
runs, and `BUSY` falls, also after a raise. -/
def command (body : State → Cmd Unit) (s : State) : Host.Outcome State Fault Refusal :=
  if s.fault ≠ 0 then .next s
  else match body { s with busy := true } with
    | .ok _ t => .next { t with busy := false }
    | .raised f info t => .next (raise f info t)
    | .stuck r => .fault r

/-! ### The frequency table (10_state.md R21) -/

/-- `FREQ[b]`. -/
def State.freqAt (s : State) (b : Byte) : Word := s.freq[b.toNat]'b.isLt

/-- `FREQ[b] <- v`. -/
def State.setFreq (s : State) (b : Byte) (v : Word) : State :=
  { s with freq := s.freq.set b.toNat v b.isLt }

/-! ### Node memory (10_state.md R22, R23) -/

/-- `NODE[i]` for an allocated index; `none` where there is no such node (10_state.md R23, R24). -/
def State.nodeAt (s : State) (i : Idx) : Option Word :=
  if i < s.nnodes then s.node[i.toNat]? else none

/-- `NODE[i] <- w`. -/
def State.setNode (s : State) (i : Idx) (w : Word) : State :=
  { s with node := s.node.setIfInBounds i.toNat w }

/-- `alloc(word)` (10_state.md R23); never called with `NNODES` = 513. -/
def alloc (w : Word) (s : State) : Idx × State :=
  (s.nnodes, { s.setNode s.nnodes w with nnodes := s.nnodes + 1 })

/-- `NODE[i].LEFT <- l` (41_tree_codec.md R154). -/
def State.setNodeLeft (s : State) (i l : Idx) : State :=
  match s.node[i.toNat]? with
  | some w => s.setNode i (setLeft w l)
  | none => s

/-- `NODE[i].RIGHT <- r` (41_tree_codec.md R154). -/
def State.setNodeRight (s : State) (i r : Idx) : State :=
  match s.node[i.toNat]? with
  | some w => s.setNode i (setRight w r)
  | none => s

/-- The first lines of BUILD and TREE_RD: the old tree is discarded (40_tree_builder.md R133, 41_tree_codec.md R154). -/
def dropTree (s : State) : State :=
  { clearCode s with treeValid := false, nnodes := 0, root := 0 }

/-! ### The code table (10_state.md R26, 42_symbol_encoder.md R171) -/

/-- `CODE[y]`, for a symbol 0 to 256. -/
def State.codeAt (s : State) (y : Sym) : Option CodeEntry := s.code[y.toNat]?

/-- `CODE[y] <- (present = 1, len = |p|, bits = p)` (42_symbol_encoder.md R171). -/
def State.setCode (s : State) (y : Sym) (p : Bits) : State :=
  { s with code := s.code.setIfInBounds y.toNat ⟨true, BitVec.ofNat 9 p.length, p⟩ }

/-- `walk(i, p)` of 42_symbol_encoder.md R171. The first argument bounds the number of nodes on a path. -/
def walk : Nat → Idx → Bits → State → Cmd Unit
  | 0, _, _, _ => .stuck .treeBroken
  | fuel + 1, i, p, s =>
    match s.nodeAt i with
    | none => .stuck .treeBroken
    | some w =>
      if nodeKind w then
        (walk fuel (nodeLeft w) (p ++ [false]) s).bind fun _ s =>
        walk fuel (nodeRight w) (p ++ [true]) s
      else if Config.eos < nodeSym w then .stuck .treeBroken
      else .ok () (s.setCode (nodeSym w) p)

/-- `CODE <- codes(ROOT)` (42_symbol_encoder.md R171). -/
def fillCodes (s : State) : Cmd Unit := walk Config.nodeN s.root [] (clearCode s)

/-! ### The priority queue (10_state.md R27, R28, 40_tree_builder.md R134) -/

/-- `x` precedes `y`: lexicographic on (`w`, `seq`), unsigned (40_tree_builder.md R134). -/
def PqEntry.precedes (x y : PqEntry) : Bool := x.w < y.w || (x.w == y.w && x.seq < y.seq)

/-- The least entry of a queue, and the queue without it. -/
def takeMin : List PqEntry → Option (PqEntry × List PqEntry)
  | [] => none
  | e :: es =>
    match takeMin es with
    | none => some (e, [])
    | some (m, rest) => if e.precedes m then some (e, es) else some (m, e :: rest)

/-- `insert(w, i)` (40_tree_builder.md R133): the entry is stamped with `SEQ`, which then counts on. -/
def pqInsert (w : Weight) (i : Idx) (s : State) : State :=
  { s with pq := s.pq ++ [⟨w, s.seq, i⟩], seq := s.seq + 1 }

/-- `removeMin()` (40_tree_builder.md R133, R134); `none` on an empty queue. -/
def removeMin (s : State) : Option (PqEntry × State) :=
  (takeMin s.pq).map fun r => (r.1, { s with pq := r.2 })

/-! ### The input primitives (20_memory.md R66 to R68, R72) -/

/-- `hasMoreBits()` (20_memory.md R66). -/
def hasMoreBits (s : State) : Bool := s.icnt != 0 || !s.inp.isEmpty

/-- How many bits the input still holds. -/
def inputBitCount (s : State) : Nat := s.icnt.toNat + 8 * s.inp.length

/-- `readBit(F)` (20_memory.md R67). -/
def readBit (f : FaultCode) (s : State) : Cmd Bool :=
  if s.icnt = 0 then
    match s.inp with
    | [] => .raised f 0 s
    | b :: rest => .ok (b.getLsbD 7) { s with iacc := b, inp := rest, icnt := 7 }
  else .ok (s.iacc.getLsbD (s.icnt.toNat - 1)) { s with icnt := s.icnt - 1 }

/-- The loop of `readBits`: `v <- (v << 1) | readBit(F)`, as many times as the first argument says. -/
def readBitsFrom : Nat → Nat → FaultCode → State → Cmd Nat
  | 0, v, _, s => .ok v s
  | n + 1, v, f, s => (readBit f s).bind fun b s => readBitsFrom n (2 * v + b.toNat) f s

/-- `readBits(n, F)` (20_memory.md R68): an unsigned value below 2^n. -/
def readBits (n : Nat) (f : FaultCode) (s : State) : Cmd (BitVec n) :=
  (readBitsFrom n 0 f s).bind fun v s => .ok (BitVec.ofNat n v) s

/-- `readByte()` (20_memory.md R72) of a state whose `IN` is a byte followed by `rest`: the byte is gone, `IACC` and
`ICNT` are unchanged. -/
def readByte (rest : List Byte) (s : State) : State := { s with inp := rest }

/-! ### The output primitives (20_memory.md R69 to R71) -/

/-- `writeBit(b)` (20_memory.md R69): the byte is emitted when its eighth bit comes. -/
def writeBit (b : Bool) (s : State) : State :=
  let acc := s.oacc ||| ((BitVec.ofBool b).setWidth 8 <<< (7 - s.ocnt.toNat))
  if s.ocnt.toNat + 1 = 8 then { s with out := s.out ++ [acc], oacc := 0, ocnt := 0 }
  else { s with oacc := acc, ocnt := s.ocnt + 1 }

/-- Writing a bit sequence: `writeBit` of each element in order (20_memory.md R70). -/
def writeSeq (bs : Bits) (s : State) : State := bs.foldl (fun s b => writeBit b s) s

/-- `writeBits(v, n)` (20_memory.md R70). -/
def writeBits {n : Nat} (v : BitVec n) (s : State) : State := writeSeq (msb v) s

/-- `flushBits()` (20_memory.md R71). -/
def flushBits (s : State) : State :=
  if 0 < s.ocnt.toNat then { s with out := s.out ++ [s.oacc], oacc := 0, ocnt := 0 } else s

end Sys2Proof.Machine
end

