-- ==== Sys2Proof/Machine/Control.lean ====
section
/-! DEFINITION. Container and control commands: HDR_WR, HDR_RD, FLUSH, NOP, INIT (44_container_and_control.md). -/

namespace Sys2Proof.Machine

/-- The body of HDR_WR (44_container_and_control.md R200). -/
def hdrWrBody (s : State) : Cmd Unit := .ok () (writeBits Config.magic s)

/-- HDR_WR (44_container_and_control.md R200). -/
def execHdrWr (s : State) : Host.Outcome State Fault Refusal := command hdrWrBody s

/-- The body of HDR_RD (44_container_and_control.md R201): the 32 bits are compared as a whole. -/
def hdrRdBody (s : State) : Cmd Unit :=
  (readBits 32 .invalidFormat s).bind fun v s =>
  if v ≠ Config.magic then .raised .invalidFormat v s else .ok () s

/-- HDR_RD (44_container_and_control.md R201). -/
def execHdrRd (s : State) : Host.Outcome State Fault Refusal := command hdrRdBody s

/-- The body of FLUSH (44_container_and_control.md R202). -/
def flushBody (s : State) : Cmd Unit := .ok () (flushBits s)

/-- FLUSH (44_container_and_control.md R202). -/
def execFlush (s : State) : Host.Outcome State Fault Refusal := command flushBody s

/-- The body of NOP (44_container_and_control.md R203). -/
def nopBody (s : State) : Cmd Unit := .ok () s

/-- NOP (44_container_and_control.md R203): no change but `BUSY` rising and falling. -/
def execNop (s : State) : Host.Outcome State Fault Refusal := command nopBody s

/-- INIT (44_container_and_control.md R204): the one command a faulted engine obeys (30_encoding.md R104). -/
def execInit (s : State) : Host.Outcome State Fault Refusal := .next (clearEngine s)

end Sys2Proof.Machine
end

