-- ==== Sys2Proof/Machine/CodeTree.lean ====
section
/-! DEFINITION. The abstract Code Tree (00_scope.md R11) and the functions the spec defines on it: serialization
(30_encoding.md R108, R112), codes (42_symbol_encoder.md R170), decoding (43_symbol_decoder.md R187), building
(40_tree_builder.md R130), and the tree that node memory holds (10_state.md R25). The commands do not use this file:
the statements compare the commands with it. -/

namespace Sys2Proof.Machine

/-- `CodeTree ::= Leaf(sym) | Internal(left, right)` (00_scope.md R11). -/
inductive CodeTree where
  | leaf (sym : Sym)
  | internal (left right : CodeTree)
  deriving DecidableEq, Repr

namespace CodeTree

/-- The symbols of the leaves, left to right. -/
def symbols : CodeTree → List Sym
  | leaf y => [y]
  | internal l r => l.symbols ++ r.symbols

/-- The number of Internal nodes. -/
def internalCount : CodeTree → Nat
  | leaf _ => 0
  | internal l r => l.internalCount + r.internalCount + 1

/-- The length of the longest root-to-leaf path. -/
def depth : CodeTree → Nat
  | leaf _ => 0
  | internal l r => max l.depth r.depth + 1

/-- Items 4 and 5 of the tree invariant (10_state.md R24): symbols at most 256, none twice, EOS among them. -/
def wellFormed (t : CodeTree) : Bool :=
  t.symbols.all (fun y => y ≤ Config.eos) && decide t.symbols.Nodup && decide (Config.eos ∈ t.symbols)

/-- `ser(t)` (30_encoding.md R108 to R110). -/
def ser : CodeTree → Bits
  | leaf y => false :: msb y
  | internal l r => true :: (l.ser ++ r.ser)

/-- `des(b)` (30_encoding.md R112): the tree and the rest of the bits, or `none` when the bits end before the tree is
complete. The first argument bounds the recursion. -/
def desFrom : Nat → Bits → Option (CodeTree × Bits)
  | 0, _ => none
  | _ + 1, [] => none
  | fuel + 1, true :: b =>
    match desFrom fuel b with
    | none => none
    | some (l, b1) =>
      match desFrom fuel b1 with
      | none => none
      | some (r, b2) => some (internal l r, b2)
  | _ + 1, false :: b =>
    if b.length < 9 then none else some (leaf (BitVec.ofNat 9 (bitsValue (b.take 9))), b.drop 9)

/-- `des` with enough recursion for the bits given: every level takes one. -/
def des (b : Bits) : Option (CodeTree × Bits) := desFrom (b.length + 1) b

/-- `path(t, s)` (42_symbol_encoder.md R170); `none` when no Leaf holds `s`. -/
def path : CodeTree → Sym → Option Bits
  | leaf y, s => if y = s then some [] else none
  | internal l r, s =>
    match l.path s with
    | some p => some (false :: p)
    | none => (r.path s).map (true :: ·)

/-- The codes of the bytes of `B` one after another, without the EOS code (30_encoding.md R114); `none` when a byte has
no Leaf. -/
def codesOf (t : CodeTree) : List Byte → Option Bits
  | [] => some []
  | b :: bs =>
    match t.path (byteSym b), t.codesOf bs with
    | some p, some q => some (p ++ q)
    | _, _ => none

/-- `encode(t, B)` (43_symbol_decoder.md R187): the paths of the bytes, then the path of EOS. -/
def encodeBytes (t : CodeTree) (bs : List Byte) : Option Bits :=
  match t.codesOf bs, t.path Config.eos with
  | some p, some q => some (p ++ q)
  | _, _ => none

/-- `decode(t, x)` (43_symbol_decoder.md R187) from a position `cur` in `root`: the bytes so far, with the rest of
`x` at EOS or `none` when a bit was needed and `x` was used up. The first argument bounds the loop; `none` as a
whole when it runs out. -/
def decodeFrom (root : CodeTree) : Nat → CodeTree → Bits → Option (List Byte × Option Bits)
  | 0, _, _ => none
  | fuel + 1, leaf y, x =>
    if y = Config.eos then some ([], some x)
    else (decodeFrom root fuel root x).map fun d => (y.setWidth 8 :: d.1, d.2)
  | _ + 1, internal _ _, [] => some ([], none)
  | fuel + 1, internal l r, b :: x => decodeFrom root fuel (if b then r else l) x

/-- `decode(t, x)` (43_symbol_decoder.md R187, R188). -/
def decode (t : CodeTree) (x : Bits) : Option (List Byte × Option Bits) := decodeFrom t (2 * x.length + 2) t x

/-- The table `codes` fills (42_symbol_encoder.md R171), as a function of the abstract tree: the entry of symbol
`y`, `none` where `present` = 0. -/
def codeOf (t : CodeTree) (y : Sym) : Option (BitVec 9 × Bits) := (t.path y).map fun p => (BitVec.ofNat 9 p.length, p)

/-- `Σ_s len(s) · f(s)` over the Leaves, with every Leaf `d` deeper than it stands (40_tree_builder.md R143). -/
def costFrom (f : Sym → Nat) : Nat → CodeTree → Nat
  | d, leaf y => d * f y
  | d, internal l r => costFrom f (d + 1) l + costFrom f (d + 1) r

/-- `Σ_s len(s) · f(s)` (40_tree_builder.md R143). -/
def cost (f : Sym → Nat) (t : CodeTree) : Nat := costFrom f 0 t

/-- The sum of `f` over the Leaves: the weight of the tree (40_tree_builder.md R137, R139). -/
def weight (f : Sym → Nat) : CodeTree → Nat
  | leaf y => f y
  | internal l r => l.weight f + r.weight f

/-! ### What TREE_RD checks, on a complete tree (41_tree_codec.md R154, R155) -/

/-- The checks of `rd` in stream order, from a count of Internal nodes and the symbols seen: the first fault with its
`FINFO`, or the counts after the tree. -/
def readChecks : CodeTree → Nat × List Sym → Except (FaultCode × Word) (Nat × List Sym)
  | leaf y, (n, seen) =>
    if Config.eos < y then .error (.badSymbol, y.setWidth 32)
    else if y ∈ seen then .error (.duplicateSymbol, y.setWidth 32)
    else .ok (n, y :: seen)
  | internal l r, (n, seen) =>
    if n = Config.maxInternal then .error (.treeTooLarge, 0)
    else match l.readChecks (n + 1, seen) with
      | .error e => .error e
      | .ok k => r.readChecks k

/-- The fault TREE_RD raises on the serialization of `t`, `none` when it accepts the tree. -/
def readFault (t : CodeTree) : Option (FaultCode × Word) :=
  match t.readChecks (0, []) with
  | .error e => some e
  | .ok (_, seen) => if Config.eos ∈ seen then none else some (.noEosLeaf, 0)

/-- The bits `rd` consumes from the bits of `t`, from the counts `readChecks` starts with: up to and including the tag or
the 9-bit field at which the first check fails (41_tree_codec.md R155, last column), or all of them. -/
def checkedBits : CodeTree → Nat × List Sym → Bits
  | leaf y, _ => (leaf y).ser
  | internal l r, (n, seen) =>
    if n = Config.maxInternal then [true]
    else match l.readChecks (n + 1, seen) with
      | .error _ => true :: l.checkedBits (n + 1, seen)
      | .ok k => true :: (l.ser ++ r.checkedBits k)

/-- The bits TREE_RD consumes from `ser(t)`: to its first failed check, or the whole tree (NoEosLeaf and success). -/
def bitsRead (t : CodeTree) : Bits := t.checkedBits (0, [])

end CodeTree

/-! ### build (40_tree_builder.md R130) -/

/-- An element of the queue of R130: weight, sequence number, tree. -/
structure Weighted where
  w : Nat
  n : Nat
  t : CodeTree
  deriving DecidableEq, Repr

/-- Least in (weight, sequence number). -/
def Weighted.before (x y : Weighted) : Bool := x.w < y.w || (x.w == y.w && x.n < y.n)

/-- The least element of a queue, and the queue without it. -/
def takeLeast : List Weighted → Option (Weighted × List Weighted)
  | [] => none
  | e :: es =>
    match takeLeast es with
    | none => some (e, [])
    | some (m, rest) => if e.before m then some (e, es) else some (m, e :: rest)

/-- The merge loop of R130, with the next sequence number; the first argument bounds its turns. -/
def mergeTrees : Nat → Nat → List Weighted → Option CodeTree
  | 0, _, _ => none
  | fuel + 1, n, q =>
    match takeLeast q with
    | none => none
    | some (a, q1) =>
      match takeLeast q1 with
      | none => some a.t
      | some (b, q2) => mergeTrees fuel (n + 1) (q2 ++ [⟨a.w + b.w, n, .internal a.t b.t⟩])

/-- All byte values, 0 to 255 ascending. -/
def allBytes : List Byte := (List.range 256).map (BitVec.ofNat 8)

/-- The byte values present in a frequency table, ascending (10_state.md R21, 40_tree_builder.md R135). -/
def presentBytes (f : Byte → Nat) : List Byte := allBytes.filter fun b => 0 < f b

/-- The queue before the first merge: present symbols ascending, then EOS with weight 1 (R130, R135). -/
def startQueue (f : Byte → Nat) : List Weighted :=
  let ps := presentBytes f
  ps.mapIdx (fun k b => ⟨f b, k, .leaf (byteSym b)⟩) ++ [⟨1, ps.length, .leaf Config.eos⟩]

/-- `build(f)` (40_tree_builder.md R130); it is `some` tree for every `f`. -/
def buildTree (f : Byte → Nat) : Option CodeTree :=
  let q := startQueue f
  mergeTrees q.length q.length q

/-- The weights of R143: the counts, and 1 for EOS. -/
def symbolWeight (f : Byte → Nat) (y : Sym) : Nat := if y = Config.eos then 1 else f (y.setWidth 8)

/-! ### The tree in node memory (10_state.md R25) -/

/-- `tree(i)` (10_state.md R25); `none` where following the node words leaves the allocated ones or passes more
nodes than the first argument allows. -/
def treeAt : Nat → State → Idx → Option CodeTree
  | 0, _, _ => none
  | fuel + 1, s, i =>
    match s.nodeAt i with
    | none => none
    | some w =>
      if nodeKind w then
        match treeAt fuel s (nodeLeft w), treeAt fuel s (nodeRight w) with
        | some l, some r => some (.internal l r)
        | _, _ => none
      else some (.leaf (nodeSym w))

/-- `TREE` = `tree(ROOT)` (10_state.md R25). -/
def State.tree (s : State) : Option CodeTree := treeAt Config.nodeN s s.root

/-- The indices met by following `LEFT` and `RIGHT` from `i`, in preorder (10_state.md R24 item 3). -/
def indicesFrom : Nat → State → Idx → Option (List Nat)
  | 0, _, _ => none
  | fuel + 1, s, i =>
    match s.nodeAt i with
    | none => none
    | some w =>
      if nodeKind w then
        match indicesFrom fuel s (nodeLeft w), indicesFrom fuel s (nodeRight w) with
        | some l, some r => some (i.toNat :: (l ++ r))
        | _, _ => none
      else some [i.toNat]

/-- The Frequency Table as a function of the byte value (10_state.md R21). -/
def State.counts (s : State) (b : Byte) : Nat := (s.freqAt b).toNat

/-! ### The bits pending on either side (10_state.md R31, R32) -/

/-- The input bit sequence from the current bit position: the unread bits of `IACC`, then the bytes of `IN`. -/
def State.inBits (s : State) : Bits := (msb s.iacc).drop (8 - s.icnt.toNat) ++ byteBits s.inp

/-- The output bit sequence: the bytes of `OUT`, then the filled bits of `OACC`. -/
def State.outBits (s : State) : Bits := byteBits s.out ++ (msb s.oacc).take s.ocnt.toNat

end Sys2Proof.Machine
end

