-- ==== Sys2Proof/Machine/SymbolDecoder.lean ====
section
/-! DEFINITION. The Symbol Decoder family: DEC (43_symbol_decoder.md). -/

namespace Sys2Proof.Machine

/-- The loop of DEC (43_symbol_decoder.md R185): the Leaf test comes before any bit is read. The first argument bounds
its turns. -/
def decLoop : Nat → State → Cmd Unit
  | 0, _ => .stuck .decoderEndless
  | fuel + 1, s =>
    match s.nodeAt s.cur with
    | none => .stuck .treeBroken
    | some w =>
      if nodeKind w then
        (readBit .malformedStream s).bind fun c s =>
        decLoop fuel { s with cur := if c then nodeRight w else nodeLeft w }
      else if nodeSym w = Config.eos then .ok () s
      else if Config.eos < nodeSym w then .stuck .treeBroken
      else decLoop fuel { writeBits ((nodeSym w).setWidth 8) s with cur := s.root }

/-- The body of DEC (43_symbol_decoder.md R185). With `n` input bits the loop takes at most `2 n + 1` turns unless it has
none to read at all (43_symbol_decoder.md R188). -/
def decBody (s : State) : Cmd Unit :=
  if !s.treeValid then .raised .noTree 0 s
  else decLoop (2 * inputBitCount s + 2) { s with cur := s.root }

/-- DEC (43_symbol_decoder.md R185). -/
def execDec (s : State) : Host.Outcome State Fault Refusal := command decBody s

end Sys2Proof.Machine
end

