-- ==== Sys2Proof/Machine/SymbolEncoder.lean ====
section
/-! DEFINITION. The Symbol Encoder family: ENC (42_symbol_encoder.md). -/

namespace Sys2Proof.Machine

/-- `CODE[b]` of a byte value (10_state.md R26). -/
def State.codeOfByte (s : State) (b : Byte) : CodeEntry := s.code[b.toNat]'(Nat.lt_trans b.isLt (by omega))

/-- The loop of ENC over the bytes of `IN`, then the EOS code (42_symbol_encoder.md R172): each byte is consumed, then
looked up, then its code is written. -/
def encLoop : List Byte → State → Cmd Unit
  | [], s => .ok () (writeSeq s.code[256].bits s)
  | b :: rest, s =>
    if !(s.codeOfByte b).present then .raised .symbolNotInTree (b.setWidth 32) (readByte rest s)
    else encLoop rest (writeSeq (s.codeOfByte b).bits (readByte rest s))

/-- The body of ENC (42_symbol_encoder.md R172). -/
def encBody (s : State) : Cmd Unit :=
  if !s.treeValid then .raised .noTree 0 s
  else if s.icnt ≠ 0 then .raised .streamMisaligned 0 s
  else encLoop s.inp s

/-- ENC (42_symbol_encoder.md R172). -/
def execEnc (s : State) : Host.Outcome State Fault Refusal := command encBody s

end Sys2Proof.Machine
end

