-- ==== Sys2Proof/Machine/TreeBuilder.lean ====
section
/-! DEFINITION. The Tree Builder family: HIST and BUILD (40_tree_builder.md). -/

namespace Sys2Proof.Machine

/-- The loop of HIST over the bytes of `IN` (40_tree_builder.md R132): each byte is consumed, then counted; a counter at
its top raises FreqOverflow and stays. -/
def histLoop : List Byte → State → Cmd Unit
  | [], s => .ok () s
  | b :: rest, s =>
    if s.freqAt b = Config.cntMax then .raised .freqOverflow (b.setWidth 32) (readByte rest s)
    else histLoop rest ((readByte rest s).setFreq b (s.freqAt b + 1))

/-- The body of HIST (40_tree_builder.md R132). -/
def histBody (s : State) : Cmd Unit :=
  if s.icnt ≠ 0 then .raised .streamMisaligned 0 s else histLoop s.inp s

/-- HIST (40_tree_builder.md R132). -/
def execHist (s : State) : Host.Outcome State Fault Refusal := command histBody s

/-- One turn of BUILD's first loop: a Leaf and a queue entry for a symbol that occurs (40_tree_builder.md R133, R135).
`alloc` returns the index `NNODES` had before it (10_state.md R23); so in the uses of it below. -/
def addLeaf (s : State) (b : Byte) : State :=
  if 0 < (s.freqAt b).toNat then
    pqInsert ((s.freqAt b).setWidth 40) s.nnodes (alloc (leafWord (byteSym b)) s).2
  else s

/-- The synthetic EOS entry, of weight 1 (40_tree_builder.md R133). -/
def addEos (s : State) : State := pqInsert 1 s.nnodes (alloc (leafWord Config.eos) s).2

/-- The leaves of BUILD: symbols ascending, then the synthetic EOS entry (40_tree_builder.md R133, R135). -/
def addLeaves (s : State) : State :=
  addEos (allBytes.foldl addLeaf s)

/-- The merge loop of BUILD (40_tree_builder.md R133, R136): the first removed entry is the left child. It ends when one
entry is left; the first argument bounds its turns, and R137 needs one fewer than there are entries. -/
def mergeLoop : Nat → State → State
  | 0, s => s
  | fuel + 1, s =>
    match removeMin s with
    | none => s
    | some (a, s1) =>
      match removeMin s1 with
      | none => s
      | some (b, s2) =>
        mergeLoop fuel (pqInsert (a.w + b.w) s2.nnodes (alloc (internalWord a.node b.node) s2).2)

/-- BUILD up to its first merge: the old tree and queue are gone, the leaves are in place (40_tree_builder.md R133). -/
def buildStart (s : State) : State := addLeaves { dropTree s with pq := [], seq := 0 }

/-- All merges (40_tree_builder.md R137). -/
def mergeAll (s : State) : State := mergeLoop s.pq.length s

/-- The end of BUILD, with the last queue entry taken out (40_tree_builder.md R133). `STACK` is empty again
(10_state.md R29). -/
def buildFinish (r : PqEntry) (s : State) : Cmd Unit :=
  (fillCodes { s with root := r.node }).bind fun _ s => .ok () { s with treeValid := true, stack := [] }

/-- The body of BUILD (40_tree_builder.md R133). -/
def buildBody (s : State) : Cmd Unit :=
  match removeMin (mergeAll (buildStart s)) with
  | none => .stuck .queueEmpty
  | some (r, t) => buildFinish r t

/-- BUILD (40_tree_builder.md R133). -/
def execBuild (s : State) : Host.Outcome State Fault Refusal := command buildBody s

end Sys2Proof.Machine
end

