-- ==== Sys2Proof/Machine/TreeCodec.lean ====
section
/-! DEFINITION. The Tree Codec family: TREE_WR and TREE_RD (41_tree_codec.md). -/

namespace Sys2Proof.Machine

/-- `emit(i)` (41_tree_codec.md R152). The first argument bounds the number of nodes on a path. -/
def emit : Nat → Idx → State → Cmd Unit
  | 0, _, _ => .stuck .treeBroken
  | fuel + 1, i, s =>
    match s.nodeAt i with
    | none => .stuck .treeBroken
    | some w =>
      if nodeKind w then
        (emit fuel (nodeLeft w) (writeBit true s)).bind fun _ s =>
        emit fuel (nodeRight w) s
      else .ok () (writeBits (nodeSym w) (writeBit false s))

/-- The body of TREE_WR (41_tree_codec.md R152). `STACK` is empty again at its end (10_state.md R29). -/
def treeWrBody (s : State) : Cmd Unit :=
  if !s.treeValid then .raised .noTree 0 s
  else (emit Config.nodeN s.root s).bind fun _ s => .ok () { s with stack := [] }

/-- TREE_WR (41_tree_codec.md R152). -/
def execTreeWr (s : State) : Host.Outcome State Fault Refusal := command treeWrBody s

/-- The temporaries of TREE_RD: `NINT` and `SEEN` (41_tree_codec.md R154). -/
structure ReadTemps where
  nint : Nat
  seen : List Sym
  deriving DecidableEq, Repr

/-- `rd()` (41_tree_codec.md R154): the index of the subtree read and the temporaries after it. `alloc` returns the index
`NNODES` had before it (10_state.md R23). The first argument bounds the depth; TreeTooLarge is
raised before it runs out (41_tree_codec.md R155). -/
def rd : Nat → ReadTemps → State → Cmd (Idx × ReadTemps)
  | 0, _, _ => .stuck .readerTooDeep
  | fuel + 1, k, s =>
    (readBit .malformedStream s).bind fun t s =>
    if t then
      if k.nint = Config.maxInternal then .raised .treeTooLarge 0 s
      else
        (rd fuel { k with nint := k.nint + 1 } (alloc (internalWord 0 0) s).2).bind fun l s1 =>
        (rd fuel l.2 (s1.setNodeLeft s.nnodes l.1)).bind fun r s2 =>
        .ok (s.nnodes, r.2) (s2.setNodeRight s.nnodes r.1)
    else
      (readBits 9 .malformedStream s).bind fun v s =>
      if Config.eos < v then .raised .badSymbol (v.setWidth 32) s
      else if v ∈ k.seen then .raised .duplicateSymbol (v.setWidth 32) s
      else
        .ok (s.nnodes, { k with seen := v :: k.seen }) (alloc (leafWord v) s).2

/-- TREE_RD up to its end or its raise (41_tree_codec.md R154). `STACK` is empty again at its end (10_state.md R29). -/
def treeRdSteps (s : State) : Cmd Unit :=
  (rd (Config.maxInternal + 1) ⟨0, []⟩ (dropTree s)).bind fun r s =>
  if Config.eos ∈ r.2.seen then
    (fillCodes { s with root := r.1 }).bind fun _ s =>
    .ok () { s with treeValid := true, stack := [] }
  else .raised .noEosLeaf 0 s

/-- The body of TREE_RD: on any raise `NNODES <- 0; ROOT <- 0` comes before the fault is recorded
(41_tree_codec.md R154, 60_exceptions.md R231). -/
def treeRdBody (s : State) : Cmd Unit :=
  match treeRdSteps s with
  | .ok _ t => .ok () t
  | .raised f info t => .raised f info { t with nnodes := 0, root := 0 }
  | .stuck r => .stuck r

/-- TREE_RD (41_tree_codec.md R154). -/
def execTreeRd (s : State) : Host.Outcome State Fault Refusal := command treeRdBody s

end Sys2Proof.Machine
end

