-- ==== Sys2Proof/Machine/Dispatch.lean ====
section
/-! DEFINITION. One arm for each command (30_encoding.md R102, R104). -/

namespace Sys2Proof.Machine

def exec (i : Instr) (s : State) : Host.Outcome State Fault Refusal :=
  match i with
  | .nop => Sys2Proof.Machine.execNop s
  | .init => Sys2Proof.Machine.execInit s
  | .hist => Sys2Proof.Machine.execHist s
  | .build => Sys2Proof.Machine.execBuild s
  | .hdrWr => Sys2Proof.Machine.execHdrWr s
  | .treeWr => Sys2Proof.Machine.execTreeWr s
  | .enc => Sys2Proof.Machine.execEnc s
  | .flush => Sys2Proof.Machine.execFlush s
  | .hdrRd => Sys2Proof.Machine.execHdrRd s
  | .treeRd => Sys2Proof.Machine.execTreeRd s
  | .dec => Sys2Proof.Machine.execDec s

end Sys2Proof.Machine
end

