-- ==== Sys2Proof/Machine/Registers.lean ====
section
/-! DEFINITION. The register space (10_state.md R39 to R49, 20_memory.md R61 to R63, R78) and the dispatch of a command
word (30_encoding.md R104). -/

namespace Sys2Proof.Machine

/-- The word address of `CMD` (10_state.md R41). -/
def cmdAddr : RegAddr := 0x001

/-- The word address of `STATUS` (10_state.md R42). -/
def statusAddr : RegAddr := 0x002

/-- The register map (10_state.md R39): the value a read of word address `a` returns. -/
def readReg (a : RegAddr) (s : State) : Word :=
  let n := a.toNat
  if n = 0x000 then Config.magic
  else if n = 0x001 then 0
  else if n = 0x002 then statusWord s
  else if n = 0x003 then faultWord s
  else if n = 0x004 then s.finfo
  else if n = 0x005 then treeInfoWord s
  else if h : 0x100 ≤ n ∧ n ≤ 0x1FF then s.freq[n - 0x100]'(by omega)
  else if h : 0x200 ≤ n ∧ n ≤ 0x300 then codeLenWord (s.code[n - 0x200]'(by omega))
  else if h : 0x400 ≤ n ∧ n ≤ 0x600 then nodeWindowWord s (n - 0x400) (by omega)
  else 0

/-- The counter a word address names, if it is in the FREQ window (10_state.md R46). -/
def freqIndex (a : RegAddr) : Option Byte :=
  if 0x100 ≤ a.toNat ∧ a.toNat ≤ 0x1FF then some (BitVec.ofNat 8 (a.toNat - 0x100)) else none

/-- The body of an illegal command word: IllegalCommand with the whole word (30_encoding.md R103). -/
def illegalBody (c : Word) (s : State) : Cmd Unit := .raised .illegalCommand c s

/-- `dispatch(c)` (30_encoding.md R104): a legal word runs its command, any other raises IllegalCommand with the whole
word, unless the engine is faulted. -/
def dispatch (c : Word) (s : State) : Host.Outcome State Fault Refusal :=
  match decode c with
  | .ok i => exec i s
  | .error _ => command (illegalBody c) s

/-- The next free value, and the state that has drawn it (log entry 6). -/
def drawWord (s : State) : Word × State := (Config.freeWord s.draws, { s with draws := s.draws + 1 })

/-- `MemRead(a, 1)` (20_memory.md R62): the value goes to the host and nothing else changes. While `BUSY` = 1 only
STATUS has a value; any other read returns an unspecified one (20_memory.md R78). -/
def memRead (a : RegAddr) (s : State) : State :=
  if s.busy ∧ a ≠ statusAddr then
    { (drawWord s).2 with replies := s.replies ++ [(drawWord s).1] }
  else { s with replies := s.replies ++ [readReg a s] }

/-- `MemWrite(a, 1, v)` (20_memory.md R63): CMD dispatches, the FREQ window stores, any other write is ignored. While
`BUSY` = 1 a CMD write is discarded and a FREQ write leaves an unspecified value in that one entry (20_memory.md R78). -/
def memWrite (a : RegAddr) (v : Word) (s : State) : Host.Outcome State Fault Refusal :=
  if a = cmdAddr then
    if s.busy then .next s else dispatch v s
  else
    match freqIndex a with
    | none => .next s
    | some b =>
      if s.busy then
        .next ((drawWord s).2.setFreq b (drawWord s).1)
      else .next (s.setFreq b v)

end Sys2Proof.Machine
end

