-- ==== Sys2Proof/Machine/HostMoves.lean ====
section
/-! DEFINITION. The host's moves (70_reset_and_hazards.md R258), and the two file sequences as host scripts
(44_container_and_control.md R205, R206). -/

namespace Sys2Proof.Machine

/-- The `RESET` move (70_reset_and_hazards.md R250): the reset values everywhere but in `IN`, `OUT` and `NODE`, whose
words are not cleared. -/
def resetMove (s : State) : State := clearEngine s

/-- `Supply(bytes)` (20_memory.md R81). -/
def supply (bytes : List Byte) (s : State) : State := { s with inp := s.inp ++ bytes }

/-- `Discard` (20_memory.md R81): allowed while the engine is idle (70_reset_and_hazards.md R258). -/
def discard (s : State) : Host.Outcome State Fault Refusal :=
  if s.busy then .refused .discardWhileBusy else .next { s with inp := [] }

/-- The host takes the next byte of `OUT`, if one is there; `OUT` itself stays (10_state.md R34, 20_memory.md R82). -/
def takeByte (s : State) : State :=
  if s.taken < s.out.length then { s with taken := s.taken + 1 } else s

/-- The effect of one host move. -/
def hostMove (m : HostMove) (s : State) : Host.Outcome State Fault Refusal :=
  match m with
  | .reset => .next (resetMove s)
  | .memRead a => .next (memRead a s)
  | .memWrite a v => memWrite a v s
  | .supply bytes => .next (supply bytes s)
  | .discard => discard s
  | .takeByte => .next (takeByte s)

/-- The host's next move, taken off the list. -/
def nextMove (s : State) : Option (HostMove × State) :=
  match s.moves with
  | [] => none
  | m :: ms => some (m, { s with moves := ms })

/-- A command's word put before the host's other moves, on an idle engine (a CMD write needs `BUSY` = 0,
70_reset_and_hazards.md R258). -/
def placeCommand (c : Word) (s : State) : State :=
  { s with busy := false, moves := .memWrite cmdAddr c :: s.moves }

/-- A command as a host move (30_encoding.md R117). -/
def commandMove (i : Instr) : HostMove := .memWrite cmdAddr (encode i)

/-- `ENCODE_FILE B` (44_container_and_control.md R205). -/
def encodeFile (bytes : List Byte) : List HostMove :=
  [commandMove .init, .supply bytes, commandMove .hist, commandMove .build, commandMove .hdrWr, commandMove .treeWr,
    .supply bytes, commandMove .enc, commandMove .flush]

/-- `DECODE_FILE F` (44_container_and_control.md R206). -/
def decodeFile (bytes : List Byte) : List HostMove :=
  [commandMove .init, .supply bytes, commandMove .hdrRd, commandMove .treeRd, commandMove .dec, commandMove .flush]

/-- A bit sequence as bytes, first bit in bit 7 of the first byte, the last byte filled with zeros (20_memory.md R64,
R71). -/
def packBits (bs : Bits) : List Byte :=
  (List.range ((bs.length + 7) / 8)).map fun k =>
    BitVec.ofNat 8 (bitsValue ((List.range 8).map fun j => (bs[8 * k + j]?).getD false))

/-- The counts of the byte values in a byte sequence (40_tree_builder.md R132). -/
def countsOf (bytes : List Byte) (b : Byte) : Nat := bytes.count b

/-- The container `G(B)` of 44_container_and_control.md R205 (30_encoding.md R106); it is `some` for every `B`. -/
def container (bytes : List Byte) : Option (List Byte) :=
  match buildTree (countsOf bytes) with
  | none => none
  | some t => (t.encodeBytes bytes).map fun payload => packBits (msb Config.magic ++ t.ser ++ payload)

end Sys2Proof.Machine
end

