-- ==== Sys2Proof/Machine/Step.lean ====
section
/-! DEFINITION. One step: the host's next move, and with it a whole command where the move issues one
(00_scope.md R6). -/

namespace Sys2Proof.Machine

/-- One step. With no move pending the engine is idle and keeps its state (60_exceptions.md R241). -/
def step (s : State) : Host.Outcome State Fault Refusal :=
  match nextMove s with
  | none => .next s
  | some (m, t) => hostMove m t

/-- The command word of `nbits` bits placed as the host's next move, so that the next step dispatches it (log entry
15). -/
def State.withFetchWord (s : State) (nbits w : Nat) : State := placeCommand (BitVec.ofNat 32 (w % 2 ^ nbits)) s

end Sys2Proof.Machine
end

