-- ==== Sys2Proof/Safety.lean ====
section
/-! DEFINITION. What a good state and a good end of a run are, in the terms the statements use. -/

namespace Sys2Proof.Machine

/-- The tree invariant (10_state.md R24): with `TREE_VALID` = 1 the node words from `ROOT` form one tree that uses every
allocated index exactly once, and its leaves are as items 4 and 5 say. -/
def State.TreeInv (s : State) : Prop :=
  s.treeValid = true →
    ∃ t idx, s.tree = some t ∧ t.wellFormed = true ∧
      indicesFrom Config.nodeN s s.root = some idx ∧ idx.Perm (List.range s.nnodes.toNat)

/-- An entry of `CODE` is what `codes` makes of the tree (10_state.md R26, 42_symbol_encoder.md R171). -/
def CodeEntry.agrees (e : CodeEntry) (c : Option (BitVec 9 × Bits)) : Prop :=
  match c with
  | none => e.present = false
  | some (len, bits) => e = ⟨true, len, bits⟩

/-- The code table invariant (10_state.md R26). -/
def State.CodeInv (s : State) : Prop :=
  (s.treeValid = true →
    ∃ t, s.tree = some t ∧ ∀ (y : Nat) (h : y < 257), s.code[y].agrees (t.codeOf (BitVec.ofNat 9 y))) ∧
  (s.treeValid = false → ∀ (y : Nat) (h : y < 257), s.code[y].present = false)

/-- The packer invariant (10_state.md R31): the unfilled bits `OACC[7-OCNT : 0]` are 0. -/
def State.PackerInv (s : State) : Prop := s.oacc <<< s.ocnt.toNat = 0

/-- Between commands the engine is idle and the transient structures are empty (10_state.md R27, R29, R36). -/
def State.IdleInv (s : State) : Prop := s.busy = false ∧ s.pq = [] ∧ s.stack = []

/-- `FAULT` holds 0 or a code of the list, and `FINFO` is 0 without a fault (10_state.md R35, 60_exceptions.md R221). -/
def State.FaultInv (s : State) : Prop := s.fault.toNat ≤ 11 ∧ (s.fault = 0 → s.finfo = 0)

/-- The host has taken no byte that was not emitted (20_memory.md R82). -/
def State.TakenInv (s : State) : Prop := s.taken ≤ s.out.length

/-- The invariant of the engine between two host moves. -/
def State.Inv (s : State) : Prop :=
  s.TreeInv ∧ s.CodeInv ∧ s.PackerInv ∧ s.IdleInv ∧ s.FaultInv ∧ s.TakenInv

/-- A run has ended: the script is used up and the engine is idle (70_reset_and_hazards.md R262). -/
def State.ended (s : State) : Bool := s.moves.isEmpty && !s.busy

/-- A run has ended well (70_reset_and_hazards.md R262). -/
def State.endedWell (s : State) : Bool := s.ended && !s.faulted

/-- The host runs a script on the engine, one move a step, after whatever it had pending is dropped. -/
def runScript (script : List HostMove) (s : State) : Host.Outcome State Fault Refusal :=
  Host.Core.run Sys2Proof.core script.length { s with moves := script }

end Sys2Proof.Machine
end

