-- ==== Sys2Proof/Certificates/Slice0/Obligations.lean ====
section
/-! DEFINITION. The statements for the provers. Each docstring names the rule of spec/ it formalises. `inBits` and
`outBits` are the bits pending on the input side and written on the output side; a frame is written as an equation
`t = { s with … }` that names every field that may differ. -/

open Sys2Proof Sys2Proof.Machine

/-! ### Encoding and dispatch -/

/-- 30_encoding.md R102: each command's word decodes to it, in the decoder and in the table's numbering. -/
def Obligations.DecodeEncodeRoundTrip : Prop :=
  ∀ i : Instr, i.wellFormed = true ∧ decode (encode i) = .ok i ∧ decodeTableWord 32 (encode i).toNat = some i

/-- 30_encoding.md R101: the legal words are exactly 0x0 to 0xA, and each is the word of its command. -/
def Obligations.LegalWordsAreZeroToTen : Prop :=
  ∀ v : Word,
    (v.toNat ≤ 0x0A → wordWellFormed v = true ∧ ∃ i, decode v = .ok i ∧ encode i = v) ∧
    (0x0A < v.toNat → wordWellFormed v = false ∧ ∃ e, decode v = .error e)

/-- 30_encoding.md R101 to R103: words written out bit by bit. -/
def Obligations.WordsFromTheTableDecode : Prop :=
  decode 0b00000000000000000000000000000010#32 = .ok .hist ∧
  decode 0b00000000000000000000000000000011#32 = .ok .build ∧
  decode 0b00000000000000000000000000000101#32 = .ok .treeWr ∧
  decode 0b00000000000000000000000000000110#32 = .ok .enc ∧
  decode 0b00000000000000000000000000001010#32 = .ok .dec ∧
  decode 0b00000000000000000000000000001000#32 = .ok .hdrRd ∧
  decode 0b00000000000000000000000000001011#32 = .error .reservedOpcode ∧
  decode 0b00000000000000000000000100000011#32 = .error .zeroFieldSet

/-- 20_memory.md R63, 30_encoding.md R104: on an idle engine a CMD write of a legal word is that command, on the state
without the move (log entry 1). -/
def Obligations.StepRunsTheDecodedCommand : Prop :=
  ∀ (s : State) (v : Word) (i : Instr) (ms : List HostMove),
    s.moves = .memWrite 0x001 v :: ms → s.busy = false → decode v = .ok i → step s = exec i { s with moves := ms }

/-- 60_exceptions.md R232: in the faulted state every CMD write but INIT is ignored, register reads, FREQ window writes,
Supply and Discard work, and `FAULT` and `FINFO` stay until INIT or reset. -/
def Obligations.FaultedStateObeysOnlyInit : Prop :=
  ∀ s : State, s.fault ≠ 0 → s.busy = false →
    (∀ i : Instr, i ≠ .init → exec i s = .next s) ∧
    (∀ v ms, s.moves = .memWrite 0x001 v :: ms → v ≠ 0x00000001 → step s = .next { s with moves := ms }) ∧
    (∀ a ms, s.moves = .memRead a :: ms → step s = .next { s with moves := ms, replies := s.replies ++ [readReg a s] }) ∧
    (∀ (b : Byte) v ms, s.moves = .memWrite (BitVec.ofNat 12 (0x100 + b.toNat)) v :: ms →
      step s = .next { s with moves := ms, freq := s.freq.set b.toNat v b.isLt }) ∧
    (∀ bs ms, s.moves = .supply bs :: ms → step s = .next { s with moves := ms, inp := s.inp ++ bs }) ∧
    (∀ ms, s.moves = .discard :: ms → step s = .next { s with moves := ms, inp := [] }) ∧
    (∀ t, step s = .next t →
      s.moves.head? ≠ some .reset → s.moves.head? ≠ some (.memWrite 0x001 0x00000001) →
      t.fault = s.fault ∧ t.finfo = s.finfo)

/-- 30_encoding.md R103: dispatching a word above 0xA raises IllegalCommand with the whole word and changes nothing else
(`STACK` and `PQ`, which R231 empties, are empty between commands). The host's move is log entry 1. -/
def Obligations.IllegalWordRaisesIllegalCommand : Prop :=
  ∀ (s : State) (v : Word) (ms : List HostMove),
    s.moves = .memWrite 0x001 v :: ms → s.IdleInv → s.fault = 0 → 0x0A < v.toNat →
    step s = .next { s with moves := ms, fault := 10, finfo := v }

/-- 60_exceptions.md R231, R221: what a raise records, whatever command executes it, and the code numbers. -/
def Obligations.RaiseRecordsTheFault : Prop :=
  (∀ (body : State → Cmd Unit) (s u : State) (f : FaultCode) (info : Word),
    s.fault = 0 → body { s with busy := true } = .raised f info u →
    command body s =
      .next { u with fault := faultNumber f, finfo := info, stack := [], pq := [], busy := false }) ∧
  [FaultCode.invalidFormat, .malformedStream, .badSymbol, .duplicateSymbol, .treeTooLarge, .noEosLeaf, .noTree,
    .symbolNotInTree, .freqOverflow, .illegalCommand, .streamMisaligned].map faultNumber =
    [1, 2, 3, 4, 5, 6, 7, 8, 9, 10, 11]

/-- 60_exceptions.md R221, last paragraph: the commands that can never fault, and register accesses other than to CMD. -/
def Obligations.SomeCommandsNeverFault : Prop :=
  (∀ (i : Instr) (s t : State), i ∈ [Instr.nop, .init, .build, .hdrWr, .flush] → s.fault = 0 →
    exec i s = .next t → t.fault = 0) ∧
  (∀ (s t : State) (a : RegAddr) (v : Word) (ms : List HostMove), s.fault = 0 →
    (s.moves = .memRead a :: ms ∨ (s.moves = .memWrite a v :: ms ∧ a ≠ 0x001)) → step s = .next t → t.fault = 0)

/-! ### Container and control -/

/-- 44_container_and_control.md R203. -/
def Obligations.NopChangesNothing : Prop :=
  ∀ s : State, (s.fault = 0 → exec .nop s = .next { s with busy := false }) ∧ (s.fault ≠ 0 → exec .nop s = .next s)

/-- 44_container_and_control.md R204: INIT, also while faulted. -/
def Obligations.InitBeginsANewInvocation : Prop :=
  (∀ s : State, ∃ t, exec .init s = .next t ∧
    t = { s with
      freq := Vector.replicate 256 0, treeValid := false, nnodes := 0, root := 0, code := t.code,
      pq := [], seq := 0, stack := [], cur := 0, oacc := 0, ocnt := 0, iacc := 0, icnt := 0,
      fault := 0, finfo := 0, busy := false } ∧
    ∀ (y : Nat) (h : y < 257), t.code[y].present = false) ∧
  exec .init State.reset = .next State.reset

/-- 44_container_and_control.md R202, 20_memory.md R71. -/
def Obligations.FlushEmitsThePartialByte : Prop :=
  ∀ s : State, s.fault = 0 →
    (s.ocnt = 0 → exec .flush s = .next { s with busy := false }) ∧
    (s.ocnt ≠ 0 → exec .flush s = .next { s with out := s.out ++ [s.oacc], oacc := 0, ocnt := 0, busy := false }) ∧
    (s.PackerInv → ∃ t, exec .flush s = .next t ∧ t.ocnt = 0 ∧ t.oacc = 0 ∧
      byteBits t.out = s.outBits ++ List.replicate ((8 - s.ocnt.toNat) % 8) false)

/-- 44_container_and_control.md R200. -/
def Obligations.HdrWrWritesTheHeader : Prop :=
  ∀ s : State, s.fault = 0 → s.PackerInv →
    ∃ t, exec .hdrWr s = .next t ∧ t.outBits = s.outBits ++ msb (1846 : Word) ∧ t.PackerInv ∧
      t = { s with oacc := t.oacc, out := t.out, busy := false } ∧
      (s.ocnt = 0 → t.out = s.out ++ [0x00, 0x00, 0x07, 0x36])

/-- 44_container_and_control.md R201: the header is accepted, another value is refused with the value in `FINFO`, and an
input of fewer than 32 bits is refused with `FINFO` = 0. -/
def Obligations.HdrRdChecksTheHeader : Prop :=
  ∀ s : State, s.fault = 0 →
    (∀ rest, s.inBits = msb (1846 : Word) ++ rest →
      ∃ t, exec .hdrRd s = .next t ∧ t.inBits = rest ∧
        t = { s with iacc := t.iacc, inp := t.inp, busy := false }) ∧
    (∀ (v : Word) rest, v ≠ 1846 → s.inBits = msb v ++ rest →
      ∃ t, exec .hdrRd s = .next t ∧ t.inBits = rest ∧
        t = { s with
          iacc := t.iacc, inp := t.inp, fault := 1, finfo := v, stack := [], pq := [], busy := false }) ∧
    (s.inBits.length < 32 →
      ∃ t, exec .hdrRd s = .next t ∧
        t = { s with
          iacc := t.iacc, icnt := 0, inp := [], fault := 1, finfo := 0, stack := [], pq := [], busy := false })

/-! ### Tree Builder -/

/-- 40_tree_builder.md R132: HIST with no counter passing its top. -/
def Obligations.HistCountsTheBytes : Prop :=
  ∀ s : State, s.fault = 0 → s.icnt = 0 → (∀ b, s.counts b + s.inp.count b ≤ 2 ^ 32 - 1) →
    ∃ t, exec .hist s = .next t ∧ t = { s with freq := t.freq, inp := [], busy := false } ∧
      ∀ b, t.counts b = s.counts b + s.inp.count b

/-- 40_tree_builder.md R132, R138: the first increment that would pass 2^32 - 1 is not performed; its byte is consumed,
the bytes before it are counted, the bytes after it stay. -/
def Obligations.HistStopsAtAFullCounter : Prop :=
  ∀ (s : State) (pre post : List Byte) (b : Byte), s.fault = 0 → s.icnt = 0 → s.inp = pre ++ b :: post →
    (∀ c, s.counts c + pre.count c ≤ 2 ^ 32 - 1) → s.counts b + pre.count b = 2 ^ 32 - 1 →
    ∃ t, exec .hist s = .next t ∧
      t = { s with
        freq := t.freq, inp := post, fault := 9, finfo := b.setWidth 32, stack := [], pq := [], busy := false } ∧
      ∀ c, t.counts c = s.counts c + pre.count c

/-- 20_memory.md R73: HIST and ENC refuse a half-consumed byte and consume nothing. -/
def Obligations.RawBytesNeedAlignment : Prop :=
  ∀ s : State, s.fault = 0 → s.icnt ≠ 0 →
    exec .hist s = .next { s with fault := 11, finfo := 0, stack := [], pq := [], busy := false } ∧
    (s.treeValid = true →
      exec .enc s = .next { s with fault := 11, finfo := 0, stack := [], pq := [], busy := false })

/-- 41_tree_codec.md R152, 42_symbol_encoder.md R172, 43_symbol_decoder.md R185: without a tree nothing is read or
written. -/
def Obligations.CommandsNeedATree : Prop :=
  ∀ (s : State) (i : Instr), i ∈ [Instr.treeWr, .enc, .dec] → s.fault = 0 → s.treeValid = false →
    exec i s = .next { s with fault := 7, finfo := 0, stack := [], pq := [], busy := false }

/-- 40_tree_builder.md R133, R130, R139: BUILD completes in every unfaulted state, and the tree in node memory is
`build(FREQ)`, with weights as unbounded naturals: the 40-bit sums are exact. -/
def Obligations.BuildMakesTheTreeOfTheTable : Prop :=
  ∀ s : State, s.fault = 0 →
    ∃ t u, exec .build s = .next t ∧ buildTree s.counts = some u ∧ t.tree = some u ∧
      t = { s with
        node := t.node, nnodes := t.nnodes, root := t.root, treeValid := true, code := t.code, pq := [], seq := t.seq,
        stack := [], busy := false }

/-- 40_tree_builder.md R141: where BUILD puts the nodes. -/
def Obligations.BuildAllocatesLeavesThenMerges : Prop :=
  ∀ (s t : State) (leaves : List Byte) (L : Nat), s.fault = 0 → exec .build s = .next t →
    leaves = presentBytes s.counts → L = leaves.length + 1 →
    L ≤ 257 ∧ t.nnodes.toNat = 2 * L - 1 ∧ t.root.toNat = 2 * L - 2 ∧
    (∀ (k : Nat) (h : k < leaves.length), t.node[k]? = some (leafWord (byteSym leaves[k]))) ∧
    t.node[leaves.length]? = some (leafWord 256) ∧
    (∀ k, L ≤ k → k < 2 * L - 1 →
      ∃ l r : Idx, t.node[k]? = some (internalWord l r) ∧ l.toNat < k ∧ r.toNat < k) ∧
    (∀ k, 2 * L - 1 ≤ k → t.node[k]? = s.node[k]?)

/-- 40_tree_builder.md R142 items 1 and 2: the empty table, and one symbol. -/
def Obligations.BuildOnFewSymbols : Prop :=
  ∀ s t : State, s.fault = 0 → exec .build s = .next t →
    ((∀ b, s.counts b = 0) → t.tree = some (.leaf 256)) ∧
    (∀ b, (∀ c, c ≠ b → s.counts c = 0) →
      (s.counts b = 1 → t.tree = some (.internal (.leaf (byteSym b)) (.leaf 256))) ∧
      (2 ≤ s.counts b → t.tree = some (.internal (.leaf 256) (.leaf (byteSym b)))))

/-- 40_tree_builder.md R143, 10_state.md R24, R26: after BUILD the tree invariant and the code table invariant hold,
whatever the state before. -/
def Obligations.BuildEstablishesTheTree : Prop :=
  ∀ s t : State, s.fault = 0 → exec .build s = .next t → t.treeValid = true ∧ t.TreeInv ∧ t.CodeInv

/-- 40_tree_builder.md R130, R137, R143: `build` is total, its leaves are the symbols that occur and EOS, each once, and
its weight is 1 plus the sum of the counts. -/
def Obligations.BuiltTreeHasTheSymbols : Prop :=
  ∀ f : Byte → Nat, ∃ t, buildTree f = some t ∧ t.wellFormed = true ∧
    t.symbols.Perm ((presentBytes f).map byteSym ++ [256]) ∧
    t.weight (symbolWeight f) = 1 + (allBytes.map f).sum

/-- 40_tree_builder.md R143: no tree with the same leaves costs less. -/
def Obligations.BuiltTreeIsOptimal : Prop :=
  ∀ (f : Byte → Nat) (t u : CodeTree), buildTree f = some t → u.symbols.Perm t.symbols →
    t.cost (symbolWeight f) ≤ u.cost (symbolWeight f)

/-! ### Tree Codec -/

/-- 41_tree_codec.md R152: TREE_WR appends `ser(tree(ROOT))` and writes nothing but the output side. -/
def Obligations.TreeWrWritesTheSerialization : Prop :=
  ∀ (s : State) (t : CodeTree), s.fault = 0 → s.treeValid = true → s.tree = some t → s.PackerInv →
    ∃ u, exec .treeWr s = .next u ∧ u.outBits = s.outBits ++ t.ser ∧ u.PackerInv ∧
      u = { s with oacc := u.oacc, ocnt := u.ocnt, out := u.out, stack := [], busy := false }

/-- 30_encoding.md R113. -/
def Obligations.SerializationLength : Prop :=
  ∀ t : CodeTree, t.ser.length + 1 = 11 * t.symbols.length ∧ t.internalCount + 1 = t.symbols.length

/-- 30_encoding.md R112: `des` undoes `ser` and leaves the rest; on bits that end before the tree is complete it is
undefined. -/
def Obligations.DesInvertsSer : Prop :=
  (∀ (t : CodeTree) (x : Bits), CodeTree.des (t.ser ++ x) = some (t, x)) ∧
  (∀ (t : CodeTree) (p q : Bits), t.ser = p ++ q → q ≠ [] → CodeTree.des p = none)

/-- 41_tree_codec.md R154, R150, R156: TREE_RD of the serialization of a tree it accepts gives that tree and consumes
exactly its bits. -/
def Obligations.TreeRdReadsTheTree : Prop :=
  ∀ (s : State) (t : CodeTree) (rest : Bits), s.fault = 0 → t.readFault = none → s.inBits = t.ser ++ rest →
    ∃ u, exec .treeRd s = .next u ∧ u.tree = some t ∧ u.inBits = rest ∧ u.nnodes.toNat = 2 * t.symbols.length - 1 ∧
      u = { s with
        node := u.node, nnodes := u.nnodes, root := 0, treeValid := true, code := u.code,
        iacc := u.iacc, icnt := u.icnt, inp := u.inp, stack := [], busy := false }

/-- 41_tree_codec.md R154, R155, 60_exceptions.md R230 item 3: the first check that fails, in stream order, gives the fault
as soon as its tag or field has been read, whatever follows. `t` is any tree whose bits begin that way: `bitsRead` ends
with the failing tag or field, so the input need not hold the rest of `t`. No tree is there afterwards, and exactly
`bitsRead` is consumed. -/
def Obligations.TreeRdReportsTheFirstFault : Prop :=
  ∀ (s : State) (t : CodeTree) (rest : Bits) (f : FaultCode) (info : Word),
    s.fault = 0 → t.readFault = some (f, info) → s.inBits = t.bitsRead ++ rest →
    ∃ u, exec .treeRd s = .next u ∧ u.inBits = rest ∧
      u = { s with
        node := u.node, nnodes := 0, root := 0, treeValid := false, code := u.code,
        iacc := u.iacc, icnt := u.icnt, inp := u.inp,
        fault := faultNumber f, finfo := info, stack := [], pq := [], busy := false } ∧
      ∀ (y : Nat) (h : y < 257), u.code[y].present = false

/-- 41_tree_codec.md R155, first row: an input that ends before any check has failed and before the tree is complete. `t`
is any tree, good or bad, whose bits begin with the input and have their first failed check, if any, after its end. -/
def Obligations.TreeRdNeedsTheWholeTree : Prop :=
  ∀ (s : State) (t : CodeTree) (q : Bits), s.fault = 0 → t.bitsRead = s.inBits ++ q → q ≠ [] →
    ∃ u, exec .treeRd s = .next u ∧
      u = { s with
        node := u.node, nnodes := 0, root := 0, treeValid := false, code := u.code,
        iacc := u.iacc, icnt := 0, inp := [], fault := 2, finfo := 0, stack := [], pq := [], busy := false } ∧
      ∀ (y : Nat) (h : y < 257), u.code[y].present = false

/-- 41_tree_codec.md R155, 10_state.md R24: TREE_RD's checks accept exactly the trees of the invariant. -/
def Obligations.AcceptedTreesAreTheWellFormedOnes : Prop :=
  ∀ t : CodeTree, t.readFault = none ↔ t.wellFormed = true

/-- 41_tree_codec.md R156: a tree read by TREE_RD lies in node memory in preorder. -/
def Obligations.TreeRdLaysOutInPreorder : Prop :=
  ∀ s u : State, s.fault = 0 → exec .treeRd s = .next u → u.fault = 0 →
    u.root = 0 ∧ indicesFrom Config.nodeN u u.root = some (List.range u.nnodes.toNat)

/-- 41_tree_codec.md R155, 10_state.md R24, R26: after a successful TREE_RD the tree invariant and the code table
invariant hold, whatever the state before. -/
def Obligations.TreeRdEstablishesTheTree : Prop :=
  ∀ s t : State, s.fault = 0 → exec .treeRd s = .next t → t.fault = 0 → t.treeValid = true ∧ t.TreeInv ∧ t.CodeInv

/-- 41_tree_codec.md R150, R158 law 1: what TREE_WR writes on one engine, TREE_RD reads back on another as the same
tree. -/
def Obligations.TreeRoundTrip : Prop :=
  ∀ (s w r : State) (rest : Bits), s.fault = 0 → s.treeValid = true → s.TreeInv → s.PackerInv →
    exec .treeWr s = .next w → r.fault = 0 → r.inBits = w.outBits.drop s.outBits.length ++ rest →
    ∃ u, exec .treeRd r = .next u ∧ u.fault = 0 ∧ u.treeValid = true ∧ u.tree = s.tree ∧ u.inBits = rest

/-- 41_tree_codec.md R158 law 2: TREE_WR after TREE_RD writes exactly the bits that were read. -/
def Obligations.TreeWrRepeatsWhatTreeRdRead : Prop :=
  ∀ s u : State, s.fault = 0 → s.PackerInv → exec .treeRd s = .next u → u.fault = 0 →
    ∃ v used, exec .treeWr u = .next v ∧ s.inBits = used ++ u.inBits ∧ v.outBits = s.outBits ++ used

/-! ### Symbol Encoder -/

/-- 42_symbol_encoder.md R172: ENC appends the codes of the bytes of `IN` and the EOS code. -/
def Obligations.EncWritesTheCodes : Prop :=
  ∀ (s : State) (t : CodeTree) (x : Bits), s.fault = 0 → s.treeValid = true → s.icnt = 0 → s.tree = some t →
    s.CodeInv → s.PackerInv → t.encodeBytes s.inp = some x →
    ∃ u, exec .enc s = .next u ∧ u.outBits = s.outBits ++ x ∧ u.PackerInv ∧
      u = { s with oacc := u.oacc, ocnt := u.ocnt, out := u.out, inp := [], busy := false }

/-- 42_symbol_encoder.md R173 item 2: a byte without a Leaf. What is written before the fault is the engine's rule, not a
promise to software (60_exceptions.md R242). -/
def Obligations.EncStopsAtAnUnknownByte : Prop :=
  ∀ (s : State) (t : CodeTree) (pre post : List Byte) (b : Byte) (x : Bits),
    s.fault = 0 → s.treeValid = true → s.icnt = 0 → s.tree = some t → s.CodeInv → s.PackerInv →
    s.inp = pre ++ b :: post → t.codesOf pre = some x → t.path (byteSym b) = none →
    ∃ u, exec .enc s = .next u ∧ u.outBits = s.outBits ++ x ∧
      u = { s with
        oacc := u.oacc, ocnt := u.ocnt, out := u.out, inp := post, fault := 8, finfo := b.setWidth 32, stack := [],
        pq := [], busy := false }

/-- 30_encoding.md R115: no code begins another. -/
def Obligations.NoCodeBeginsAnother : Prop :=
  ∀ (t : CodeTree) (a b : Sym) (p q : Bits), t.path a = some p → t.path b = some q → a ≠ b → ¬ p <+: q

/-! ### Symbol Decoder -/

/-- 43_symbol_decoder.md R185, R187, R189: DEC computes `decode`: at EOS it stops with the rest of the input unread, and
on an exhausted input it raises MalformedStream with the bytes so far written, which is the engine's rule, not a promise to
software (60_exceptions.md R242). -/
def Obligations.DecComputesDecode : Prop :=
  ∀ (s : State) (t : CodeTree) (bytes : List Byte), s.fault = 0 → s.treeValid = true → s.tree = some t →
    t.wellFormed = true → s.PackerInv →
    (∀ rest, t.decode s.inBits = some (bytes, some rest) →
      ∃ u, exec .dec s = .next u ∧ u.outBits = s.outBits ++ byteBits bytes ∧ u.inBits = rest ∧
        u = { s with
          cur := u.cur, iacc := u.iacc, icnt := u.icnt, inp := u.inp, oacc := u.oacc, out := u.out, busy := false }) ∧
    (t.decode s.inBits = some (bytes, none) →
      ∃ u, exec .dec s = .next u ∧ u.outBits = s.outBits ++ byteBits bytes ∧
        u = { s with
          cur := u.cur, iacc := u.iacc, icnt := 0, inp := [], oacc := u.oacc, out := u.out,
          fault := 2, finfo := 0, stack := [], pq := [], busy := false })

/-- 43_symbol_decoder.md R187: decoding an encoded byte sequence gives it back and leaves what follows, of any value. -/
def Obligations.DecodeInvertsEncode : Prop :=
  ∀ (t : CodeTree) (bytes : List Byte) (x z : Bits), t.wellFormed = true → t.encodeBytes bytes = some x →
    t.decode (x ++ z) = some (bytes, some z)

/-- 43_symbol_decoder.md R188: decoding with a tree of the invariant always ends, at EOS or on an exhausted input. -/
def Obligations.DecodingAlwaysEnds : Prop :=
  ∀ (t : CodeTree) (x : Bits), t.wellFormed = true → ∃ d, t.decode x = some d

/-! ### Registers and the host -/

/-- 10_state.md R40 to R45: the single registers. -/
def Obligations.RegisterReads : Prop :=
  ∀ s : State,
    readReg 0x000 s = 0x00000736 ∧ readReg 0x001 s = 0 ∧
    (readReg 0x002 s).toNat =
      s.busy.toNat + 2 * s.treeValid.toNat + 4 * (decide (s.fault ≠ 0)).toNat + 16 * s.ocnt.toNat + 256 * s.icnt.toNat ∧
    (readReg 0x003 s).toNat = s.fault.toNat ∧ readReg 0x004 s = s.finfo ∧
    (readReg 0x005 s).toNat = s.root.toNat + 65536 * s.nnodes.toNat

/-- 10_state.md R46 to R49: the three windows, and 0 at the reserved addresses. -/
def Obligations.WindowReads : Prop :=
  ∀ (s : State) (a : RegAddr),
    (∀ b : Byte, a.toNat = 0x100 + b.toNat → readReg a s = s.freqAt b) ∧
    (∀ (y : Nat) (h : y < 257), a.toNat = 0x200 + y →
      (s.code[y].present = true → (readReg a s).toNat = 2 ^ 31 + s.code[y].len.toNat) ∧
      (s.code[y].present = false → readReg a s = 0)) ∧
    (∀ (i : Nat) (h : i < 513), a.toNat = 0x400 + i →
      readReg a s = if i < s.nnodes.toNat then s.node[i] else 0) ∧
    ((0x006 ≤ a.toNat ∧ a.toNat ≤ 0x0FF) ∨ (0x301 ≤ a.toNat ∧ a.toNat ≤ 0x3FF) ∨ 0x601 ≤ a.toNat → readReg a s = 0)

/-- 20_memory.md R62: a read returns the register's value to the host and changes no element of the engine's state (the
host's record of replies is the model's own, log entry 2). -/
def Obligations.ReadsHaveNoEffect : Prop :=
  ∀ (s : State) (a : RegAddr) (ms : List HostMove), s.moves = .memRead a :: ms → s.busy = false →
    step s = .next { s with moves := ms, replies := s.replies ++ [readReg a s] }

/-- 20_memory.md R63, 10_state.md R46, R49: a FREQ window write stores, and reads back; any other write but to CMD is
ignored. -/
def Obligations.RegisterWrites : Prop :=
  ∀ (s : State) (a : RegAddr) (v : Word) (ms : List HostMove), s.moves = .memWrite a v :: ms → s.busy = false →
    (∀ b : Byte, a.toNat = 0x100 + b.toNat →
      ∃ t, step s = .next t ∧ t = { s with moves := ms, freq := t.freq } ∧ readReg a t = v ∧
        ∀ c, c ≠ b → t.freqAt c = s.freqAt c) ∧
    (a ≠ 0x001 → ¬ (0x100 ≤ a.toNat ∧ a.toNat ≤ 0x1FF) → step s = .next { s with moves := ms })

/-- 20_memory.md R81, R82; 60_exceptions.md R241: supplying, discarding and taking bytes on an idle engine, and a step
with no host move (log entries 1 and 3 for `moves` and `taken`). -/
def Obligations.StreamMoves : Prop :=
  ∀ (s : State) (ms : List HostMove),
    (∀ bs, s.moves = .supply bs :: ms → step s = .next { s with moves := ms, inp := s.inp ++ bs }) ∧
    (s.moves = .discard :: ms → s.busy = false → step s = .next { s with moves := ms, inp := [] }) ∧
    (s.moves = .takeByte :: ms →
      step s = .next { s with moves := ms, taken := if s.taken < s.out.length then s.taken + 1 else s.taken }) ∧
    (s.moves = [] → step s = .next s)

/-- 70_reset_and_hazards.md R250, R251: the RESET move, in any state: the reset values everywhere but in `IN` and `OUT`;
`NODE` is not cleared. -/
def Obligations.ResetMoveClearsTheEngine : Prop :=
  ∀ (s : State) (ms : List HostMove), s.moves = .reset :: ms →
    ∃ t, step s = .next t ∧
      t = { s with
        moves := ms,
        freq := State.reset.freq, nnodes := State.reset.nnodes, root := State.reset.root,
        treeValid := State.reset.treeValid, code := t.code, pq := State.reset.pq, seq := State.reset.seq,
        stack := State.reset.stack, cur := State.reset.cur, oacc := State.reset.oacc, ocnt := State.reset.ocnt,
        iacc := State.reset.iacc, icnt := State.reset.icnt, fault := State.reset.fault, finfo := State.reset.finfo,
        busy := State.reset.busy } ∧
      (∀ (y : Nat) (h : y < 257), t.code[y].present = false) ∧
      exec .init { s with moves := ms } = .next t

/-- 10_state.md R50: the values the spec gives at power-on, and the windows that read 0. -/
def Obligations.ResetValues : Prop :=
  (∀ b, State.reset.freqAt b = 0) ∧ State.reset.nnodes = 0 ∧ State.reset.root = 0 ∧ State.reset.treeValid = false ∧
  (∀ (y : Nat) (h : y < 257), State.reset.code[y].present = false) ∧ State.reset.pq = [] ∧ State.reset.seq = 0 ∧
  State.reset.stack = [] ∧ State.reset.cur = 0 ∧ State.reset.oacc = 0 ∧ State.reset.ocnt = 0 ∧
  State.reset.iacc = 0 ∧ State.reset.icnt = 0 ∧ State.reset.inp = [] ∧ State.reset.out = [] ∧
  State.reset.fault = 0 ∧ State.reset.finfo = 0 ∧ State.reset.busy = false ∧
  ∀ a : RegAddr, a ≠ 0x000 → readReg a State.reset = 0

/-- 20_memory.md R78: while `BUSY` = 1 STATUS still reads as it is, a CMD write is discarded, any other read returns some
value and changes nothing in the engine, a FREQ write affects that one counter only; no value is stated for the open
ones (log entry 6). -/
def Obligations.HostAccessWhileBusy : Prop :=
  ∀ (s : State) (ms : List HostMove), s.busy = true →
    (s.moves = .memRead 0x002 :: ms →
      step s = .next { s with moves := ms, replies := s.replies ++ [readReg 0x002 s] }) ∧
    (∀ a, s.moves = .memRead a :: ms → ∃ t v, step s = .next t ∧
      t = { s with moves := ms, replies := s.replies ++ [v], draws := t.draws }) ∧
    (∀ v, s.moves = .memWrite 0x001 v :: ms → step s = .next { s with moves := ms }) ∧
    (∀ (b : Byte) v, s.moves = .memWrite (BitVec.ofNat 12 (0x100 + b.toNat)) v :: ms → ∃ t, step s = .next t ∧
      t = { s with moves := ms, freq := t.freq, draws := t.draws } ∧ ∀ c, c ≠ b → t.freqAt c = s.freqAt c)

/-! ### Rules of the whole machine -/

/-- 10_state.md R34: nothing ever removes or changes an emitted byte. -/
def Obligations.OutOnlyGrows : Prop :=
  ∀ s t : State, step s = .next t → ∃ more, t.out = s.out ++ more

/-- 10_state.md R33: a command only removes bytes from the front of `IN`, and only the host's Supply and Discard do
anything else to it. -/
def Obligations.InputIsConsumedFromTheFront : Prop :=
  (∀ (i : Instr) (s t : State), exec i s = .next t → ∃ used, s.inp = used ++ t.inp) ∧
  (∀ s t : State, step s = .next t →
    (∃ used, s.inp = used ++ t.inp) ∨ (∃ bs, s.moves.head? = some (.supply bs) ∧ t.inp = s.inp ++ bs))

/-- 10_state.md R23, R26, 20_memory.md R80: only BUILD, TREE_RD, INIT and reset write the tree, its validity or the code
table; HIST and FREQ window writes never do. -/
def Obligations.TheTreeIsImmutable : Prop :=
  (∀ (i : Instr) (s t : State), i ≠ .build → i ≠ .treeRd → i ≠ .init → exec i s = .next t →
    t.node = s.node ∧ t.nnodes = s.nnodes ∧ t.root = s.root ∧ t.treeValid = s.treeValid ∧ t.code = s.code) ∧
  (∀ s t : State, step s = .next t → s.moves.head? ≠ some .reset →
    (∀ v, s.moves.head? = some (.memWrite 0x001 v) → v ≠ 0x00000001 ∧ v ≠ 0x00000003 ∧ v ≠ 0x00000009) →
    t.node = s.node ∧ t.nnodes = s.nnodes ∧ t.root = s.root ∧ t.treeValid = s.treeValid ∧ t.code = s.code)

/-- 10_state.md R21: only HIST, FREQ window writes, INIT and reset write `FREQ`: every other command, every other CMD word,
legal or not, and every other register write leaves it. -/
def Obligations.FreqHasFewWriters : Prop :=
  (∀ (i : Instr) (s t : State), i ≠ .hist → i ≠ .init → exec i s = .next t → t.freq = s.freq) ∧
  (∀ s t : State, step s = .next t → s.moves.head? ≠ some .reset →
    (∀ a v, s.moves.head? = some (.memWrite a v) →
      ¬ (0x100 ≤ a.toNat ∧ a.toNat ≤ 0x1FF) ∧ (a = 0x001 → v ≠ 0x00000001 ∧ v ≠ 0x00000002)) →
    t.freq = s.freq)

/-- 10_state.md R27, R29, R31, R35, R36: every step keeps the packer's form, the idle form, a legal fault code, and the
host's count of taken bytes within `OUT`. -/
def Obligations.StepKeepsPackerAndIdle : Prop :=
  ∀ s t : State, s.PackerInv → s.IdleInv → s.FaultInv → s.TakenInv → step s = .next t →
    t.PackerInv ∧ t.IdleInv ∧ t.FaultInv ∧ t.TakenInv

/-- 10_state.md R24, R26: every step keeps the tree invariant and the code table invariant. -/
def Obligations.StepKeepsTreeAndCodes : Prop :=
  ∀ s t : State, s.TreeInv → s.CodeInv → step s = .next t → t.TreeInv ∧ t.CodeInv

/-- 10_state.md R50: the invariant holds at reset. -/
def Obligations.ResetMeetsTheInvariant : Prop := State.reset.Inv

/-- 70_reset_and_hazards.md R263, 43_symbol_decoder.md R188: from a state of the invariant every host move, and with it
every command, ends in a next state: the model's own stops are unreachable. -/
def Obligations.NoStepStops : Prop := ∀ s : State, s.Inv → ∃ t, step s = .next t

/-- 10_state.md R24 item 6: the sizes that follow from the tree invariant. -/
def Obligations.TreeInvariantBounds : Prop :=
  ∀ s : State, s.TreeInv → s.treeValid = true →
    ∃ t, s.tree = some t ∧ 1 ≤ t.symbols.length ∧ t.symbols.length ≤ 257 ∧
      t.internalCount = t.symbols.length - 1 ∧ s.nnodes.toNat = 2 * t.symbols.length - 1 ∧ s.nnodes.toNat ≤ 513 ∧
      t.depth ≤ t.symbols.length - 1 ∧ t.depth ≤ 256

/-- 10_state.md R25: two states that differ in their node words, table and counts but hold the same tree give identical
results for TREE_WR, ENC, DEC and the CODELEN window. -/
def Obligations.EqualTreesGiveEqualResults : Prop :=
  ∀ (s r : State), s.Inv → r.Inv → s.treeValid = true → s.tree = r.tree →
    r = { s with node := r.node, nnodes := r.nnodes, root := r.root, code := r.code, freq := r.freq, cur := r.cur } →
    (∀ i ∈ [Instr.treeWr, .enc, .dec], ∃ t u, exec i s = .next t ∧ exec i r = .next u ∧
      u = { t with node := u.node, nnodes := u.nnodes, root := u.root, code := u.code, freq := u.freq, cur := u.cur }) ∧
    (∀ a : RegAddr, 0x200 ≤ a.toNat → a.toNat ≤ 0x300 → readReg a r = readReg a s)

/-- 44_container_and_control.md R205: ENCODE_FILE appends the container of its bytes. -/
def Obligations.EncodeFileWritesTheContainer : Prop :=
  ∀ (s : State) (bytes : List Byte), s.busy = false → s.inp = [] → (∀ b, bytes.count b < 2 ^ 32) →
    ∃ g u, container bytes = some g ∧ runScript (encodeFile bytes) s = .next u ∧ u.endedWell = true ∧
      u.out = s.out ++ g ∧ u.inp = [] ∧ u.ocnt = 0

/-- 44_container_and_control.md R207: DECODE_FILE of what ENCODE_FILE wrote, followed by any bytes, gives the bytes
back. -/
def Obligations.FileRoundTrip : Prop :=
  ∀ (s r : State) (bytes more : List Byte), s.busy = false → s.inp = [] → r.busy = false → r.inp = [] →
    (∀ b, bytes.count b < 2 ^ 32) →
    ∃ g u v, runScript (encodeFile bytes) s = .next u ∧ u.endedWell = true ∧ u.out = s.out ++ g ∧
      runScript (decodeFile (g ++ more)) r = .next v ∧ v.endedWell = true ∧ v.out = r.out ++ bytes
end

