-- ==== Sys2Proof/Laws/State.lean ====
section
/-! SUPPORT. One lemma for each field and each named update of the state, so that later proofs do not unfold a record
update. -/

namespace Sys2Proof.Machine

variable (s : State)

/-! ### setFreq -/

@[simp] theorem setFreq_freq (b : Byte) (v : Word) : (s.setFreq b v).freq = s.freq.set b.toNat v b.isLt := rfl
@[simp] theorem setFreq_node (b : Byte) (v : Word) : (s.setFreq b v).node = s.node := rfl
@[simp] theorem setFreq_nnodes (b : Byte) (v : Word) : (s.setFreq b v).nnodes = s.nnodes := rfl
@[simp] theorem setFreq_root (b : Byte) (v : Word) : (s.setFreq b v).root = s.root := rfl
@[simp] theorem setFreq_treeValid (b : Byte) (v : Word) : (s.setFreq b v).treeValid = s.treeValid := rfl
@[simp] theorem setFreq_code (b : Byte) (v : Word) : (s.setFreq b v).code = s.code := rfl
@[simp] theorem setFreq_pq (b : Byte) (v : Word) : (s.setFreq b v).pq = s.pq := rfl
@[simp] theorem setFreq_seq (b : Byte) (v : Word) : (s.setFreq b v).seq = s.seq := rfl
@[simp] theorem setFreq_stack (b : Byte) (v : Word) : (s.setFreq b v).stack = s.stack := rfl
@[simp] theorem setFreq_cur (b : Byte) (v : Word) : (s.setFreq b v).cur = s.cur := rfl
@[simp] theorem setFreq_oacc (b : Byte) (v : Word) : (s.setFreq b v).oacc = s.oacc := rfl
@[simp] theorem setFreq_ocnt (b : Byte) (v : Word) : (s.setFreq b v).ocnt = s.ocnt := rfl
@[simp] theorem setFreq_iacc (b : Byte) (v : Word) : (s.setFreq b v).iacc = s.iacc := rfl
@[simp] theorem setFreq_icnt (b : Byte) (v : Word) : (s.setFreq b v).icnt = s.icnt := rfl
@[simp] theorem setFreq_inp (b : Byte) (v : Word) : (s.setFreq b v).inp = s.inp := rfl
@[simp] theorem setFreq_out (b : Byte) (v : Word) : (s.setFreq b v).out = s.out := rfl
@[simp] theorem setFreq_fault (b : Byte) (v : Word) : (s.setFreq b v).fault = s.fault := rfl
@[simp] theorem setFreq_finfo (b : Byte) (v : Word) : (s.setFreq b v).finfo = s.finfo := rfl
@[simp] theorem setFreq_busy (b : Byte) (v : Word) : (s.setFreq b v).busy = s.busy := rfl
@[simp] theorem setFreq_moves (b : Byte) (v : Word) : (s.setFreq b v).moves = s.moves := rfl
@[simp] theorem setFreq_replies (b : Byte) (v : Word) : (s.setFreq b v).replies = s.replies := rfl
@[simp] theorem setFreq_taken (b : Byte) (v : Word) : (s.setFreq b v).taken = s.taken := rfl
@[simp] theorem setFreq_draws (b : Byte) (v : Word) : (s.setFreq b v).draws = s.draws := rfl

/-! ### setNode -/

@[simp] theorem setNode_freq (i : Idx) (w : Word) : (s.setNode i w).freq = s.freq := rfl
@[simp] theorem setNode_node (i : Idx) (w : Word) : (s.setNode i w).node = s.node.setIfInBounds i.toNat w := rfl
@[simp] theorem setNode_nnodes (i : Idx) (w : Word) : (s.setNode i w).nnodes = s.nnodes := rfl
@[simp] theorem setNode_root (i : Idx) (w : Word) : (s.setNode i w).root = s.root := rfl
@[simp] theorem setNode_treeValid (i : Idx) (w : Word) : (s.setNode i w).treeValid = s.treeValid := rfl
@[simp] theorem setNode_code (i : Idx) (w : Word) : (s.setNode i w).code = s.code := rfl
@[simp] theorem setNode_pq (i : Idx) (w : Word) : (s.setNode i w).pq = s.pq := rfl
@[simp] theorem setNode_seq (i : Idx) (w : Word) : (s.setNode i w).seq = s.seq := rfl
@[simp] theorem setNode_stack (i : Idx) (w : Word) : (s.setNode i w).stack = s.stack := rfl
@[simp] theorem setNode_cur (i : Idx) (w : Word) : (s.setNode i w).cur = s.cur := rfl
@[simp] theorem setNode_oacc (i : Idx) (w : Word) : (s.setNode i w).oacc = s.oacc := rfl
@[simp] theorem setNode_ocnt (i : Idx) (w : Word) : (s.setNode i w).ocnt = s.ocnt := rfl
@[simp] theorem setNode_iacc (i : Idx) (w : Word) : (s.setNode i w).iacc = s.iacc := rfl
@[simp] theorem setNode_icnt (i : Idx) (w : Word) : (s.setNode i w).icnt = s.icnt := rfl
@[simp] theorem setNode_inp (i : Idx) (w : Word) : (s.setNode i w).inp = s.inp := rfl
@[simp] theorem setNode_out (i : Idx) (w : Word) : (s.setNode i w).out = s.out := rfl
@[simp] theorem setNode_fault (i : Idx) (w : Word) : (s.setNode i w).fault = s.fault := rfl
@[simp] theorem setNode_finfo (i : Idx) (w : Word) : (s.setNode i w).finfo = s.finfo := rfl
@[simp] theorem setNode_busy (i : Idx) (w : Word) : (s.setNode i w).busy = s.busy := rfl
@[simp] theorem setNode_moves (i : Idx) (w : Word) : (s.setNode i w).moves = s.moves := rfl
@[simp] theorem setNode_replies (i : Idx) (w : Word) : (s.setNode i w).replies = s.replies := rfl
@[simp] theorem setNode_taken (i : Idx) (w : Word) : (s.setNode i w).taken = s.taken := rfl
@[simp] theorem setNode_draws (i : Idx) (w : Word) : (s.setNode i w).draws = s.draws := rfl

/-! ### setCode -/

@[simp] theorem setCode_freq (y : Sym) (p : Bits) : (s.setCode y p).freq = s.freq := rfl
@[simp] theorem setCode_node (y : Sym) (p : Bits) : (s.setCode y p).node = s.node := rfl
@[simp] theorem setCode_nnodes (y : Sym) (p : Bits) : (s.setCode y p).nnodes = s.nnodes := rfl
@[simp] theorem setCode_root (y : Sym) (p : Bits) : (s.setCode y p).root = s.root := rfl
@[simp] theorem setCode_treeValid (y : Sym) (p : Bits) : (s.setCode y p).treeValid = s.treeValid := rfl
@[simp] theorem setCode_code (y : Sym) (p : Bits) : (s.setCode y p).code = s.code.setIfInBounds y.toNat ⟨true, BitVec.ofNat 9 p.length, p⟩ := rfl
@[simp] theorem setCode_pq (y : Sym) (p : Bits) : (s.setCode y p).pq = s.pq := rfl
@[simp] theorem setCode_seq (y : Sym) (p : Bits) : (s.setCode y p).seq = s.seq := rfl
@[simp] theorem setCode_stack (y : Sym) (p : Bits) : (s.setCode y p).stack = s.stack := rfl
@[simp] theorem setCode_cur (y : Sym) (p : Bits) : (s.setCode y p).cur = s.cur := rfl
@[simp] theorem setCode_oacc (y : Sym) (p : Bits) : (s.setCode y p).oacc = s.oacc := rfl
@[simp] theorem setCode_ocnt (y : Sym) (p : Bits) : (s.setCode y p).ocnt = s.ocnt := rfl
@[simp] theorem setCode_iacc (y : Sym) (p : Bits) : (s.setCode y p).iacc = s.iacc := rfl
@[simp] theorem setCode_icnt (y : Sym) (p : Bits) : (s.setCode y p).icnt = s.icnt := rfl
@[simp] theorem setCode_inp (y : Sym) (p : Bits) : (s.setCode y p).inp = s.inp := rfl
@[simp] theorem setCode_out (y : Sym) (p : Bits) : (s.setCode y p).out = s.out := rfl
@[simp] theorem setCode_fault (y : Sym) (p : Bits) : (s.setCode y p).fault = s.fault := rfl
@[simp] theorem setCode_finfo (y : Sym) (p : Bits) : (s.setCode y p).finfo = s.finfo := rfl
@[simp] theorem setCode_busy (y : Sym) (p : Bits) : (s.setCode y p).busy = s.busy := rfl
@[simp] theorem setCode_moves (y : Sym) (p : Bits) : (s.setCode y p).moves = s.moves := rfl
@[simp] theorem setCode_replies (y : Sym) (p : Bits) : (s.setCode y p).replies = s.replies := rfl
@[simp] theorem setCode_taken (y : Sym) (p : Bits) : (s.setCode y p).taken = s.taken := rfl
@[simp] theorem setCode_draws (y : Sym) (p : Bits) : (s.setCode y p).draws = s.draws := rfl

/-! ### alloc -/

@[simp] theorem alloc_freq (w : Word) : ((alloc w s).2).freq = s.freq := rfl
@[simp] theorem alloc_node (w : Word) : ((alloc w s).2).node = s.node.setIfInBounds s.nnodes.toNat w := rfl
@[simp] theorem alloc_nnodes (w : Word) : ((alloc w s).2).nnodes = s.nnodes + 1 := rfl
@[simp] theorem alloc_root (w : Word) : ((alloc w s).2).root = s.root := rfl
@[simp] theorem alloc_treeValid (w : Word) : ((alloc w s).2).treeValid = s.treeValid := rfl
@[simp] theorem alloc_code (w : Word) : ((alloc w s).2).code = s.code := rfl
@[simp] theorem alloc_pq (w : Word) : ((alloc w s).2).pq = s.pq := rfl
@[simp] theorem alloc_seq (w : Word) : ((alloc w s).2).seq = s.seq := rfl
@[simp] theorem alloc_stack (w : Word) : ((alloc w s).2).stack = s.stack := rfl
@[simp] theorem alloc_cur (w : Word) : ((alloc w s).2).cur = s.cur := rfl
@[simp] theorem alloc_oacc (w : Word) : ((alloc w s).2).oacc = s.oacc := rfl
@[simp] theorem alloc_ocnt (w : Word) : ((alloc w s).2).ocnt = s.ocnt := rfl
@[simp] theorem alloc_iacc (w : Word) : ((alloc w s).2).iacc = s.iacc := rfl
@[simp] theorem alloc_icnt (w : Word) : ((alloc w s).2).icnt = s.icnt := rfl
@[simp] theorem alloc_inp (w : Word) : ((alloc w s).2).inp = s.inp := rfl
@[simp] theorem alloc_out (w : Word) : ((alloc w s).2).out = s.out := rfl
@[simp] theorem alloc_fault (w : Word) : ((alloc w s).2).fault = s.fault := rfl
@[simp] theorem alloc_finfo (w : Word) : ((alloc w s).2).finfo = s.finfo := rfl
@[simp] theorem alloc_busy (w : Word) : ((alloc w s).2).busy = s.busy := rfl
@[simp] theorem alloc_moves (w : Word) : ((alloc w s).2).moves = s.moves := rfl
@[simp] theorem alloc_replies (w : Word) : ((alloc w s).2).replies = s.replies := rfl
@[simp] theorem alloc_taken (w : Word) : ((alloc w s).2).taken = s.taken := rfl
@[simp] theorem alloc_draws (w : Word) : ((alloc w s).2).draws = s.draws := rfl

/-! ### pqInsert -/

@[simp] theorem pqInsert_freq (w : Weight) (i : Idx) : (pqInsert w i s).freq = s.freq := rfl
@[simp] theorem pqInsert_node (w : Weight) (i : Idx) : (pqInsert w i s).node = s.node := rfl
@[simp] theorem pqInsert_nnodes (w : Weight) (i : Idx) : (pqInsert w i s).nnodes = s.nnodes := rfl
@[simp] theorem pqInsert_root (w : Weight) (i : Idx) : (pqInsert w i s).root = s.root := rfl
@[simp] theorem pqInsert_treeValid (w : Weight) (i : Idx) : (pqInsert w i s).treeValid = s.treeValid := rfl
@[simp] theorem pqInsert_code (w : Weight) (i : Idx) : (pqInsert w i s).code = s.code := rfl
@[simp] theorem pqInsert_pq (w : Weight) (i : Idx) : (pqInsert w i s).pq = s.pq ++ [⟨w, s.seq, i⟩] := rfl
@[simp] theorem pqInsert_seq (w : Weight) (i : Idx) : (pqInsert w i s).seq = s.seq + 1 := rfl
@[simp] theorem pqInsert_stack (w : Weight) (i : Idx) : (pqInsert w i s).stack = s.stack := rfl
@[simp] theorem pqInsert_cur (w : Weight) (i : Idx) : (pqInsert w i s).cur = s.cur := rfl
@[simp] theorem pqInsert_oacc (w : Weight) (i : Idx) : (pqInsert w i s).oacc = s.oacc := rfl
@[simp] theorem pqInsert_ocnt (w : Weight) (i : Idx) : (pqInsert w i s).ocnt = s.ocnt := rfl
@[simp] theorem pqInsert_iacc (w : Weight) (i : Idx) : (pqInsert w i s).iacc = s.iacc := rfl
@[simp] theorem pqInsert_icnt (w : Weight) (i : Idx) : (pqInsert w i s).icnt = s.icnt := rfl
@[simp] theorem pqInsert_inp (w : Weight) (i : Idx) : (pqInsert w i s).inp = s.inp := rfl
@[simp] theorem pqInsert_out (w : Weight) (i : Idx) : (pqInsert w i s).out = s.out := rfl
@[simp] theorem pqInsert_fault (w : Weight) (i : Idx) : (pqInsert w i s).fault = s.fault := rfl
@[simp] theorem pqInsert_finfo (w : Weight) (i : Idx) : (pqInsert w i s).finfo = s.finfo := rfl
@[simp] theorem pqInsert_busy (w : Weight) (i : Idx) : (pqInsert w i s).busy = s.busy := rfl
@[simp] theorem pqInsert_moves (w : Weight) (i : Idx) : (pqInsert w i s).moves = s.moves := rfl
@[simp] theorem pqInsert_replies (w : Weight) (i : Idx) : (pqInsert w i s).replies = s.replies := rfl
@[simp] theorem pqInsert_taken (w : Weight) (i : Idx) : (pqInsert w i s).taken = s.taken := rfl
@[simp] theorem pqInsert_draws (w : Weight) (i : Idx) : (pqInsert w i s).draws = s.draws := rfl

/-! ### clearCode -/

@[simp] theorem clearCode_freq : (clearCode s).freq = s.freq := rfl
@[simp] theorem clearCode_node : (clearCode s).node = s.node := rfl
@[simp] theorem clearCode_nnodes : (clearCode s).nnodes = s.nnodes := rfl
@[simp] theorem clearCode_root : (clearCode s).root = s.root := rfl
@[simp] theorem clearCode_treeValid : (clearCode s).treeValid = s.treeValid := rfl
@[simp] theorem clearCode_code : (clearCode s).code = clearPresent s.code := rfl
@[simp] theorem clearCode_pq : (clearCode s).pq = s.pq := rfl
@[simp] theorem clearCode_seq : (clearCode s).seq = s.seq := rfl
@[simp] theorem clearCode_stack : (clearCode s).stack = s.stack := rfl
@[simp] theorem clearCode_cur : (clearCode s).cur = s.cur := rfl
@[simp] theorem clearCode_oacc : (clearCode s).oacc = s.oacc := rfl
@[simp] theorem clearCode_ocnt : (clearCode s).ocnt = s.ocnt := rfl
@[simp] theorem clearCode_iacc : (clearCode s).iacc = s.iacc := rfl
@[simp] theorem clearCode_icnt : (clearCode s).icnt = s.icnt := rfl
@[simp] theorem clearCode_inp : (clearCode s).inp = s.inp := rfl
@[simp] theorem clearCode_out : (clearCode s).out = s.out := rfl
@[simp] theorem clearCode_fault : (clearCode s).fault = s.fault := rfl
@[simp] theorem clearCode_finfo : (clearCode s).finfo = s.finfo := rfl
@[simp] theorem clearCode_busy : (clearCode s).busy = s.busy := rfl
@[simp] theorem clearCode_moves : (clearCode s).moves = s.moves := rfl
@[simp] theorem clearCode_replies : (clearCode s).replies = s.replies := rfl
@[simp] theorem clearCode_taken : (clearCode s).taken = s.taken := rfl
@[simp] theorem clearCode_draws : (clearCode s).draws = s.draws := rfl

/-! ### dropTree -/

@[simp] theorem dropTree_freq : (dropTree s).freq = s.freq := rfl
@[simp] theorem dropTree_node : (dropTree s).node = s.node := rfl
@[simp] theorem dropTree_nnodes : (dropTree s).nnodes = 0 := rfl
@[simp] theorem dropTree_root : (dropTree s).root = 0 := rfl
@[simp] theorem dropTree_treeValid : (dropTree s).treeValid = false := rfl
@[simp] theorem dropTree_code : (dropTree s).code = clearPresent s.code := rfl
@[simp] theorem dropTree_pq : (dropTree s).pq = s.pq := rfl
@[simp] theorem dropTree_seq : (dropTree s).seq = s.seq := rfl
@[simp] theorem dropTree_stack : (dropTree s).stack = s.stack := rfl
@[simp] theorem dropTree_cur : (dropTree s).cur = s.cur := rfl
@[simp] theorem dropTree_oacc : (dropTree s).oacc = s.oacc := rfl
@[simp] theorem dropTree_ocnt : (dropTree s).ocnt = s.ocnt := rfl
@[simp] theorem dropTree_iacc : (dropTree s).iacc = s.iacc := rfl
@[simp] theorem dropTree_icnt : (dropTree s).icnt = s.icnt := rfl
@[simp] theorem dropTree_inp : (dropTree s).inp = s.inp := rfl
@[simp] theorem dropTree_out : (dropTree s).out = s.out := rfl
@[simp] theorem dropTree_fault : (dropTree s).fault = s.fault := rfl
@[simp] theorem dropTree_finfo : (dropTree s).finfo = s.finfo := rfl
@[simp] theorem dropTree_busy : (dropTree s).busy = s.busy := rfl
@[simp] theorem dropTree_moves : (dropTree s).moves = s.moves := rfl
@[simp] theorem dropTree_replies : (dropTree s).replies = s.replies := rfl
@[simp] theorem dropTree_taken : (dropTree s).taken = s.taken := rfl
@[simp] theorem dropTree_draws : (dropTree s).draws = s.draws := rfl

/-! ### clearEngine -/

@[simp] theorem clearEngine_freq : (clearEngine s).freq = Vector.replicate 256 0 := rfl
@[simp] theorem clearEngine_node : (clearEngine s).node = s.node := rfl
@[simp] theorem clearEngine_nnodes : (clearEngine s).nnodes = 0 := rfl
@[simp] theorem clearEngine_root : (clearEngine s).root = 0 := rfl
@[simp] theorem clearEngine_treeValid : (clearEngine s).treeValid = false := rfl
@[simp] theorem clearEngine_code : (clearEngine s).code = clearPresent s.code := rfl
@[simp] theorem clearEngine_pq : (clearEngine s).pq = [] := rfl
@[simp] theorem clearEngine_seq : (clearEngine s).seq = 0 := rfl
@[simp] theorem clearEngine_stack : (clearEngine s).stack = [] := rfl
@[simp] theorem clearEngine_cur : (clearEngine s).cur = 0 := rfl
@[simp] theorem clearEngine_oacc : (clearEngine s).oacc = 0 := rfl
@[simp] theorem clearEngine_ocnt : (clearEngine s).ocnt = 0 := rfl
@[simp] theorem clearEngine_iacc : (clearEngine s).iacc = 0 := rfl
@[simp] theorem clearEngine_icnt : (clearEngine s).icnt = 0 := rfl
@[simp] theorem clearEngine_inp : (clearEngine s).inp = s.inp := rfl
@[simp] theorem clearEngine_out : (clearEngine s).out = s.out := rfl
@[simp] theorem clearEngine_fault : (clearEngine s).fault = 0 := rfl
@[simp] theorem clearEngine_finfo : (clearEngine s).finfo = 0 := rfl
@[simp] theorem clearEngine_busy : (clearEngine s).busy = false := rfl
@[simp] theorem clearEngine_moves : (clearEngine s).moves = s.moves := rfl
@[simp] theorem clearEngine_replies : (clearEngine s).replies = s.replies := rfl
@[simp] theorem clearEngine_taken : (clearEngine s).taken = s.taken := rfl
@[simp] theorem clearEngine_draws : (clearEngine s).draws = s.draws := rfl

/-! ### raise -/

@[simp] theorem raise_freq (f : FaultCode) (info : Word) : (raise f info s).freq = s.freq := rfl
@[simp] theorem raise_node (f : FaultCode) (info : Word) : (raise f info s).node = s.node := rfl
@[simp] theorem raise_nnodes (f : FaultCode) (info : Word) : (raise f info s).nnodes = s.nnodes := rfl
@[simp] theorem raise_root (f : FaultCode) (info : Word) : (raise f info s).root = s.root := rfl
@[simp] theorem raise_treeValid (f : FaultCode) (info : Word) : (raise f info s).treeValid = s.treeValid := rfl
@[simp] theorem raise_code (f : FaultCode) (info : Word) : (raise f info s).code = s.code := rfl
@[simp] theorem raise_pq (f : FaultCode) (info : Word) : (raise f info s).pq = [] := rfl
@[simp] theorem raise_seq (f : FaultCode) (info : Word) : (raise f info s).seq = s.seq := rfl
@[simp] theorem raise_stack (f : FaultCode) (info : Word) : (raise f info s).stack = [] := rfl
@[simp] theorem raise_cur (f : FaultCode) (info : Word) : (raise f info s).cur = s.cur := rfl
@[simp] theorem raise_oacc (f : FaultCode) (info : Word) : (raise f info s).oacc = s.oacc := rfl
@[simp] theorem raise_ocnt (f : FaultCode) (info : Word) : (raise f info s).ocnt = s.ocnt := rfl
@[simp] theorem raise_iacc (f : FaultCode) (info : Word) : (raise f info s).iacc = s.iacc := rfl
@[simp] theorem raise_icnt (f : FaultCode) (info : Word) : (raise f info s).icnt = s.icnt := rfl
@[simp] theorem raise_inp (f : FaultCode) (info : Word) : (raise f info s).inp = s.inp := rfl
@[simp] theorem raise_out (f : FaultCode) (info : Word) : (raise f info s).out = s.out := rfl
@[simp] theorem raise_fault (f : FaultCode) (info : Word) : (raise f info s).fault = faultNumber f := rfl
@[simp] theorem raise_finfo (f : FaultCode) (info : Word) : (raise f info s).finfo = info := rfl
@[simp] theorem raise_busy (f : FaultCode) (info : Word) : (raise f info s).busy = false := rfl
@[simp] theorem raise_moves (f : FaultCode) (info : Word) : (raise f info s).moves = s.moves := rfl
@[simp] theorem raise_replies (f : FaultCode) (info : Word) : (raise f info s).replies = s.replies := rfl
@[simp] theorem raise_taken (f : FaultCode) (info : Word) : (raise f info s).taken = s.taken := rfl
@[simp] theorem raise_draws (f : FaultCode) (info : Word) : (raise f info s).draws = s.draws := rfl

/-! ### readByte -/

@[simp] theorem readByte_freq (rest : List Byte) : (readByte rest s).freq = s.freq := rfl
@[simp] theorem readByte_node (rest : List Byte) : (readByte rest s).node = s.node := rfl
@[simp] theorem readByte_nnodes (rest : List Byte) : (readByte rest s).nnodes = s.nnodes := rfl
@[simp] theorem readByte_root (rest : List Byte) : (readByte rest s).root = s.root := rfl
@[simp] theorem readByte_treeValid (rest : List Byte) : (readByte rest s).treeValid = s.treeValid := rfl
@[simp] theorem readByte_code (rest : List Byte) : (readByte rest s).code = s.code := rfl
@[simp] theorem readByte_pq (rest : List Byte) : (readByte rest s).pq = s.pq := rfl
@[simp] theorem readByte_seq (rest : List Byte) : (readByte rest s).seq = s.seq := rfl
@[simp] theorem readByte_stack (rest : List Byte) : (readByte rest s).stack = s.stack := rfl
@[simp] theorem readByte_cur (rest : List Byte) : (readByte rest s).cur = s.cur := rfl
@[simp] theorem readByte_oacc (rest : List Byte) : (readByte rest s).oacc = s.oacc := rfl
@[simp] theorem readByte_ocnt (rest : List Byte) : (readByte rest s).ocnt = s.ocnt := rfl
@[simp] theorem readByte_iacc (rest : List Byte) : (readByte rest s).iacc = s.iacc := rfl
@[simp] theorem readByte_icnt (rest : List Byte) : (readByte rest s).icnt = s.icnt := rfl
@[simp] theorem readByte_inp (rest : List Byte) : (readByte rest s).inp = rest := rfl
@[simp] theorem readByte_out (rest : List Byte) : (readByte rest s).out = s.out := rfl
@[simp] theorem readByte_fault (rest : List Byte) : (readByte rest s).fault = s.fault := rfl
@[simp] theorem readByte_finfo (rest : List Byte) : (readByte rest s).finfo = s.finfo := rfl
@[simp] theorem readByte_busy (rest : List Byte) : (readByte rest s).busy = s.busy := rfl
@[simp] theorem readByte_moves (rest : List Byte) : (readByte rest s).moves = s.moves := rfl
@[simp] theorem readByte_replies (rest : List Byte) : (readByte rest s).replies = s.replies := rfl
@[simp] theorem readByte_taken (rest : List Byte) : (readByte rest s).taken = s.taken := rfl
@[simp] theorem readByte_draws (rest : List Byte) : (readByte rest s).draws = s.draws := rfl

end Sys2Proof.Machine
end

