-- ==== Sys2Proof/Laws/Fields.lean ====
section
/-! SUPPORT. The fields of node words (10_state.md R22) and the bit sequences of values (00_scope.md R9): one lemma for
each reader and each writer. -/

namespace Sys2Proof.Machine

/-! ### Node words -/

/-- The bits of a 32-bit constant, from the finitely many places it has. -/
theorem const_getLsbD (c : BitVec 32) (p : Nat → Bool) (h : ∀ i : Fin 32, c.getLsbD i = p i) (i : Nat) (hi : i < 32) :
    c.getLsbD i = p i := h ⟨i, hi⟩

theorem kindBit_getLsbD (i : Nat) (hi : i < 32) : (0x80000000#32).getLsbD i = decide (i = 31) :=
  const_getLsbD _ (fun i => decide (i = 31)) (by decide) i hi

theorem leftMask_getLsbD (i : Nat) (hi : i < 32) : (0xFFFFFC00#32).getLsbD i = decide (10 ≤ i) :=
  const_getLsbD _ (fun i => decide (10 ≤ i)) (by decide) i hi

theorem rightMask_getLsbD (i : Nat) (hi : i < 32) :
    (0xFC00FFFF#32).getLsbD i = (decide (i < 16) || decide (26 ≤ i)) :=
  const_getLsbD _ (fun i => decide (i < 16) || decide (26 ≤ i)) (by decide) i hi

/-- Every bit of an Internal word (10_state.md R22). -/
theorem internalWord_getLsbD (l r : Idx) (i : Nat) (hi : i < 32) :
    (internalWord l r).getLsbD i =
      (decide (i = 31) || (decide (16 ≤ i) && r.getLsbD (i - 16)) || l.getLsbD i) := by
  have h : i - 16 < 32 := by omega
  by_cases h16 : i < 16
  · have : ¬ 16 ≤ i := by omega
    simp only [internalWord, BitVec.getLsbD_or, kindBit_getLsbD i hi, BitVec.getLsbD_shiftLeft,
      BitVec.getLsbD_setWidth, hi, h16, this, decide_true, decide_false, Bool.not_true, Bool.false_and,
      Bool.and_false, Bool.true_and]
  · have : 16 ≤ i := by omega
    simp only [internalWord, BitVec.getLsbD_or, kindBit_getLsbD i hi, BitVec.getLsbD_shiftLeft,
      BitVec.getLsbD_setWidth, hi, h16, h, this, decide_true, decide_false, Bool.not_false, Bool.true_and]

@[simp] theorem nodeKind_leafWord (y : Sym) : nodeKind (leafWord y) = false := by
  simp [nodeKind, leafWord]

@[simp] theorem nodeSym_leafWord (y : Sym) : nodeSym (leafWord y) = y := by
  apply BitVec.eq_of_getLsbD_eq
  intro k hk
  have : k < 32 := by omega
  simp [nodeSym, leafWord, hk, this]

@[simp] theorem nodeKind_internalWord (l r : Idx) : nodeKind (internalWord l r) = true := by
  rw [nodeKind, internalWord_getLsbD l r 31 (by omega)]
  simp

@[simp] theorem nodeLeft_internalWord (l r : Idx) : nodeLeft (internalWord l r) = l := by
  apply BitVec.eq_of_getLsbD_eq
  intro k hk
  have h31 : k ≠ 31 := by omega
  have h16 : ¬ 16 ≤ k := by omega
  rw [nodeLeft, BitVec.getLsbD_extractLsb', Nat.zero_add, internalWord_getLsbD l r k (by omega)]
  simp [hk, h31, h16]

@[simp] theorem nodeRight_internalWord (l r : Idx) : nodeRight (internalWord l r) = r := by
  apply BitVec.eq_of_getLsbD_eq
  intro k hk
  have h31 : 16 + k ≠ 31 := by omega
  have hl : l.getLsbD (16 + k) = false := BitVec.getLsbD_of_ge l _ (by omega)
  rw [nodeRight, BitVec.getLsbD_extractLsb', internalWord_getLsbD l r (16 + k) (by omega), hl]
  simp [hk, h31]

@[simp] theorem setLeft_internalWord (l r k : Idx) : setLeft (internalWord l r) k = internalWord k r := by
  apply BitVec.eq_of_getLsbD_eq
  intro i hi
  rw [setLeft, BitVec.getLsbD_or, BitVec.getLsbD_and, internalWord_getLsbD l r i hi, internalWord_getLsbD k r i hi,
    leftMask_getLsbD i hi, BitVec.getLsbD_setWidth]
  by_cases h : 10 ≤ i
  · rw [BitVec.getLsbD_of_ge l i h]
    simp [h, hi]
  · have h31 : i ≠ 31 := by omega
    have h16 : ¬ 16 ≤ i := by omega
    simp [h, hi, h31, h16]

@[simp] theorem setRight_internalWord (l r k : Idx) : setRight (internalWord l r) k = internalWord l k := by
  apply BitVec.eq_of_getLsbD_eq
  intro i hi
  rw [setRight, BitVec.getLsbD_or, BitVec.getLsbD_and, internalWord_getLsbD l r i hi, internalWord_getLsbD l k i hi,
    rightMask_getLsbD i hi, BitVec.getLsbD_shiftLeft, BitVec.getLsbD_setWidth]
  by_cases h16 : i < 16
  · have : ¬ 16 ≤ i := by omega
    simp [h16, this]
  · have h16' : 16 ≤ i := by omega
    have h32 : i - 16 < 32 := by omega
    by_cases h26 : 26 ≤ i
    · rw [BitVec.getLsbD_of_ge r _ (by omega), BitVec.getLsbD_of_ge k _ (by omega)]
      simp [h16, h26]
    · have h31 : i ≠ 31 := by omega
      rw [BitVec.getLsbD_of_ge l i (by omega)]
      simp [h16, h16', h26, h31, hi, h32]

/-! ### Bit sequences -/

@[simp] theorem msb_length {n : Nat} (v : BitVec n) : (msb v).length = n := by simp [msb]

theorem msb_getElem {n : Nat} (v : BitVec n) (k : Nat) (h : k < (msb v).length) : (msb v)[k] = v.getMsbD k := by
  simp [msb]

theorem byte_eq_of_msb_eq {n : Nat} {u v : BitVec n} (h : msb u = msb v) : u = v := by
  apply BitVec.eq_of_getMsbD_eq
  intro k hk
  have hu : k < (msb u).length := by simpa using hk
  have hv : k < (msb v).length := by simpa using hk
  rw [← msb_getElem u k hu, ← msb_getElem v k hv]
  simp only [h]

@[simp] theorem byteBits_nil : byteBits [] = [] := rfl

@[simp] theorem byteBits_cons (b : Byte) (bs : List Byte) : byteBits (b :: bs) = msb b ++ byteBits bs := rfl

@[simp] theorem byteBits_append (as bs : List Byte) : byteBits (as ++ bs) = byteBits as ++ byteBits bs := by
  simp [byteBits]

@[simp] theorem byteBits_length (bs : List Byte) : (byteBits bs).length = 8 * bs.length := by
  induction bs with
  | nil => rfl
  | cons b bs ih => simp [ih]; omega

/-- Reading a field most significant bit first from a start value: each bit doubles it. -/
theorem foldl_bits_append (v : Nat) (bs : Bits) (b : Bool) :
    (bs ++ [b]).foldl (fun v b => 2 * v + b.toNat) v = 2 * bs.foldl (fun v b => 2 * v + b.toNat) v + b.toNat := by
  simp

/-- The value of `msb(v, n)` is `v` (20_memory.md R65). -/
@[simp] theorem bitsValue_msb {n : Nat} (v : BitVec n) : bitsValue (msb v) = v.toNat := by
  have key : ∀ k, k ≤ n → ((msb v).take k).foldl (fun v b => 2 * v + b.toNat) 0 = v.toNat >>> (n - k) := by
    intro k
    induction k with
    | zero =>
      intro _
      have hv := v.isLt
      simp [Nat.shiftRight_eq_div_pow, Nat.div_eq_of_lt hv]
    | succ k ih =>
      intro hk
      have hlen : k < (msb v).length := by simp; omega
      have hbit : v.getMsbD k = v.toNat.testBit (n - (k + 1)) := by
        have : n - 1 - k = n - (k + 1) := by omega
        have hkn : k < n := by omega
        simp [BitVec.getMsbD, BitVec.getLsbD, hkn, this]
      rw [List.take_succ_eq_append_getElem hlen, foldl_bits_append, ih (by omega), msb_getElem, hbit]
      have hs : n - k = (n - (k + 1)) + 1 := by omega
      rw [hs, Nat.shiftRight_succ, Nat.testBit]
      have : ∀ m : Nat, 2 * (m / 2) + (1 &&& m != 0).toNat = m := by
        intro m
        rw [Nat.and_comm, Nat.and_one_is_mod]
        rcases Nat.mod_two_eq_zero_or_one m with h | h <;> simp [h] <;> omega
      exact this _
  have h := key n (Nat.le_refl n)
  have ht : (msb v).take n = msb v := List.take_of_length_le (by simp)
  rw [ht] at h
  simpa [bitsValue] using h

end Sys2Proof.Machine
end

