-- ==== Sys2Proof/Laws/Streams.lean ====
section
/-! SUPPORT. What the bit primitives can do (20_memory.md R66 to R71), in terms of the pending bit sequences
`inBits` and `outBits`: the lemmas later proofs cite instead of unfolding the primitives. -/

namespace Sys2Proof.Machine

/-- `t` is `s` but for the unpacker and `IN`. -/
def sameButInput (s t : State) : Prop := t = { s with iacc := t.iacc, icnt := t.icnt, inp := t.inp }

/-- `t` is `s` but for the packer and `OUT`. -/
def sameButOutput (s t : State) : Prop := t = { s with oacc := t.oacc, ocnt := t.ocnt, out := t.out }

theorem sameButInput.refl (s : State) : sameButInput s s := rfl

theorem sameButOutput.refl (s : State) : sameButOutput s s := rfl

theorem sameButInput.trans {s t u : State} (h : sameButInput s t) (k : sameButInput t u) : sameButInput s u := by
  unfold sameButInput at *
  rw [k, h]

theorem sameButOutput.trans {s t u : State} (h : sameButOutput s t) (k : sameButOutput t u) : sameButOutput s u := by
  unfold sameButOutput at *
  rw [k, h]

/-! ### The input side -/

theorem inBits_length (s : State) : s.inBits.length = inputBitCount s := by
  have := s.icnt.isLt
  simp [State.inBits, inputBitCount]
  omega

theorem inBits_eq_nil_iff (s : State) : s.inBits = [] ↔ s.icnt = 0 ∧ s.inp = [] := by
  rw [← List.length_eq_zero_iff, inBits_length, inputBitCount]
  constructor
  · intro h
    refine ⟨BitVec.eq_of_toNat_eq (by simpa using (by omega : s.icnt.toNat = 0)), ?_⟩
    exact List.length_eq_zero_iff.mp (by omega)
  · rintro ⟨h1, h2⟩
    simp [h1, h2]

theorem hasMoreBits_iff (s : State) : hasMoreBits s = true ↔ s.inBits ≠ [] := by
  rw [Ne, inBits_eq_nil_iff]
  unfold hasMoreBits
  cases hi : s.inp <;> by_cases h : s.icnt = 0 <;> simp [h]

/-- The unread part of a byte is its next bit and the rest. -/
theorem msb_drop_succ (v : Byte) (n : Nat) (h : n < 8) :
    (msb v).drop (8 - (n + 1)) = v.getLsbD n :: (msb v).drop (8 - n) := by
  have h1 : 8 - (n + 1) < (msb v).length := by simp; omega
  have h2 : 8 - (n + 1) + 1 = 8 - n := by omega
  have h3 : 8 - (n + 1) < 8 := by omega
  have h4 : 8 - 1 - (8 - (n + 1)) = n := by omega
  rw [List.drop_eq_getElem_cons h1, h2, msb_getElem]
  simp only [BitVec.getMsbD, h3, decide_true, Bool.true_and, h4]

theorem readBit_exhausted {s : State} (f : FaultCode) (h : s.inBits = []) : readBit f s = .raised f 0 s := by
  obtain ⟨h1, h2⟩ := (inBits_eq_nil_iff s).mp h
  simp [readBit, h1, h2]

/-- `readBit` delivers the first pending bit (20_memory.md R67). -/
theorem readBit_delivers {s : State} (f : FaultCode) {b : Bool} {rest : Bits} (h : s.inBits = b :: rest) :
    ∃ t, readBit f s = .ok b t ∧ t.inBits = rest ∧ sameButInput s t ∧ t.icnt = s.icnt - 1 := by
  unfold readBit
  by_cases h0 : s.icnt = 0
  · rw [if_pos h0]
    cases hi : s.inp with
    | nil => rw [(inBits_eq_nil_iff s).mpr ⟨h0, hi⟩] at h; cases h
    | cons c cs =>
      have hb : s.inBits = c.getLsbD 7 :: ((msb c).drop 1 ++ byteBits cs) := by
        have := msb_drop_succ c 7 (by omega)
        have hd : (msb s.iacc).drop 8 = [] := List.drop_of_length_le (by simp)
        have h1 : 8 - (7 + 1) = 0 := rfl
        rw [h1, List.drop_zero] at this
        simp only [State.inBits, h0, hi, BitVec.ofNat_eq_ofNat, BitVec.toNat_ofNat, Nat.zero_mod, Nat.sub_zero, hd,
          byteBits_cons, List.nil_append]
        rw [this]
        rfl
      rw [hb] at h
      obtain ⟨rfl, rfl⟩ := List.cons.inj h
      exact ⟨_, rfl, rfl, rfl, by rw [h0]; rfl⟩
  · rw [if_neg h0]
    have hpos : s.icnt.toNat ≠ 0 := fun e => h0 (BitVec.eq_of_toNat_eq (by simpa using e))
    have hlt := s.icnt.isLt
    have hn : (s.icnt - 1).toNat = s.icnt.toNat - 1 := by
      rw [BitVec.toNat_sub]
      simp
      omega
    have hb : s.inBits = s.iacc.getLsbD (s.icnt.toNat - 1) ::
        ((msb s.iacc).drop (8 - (s.icnt.toNat - 1)) ++ byteBits s.inp) := by
      have := msb_drop_succ s.iacc (s.icnt.toNat - 1) (by omega)
      rw [Nat.sub_add_cancel (by omega)] at this
      rw [State.inBits, this]
      rfl
    rw [hb] at h
    obtain ⟨rfl, rfl⟩ := List.cons.inj h
    exact ⟨_, rfl, by simp only [State.inBits, hn], rfl, rfl⟩

/-- Everything `readBit` can do: raise on an exhausted input, or deliver the first pending bit. -/
theorem readBit_cases (f : FaultCode) (s : State) :
    (s.inBits = [] ∧ readBit f s = .raised f 0 s) ∨
    (∃ b t, s.inBits = b :: t.inBits ∧ readBit f s = .ok b t ∧ sameButInput s t ∧ t.icnt = s.icnt - 1) := by
  cases h : s.inBits with
  | nil => exact .inl ⟨rfl, readBit_exhausted f h⟩
  | cons b rest =>
    obtain ⟨t, h1, h2, h3, h4⟩ := readBit_delivers f h
    exact .inr ⟨b, t, by rw [h2], h1, h3, h4⟩

theorem readBitsFrom_delivers (f : FaultCode) (bs : Bits) (v : Nat) {s : State} {rest : Bits}
    (h : s.inBits = bs ++ rest) :
    ∃ t, readBitsFrom bs.length v f s = .ok (bs.foldl (fun v b => 2 * v + b.toNat) v) t ∧ t.inBits = rest ∧
      sameButInput s t ∧ t.icnt = s.icnt - BitVec.ofNat 3 bs.length := by
  induction bs generalizing v s with
  | nil => exact ⟨s, rfl, h, sameButInput.refl s, by simp⟩
  | cons b bs ih =>
    obtain ⟨t, h1, h2, h3, h4⟩ := readBit_delivers f (s := s) h
    obtain ⟨u, k1, k2, k3, k4⟩ := ih (2 * v + b.toNat) h2
    refine ⟨u, ?_, k2, h3.trans k3, ?_⟩
    · simp only [List.length_cons, readBitsFrom, h1, Cmd.bind, k1, List.foldl_cons]
    · rw [k4, h4, List.length_cons, Nat.add_comm, BitVec.ofNat_add, BitVec.sub_sub]
      rfl

theorem readBitsFrom_exhausted (f : FaultCode) (n v : Nat) {s : State} (h : s.inBits.length < n) :
    ∃ t, readBitsFrom n v f s = .raised f 0 t ∧ t.inBits = [] ∧ sameButInput s t := by
  induction n generalizing v s with
  | zero => omega
  | succ n ih =>
    rcases readBit_cases f s with ⟨h1, h2⟩ | ⟨b, t, h1, h2, h3, _⟩
    · exact ⟨s, by simp only [readBitsFrom, h2, Cmd.bind], h1, sameButInput.refl s⟩
    · obtain ⟨u, k1, k2, k3⟩ := ih (2 * v + b.toNat) (s := t) (by rw [h1] at h; simp at h; omega)
      exact ⟨u, by simp only [readBitsFrom, h2, Cmd.bind, k1], k2, h3.trans k3⟩

/-- `readBits` reads the field `msb(v, n)` as `v` (20_memory.md R65, R68). -/
theorem readBits_delivers (f : FaultCode) {n : Nat} (v : BitVec n) {s : State} {rest : Bits}
    (h : s.inBits = msb v ++ rest) :
    ∃ t, readBits n f s = .ok v t ∧ t.inBits = rest ∧ sameButInput s t ∧ t.icnt = s.icnt - BitVec.ofNat 3 n := by
  obtain ⟨t, h1, h2, h3, h4⟩ := readBitsFrom_delivers f (msb v) 0 h
  rw [msb_length] at h1 h4
  refine ⟨t, ?_, h2, h3, h4⟩
  have hv : (msb v).foldl (fun v b => 2 * v + b.toNat) 0 = v.toNat := bitsValue_msb v
  rw [hv] at h1
  simp only [readBits, h1, Cmd.bind, BitVec.ofNat_toNat, BitVec.setWidth_eq]

/-- `readBits` on an input that ends first: what there is is consumed, then the fault is raised (20_memory.md R68). -/
theorem readBits_exhausted (f : FaultCode) (n : Nat) {s : State} (h : s.inBits.length < n) :
    ∃ t, readBits n f s = .raised f 0 t ∧ t.inBits = [] ∧ sameButInput s t := by
  obtain ⟨t, h1, h2, h3⟩ := readBitsFrom_exhausted f n 0 h
  exact ⟨t, by simp only [readBits, h1, Cmd.bind], h2, h3⟩

/-- Every bit sequence of length `n` is the field of some value. -/
theorem exists_msb (n : Nat) (bs : Bits) (h : bs.length = n) : ∃ v : BitVec n, msb v = bs := by
  induction n generalizing bs with
  | zero => exact ⟨0#0, by rw [List.length_eq_zero_iff.mp h]; rfl⟩
  | succ n ih =>
    cases bs with
    | nil => cases h
    | cons b bs =>
      obtain ⟨v, hv⟩ := ih bs (by simpa using h)
      refine ⟨BitVec.cons b v, ?_⟩
      apply List.ext_getElem (by simp [h])
      intro k h1 h2
      rw [msb_getElem]
      cases k with
      | zero => simp
      | succ k =>
        have hk : k < (msb v).length := by simp at h1 ⊢; omega
        have : bs[k]'(by simpa using h2) = (msb v)[k] := by simp only [hv]
        rw [List.getElem_cons_succ, this, msb_getElem]
        have hk' : k < n := by simpa using hk
        have hk1 : k + 1 < n + 1 := by omega
        have e1 : n + 1 - 1 - (k + 1) = n - 1 - k := by omega
        have e2 : n - 1 - k ≠ n := by omega
        rw [BitVec.getMsbD, e1, BitVec.getLsbD_cons, if_neg e2]
        simp only [BitVec.getMsbD, hk', hk1, decide_true]

/-! ### The output side -/

/-- In a packer whose unfilled bits are 0, an unfilled bit is 0 (10_state.md R31). -/
theorem PackerInv.unfilled {s : State} (h : s.PackerInv) (k : Nat) (hk : s.ocnt.toNat ≤ k) :
    s.oacc.getMsbD k = false := by
  by_cases h8 : k < 8
  · have := congrArg (fun v : Byte => v.getMsbD (k - s.ocnt.toNat)) h
    have e : k - s.ocnt.toNat + s.ocnt.toNat = k := by omega
    have e2 : k - s.ocnt.toNat < 8 := by omega
    simpa [BitVec.getMsbD_shiftLeft, e, e2, Nat.add_comm] using this
  · simp [BitVec.getMsbD, h8]

/-- The accumulator with one more bit, bit by bit. -/
theorem packed_getMsbD (v : Byte) (b : Bool) (n k : Nat) (hn : n < 8) (hk : k < 8) :
    (v ||| ((BitVec.ofBool b).setWidth 8 <<< (7 - n))).getMsbD k = (v.getMsbD k || (decide (k = n) && b)) := by
  have h : ∀ b : Bool, ∀ n k : Fin 8,
      ((BitVec.ofBool b).setWidth 8 <<< (7 - n.val)).getMsbD k = (decide (k.val = n.val) && b) := by decide
  rw [BitVec.getMsbD_or]
  exact congrArg _ (h b ⟨n, hn⟩ ⟨k, hk⟩)

theorem packed_take (v : Byte) (b : Bool) (n : Nat) (hn : n < 8) (hz : v.getMsbD n = false) :
    (msb (v ||| ((BitVec.ofBool b).setWidth 8 <<< (7 - n)))).take (n + 1) = (msb v).take n ++ [b] := by
  apply List.ext_getElem
  · simp; omega
  · intro k h1 h2
    have hk : k < n + 1 := by simp at h1; omega
    rw [List.getElem_take, msb_getElem, packed_getMsbD v b n k hn (by omega), List.getElem_append]
    by_cases hkn : k < n
    · have : k ≠ n := by omega
      have hl : k < ((msb v).take n).length := by simp; omega
      rw [dif_pos hl, List.getElem_take, msb_getElem]
      simp [this]
    · have : k = n := by omega
      subst this
      have hl : ¬ k < ((msb v).take k).length := by simp
      rw [dif_neg hl]
      simp [hz]

/-- `writeBit` appends its bit to the output sequence and keeps the packer's form (20_memory.md R69). -/
theorem writeBit_appends {s : State} (b : Bool) (h : s.PackerInv) :
    (writeBit b s).outBits = s.outBits ++ [b] ∧ (writeBit b s).PackerInv ∧ (writeBit b s).ocnt = s.ocnt + 1 := by
  have hn := s.ocnt.isLt
  have ht := packed_take s.oacc b s.ocnt.toNat (by omega) (PackerInv.unfilled h _ (Nat.le_refl _))
  unfold writeBit
  by_cases h8 : s.ocnt.toNat + 1 = 8
  · simp only [h8, if_true]
    refine ⟨?_, ?_, ?_⟩
    · rw [h8, List.take_of_length_le (by simp)] at ht
      simp [State.outBits, ht]
    · simp [State.PackerInv]
    · apply BitVec.eq_of_toNat_eq
      rw [BitVec.toNat_add]
      simp
      omega
  · simp only [h8, if_false]
    have hc : (s.ocnt + 1).toNat = s.ocnt.toNat + 1 := by
      rw [BitVec.toNat_add]
      simp
      omega
    refine ⟨?_, ?_, trivial⟩
    · simp only [State.outBits, hc, ht, List.append_assoc]
    · simp only [State.PackerInv, hc]
      apply BitVec.eq_of_getMsbD_eq
      intro k hk
      rw [BitVec.getMsbD_shiftLeft]
      by_cases hk8 : k + (s.ocnt.toNat + 1) < 8
      · rw [packed_getMsbD _ _ _ _ (by omega) hk8, PackerInv.unfilled h _ (by omega)]
        have : k + (s.ocnt.toNat + 1) ≠ s.ocnt.toNat := by omega
        simp [this]
      · simp [BitVec.getMsbD, hk8]

theorem writeBit_frame (b : Bool) (s : State) : sameButOutput s (writeBit b s) := by
  unfold sameButOutput writeBit
  split <;> rfl

theorem writeSeq_frame (bs : Bits) (s : State) : sameButOutput s (writeSeq bs s) := by
  induction bs generalizing s with
  | nil => rfl
  | cons b bs ih => exact (writeBit_frame b s).trans (ih (writeBit b s))

@[simp] theorem writeSeq_nil (s : State) : writeSeq [] s = s := rfl

theorem writeSeq_append (as bs : Bits) (s : State) : writeSeq (as ++ bs) s = writeSeq bs (writeSeq as s) := by
  simp [writeSeq]

/-- Writing a sequence appends it (20_memory.md R70). -/
theorem writeSeq_appends (bs : Bits) {s : State} (h : s.PackerInv) :
    (writeSeq bs s).outBits = s.outBits ++ bs ∧ (writeSeq bs s).PackerInv ∧
      (writeSeq bs s).ocnt = s.ocnt + BitVec.ofNat 3 bs.length := by
  induction bs generalizing s with
  | nil => exact ⟨by simp, h, by simp⟩
  | cons b bs ih =>
    obtain ⟨h1, h2, h3⟩ := writeBit_appends b h
    obtain ⟨k1, k2, k3⟩ := ih h2
    refine ⟨?_, k2, ?_⟩
    · rw [show writeSeq (b :: bs) s = writeSeq bs (writeBit b s) from rfl, k1, h1]
      simp
    · rw [show writeSeq (b :: bs) s = writeSeq bs (writeBit b s) from rfl, k3, h3, List.length_cons,
        BitVec.add_assoc, Nat.add_comm bs.length 1, BitVec.ofNat_add]
      rfl

theorem writeBits_frame {n : Nat} (v : BitVec n) (s : State) : sameButOutput s (writeBits v s) := writeSeq_frame _ s

/-- `writeBits(v, n)` appends `msb(v, n)` (20_memory.md R70). -/
theorem writeBits_appends {n : Nat} (v : BitVec n) {s : State} (h : s.PackerInv) :
    (writeBits v s).outBits = s.outBits ++ msb v ∧ (writeBits v s).PackerInv ∧
      (writeBits v s).ocnt = s.ocnt + BitVec.ofNat 3 n := by
  simpa [writeBits] using writeSeq_appends (msb v) h

theorem flushBits_frame (s : State) : sameButOutput s (flushBits s) := by
  unfold sameButOutput flushBits
  split <;> rfl

/-- After `flushBits` the packer is empty (20_memory.md R71). -/
theorem flushBits_empties {s : State} (h : s.PackerInv) : (flushBits s).ocnt = 0 ∧ (flushBits s).oacc = 0 := by
  unfold flushBits
  by_cases h0 : 0 < s.ocnt.toNat
  · simp [h0]
  · have hz : s.ocnt.toNat = 0 := by omega
    have ho : s.ocnt = 0 := BitVec.eq_of_toNat_eq (by simpa using hz)
    have ha : s.oacc = 0 := by simpa [State.PackerInv, hz] using h
    simp [ho, ha]

/-- `flushBits` completes the last byte with zeros (20_memory.md R71). -/
theorem flushBits_pads {s : State} (h : s.PackerInv) :
    byteBits (flushBits s).out = s.outBits ++ List.replicate ((8 - s.ocnt.toNat) % 8) false := by
  have hn := s.ocnt.isLt
  unfold flushBits
  by_cases h0 : 0 < s.ocnt.toNat
  · have e : (8 - s.ocnt.toNat) % 8 = 8 - s.ocnt.toNat := by omega
    have hm : msb s.oacc = (msb s.oacc).take s.ocnt.toNat ++ List.replicate (8 - s.ocnt.toNat) false := by
      apply List.ext_getElem
      · simp; omega
      · intro k h1 h2
        rw [msb_getElem, List.getElem_append]
        by_cases hk : k < s.ocnt.toNat
        · have : k < ((msb s.oacc).take s.ocnt.toNat).length := by simp; omega
          rw [dif_pos this, List.getElem_take, msb_getElem]
        · have : ¬ k < ((msb s.oacc).take s.ocnt.toNat).length := by simp; omega
          rw [dif_neg this, List.getElem_replicate, PackerInv.unfilled h k (by omega)]
    simp only [h0, if_true, e, State.outBits, byteBits_append, byteBits_cons, byteBits_nil, List.append_nil,
      List.append_assoc, ← hm]
  · have e : s.ocnt.toNat = 0 := by omega
    simp [e, State.outBits]

end Sys2Proof.Machine
end

