-- ==== Sys2Proof/Laws/Memory.lean ====
section
/-! SUPPORT. Read after write for the internal memories `FREQ`, `NODE`, `CODE` (10_state.md R21 to R26): the written
entry reads as written, every other entry as before. Each memory is a vector of the spec's own size, so equal memories
are equal data and no operation can leave that form. -/

namespace Sys2Proof.Machine

/-! ### FREQ -/

@[simp] theorem freqAt_setFreq_same (s : State) (b : Byte) (v : Word) : (s.setFreq b v).freqAt b = v := by
  simp [State.freqAt]

theorem freqAt_setFreq_other (s : State) {b c : Byte} (v : Word) (h : c ≠ b) : (s.setFreq b v).freqAt c = s.freqAt c := by
  have : b.toNat ≠ c.toNat := fun e => h (BitVec.eq_of_toNat_eq e.symm)
  simp [State.freqAt, this]

theorem freqAt_setFreq (s : State) (b c : Byte) (v : Word) :
    (s.setFreq b v).freqAt c = if c = b then v else s.freqAt c := by
  by_cases h : c = b
  · subst h; simp
  · simp [h, freqAt_setFreq_other s v h]

/-- Two tables that agree on every byte value are equal. -/
theorem freq_ext {s t : State} (h : ∀ b, s.freqAt b = t.freqAt b) : s.freq = t.freq := by
  apply Vector.ext
  intro i hi
  have := h (BitVec.ofNat 8 i)
  simp only [State.freqAt, BitVec.toNat_ofNat] at this
  have e : i % 2 ^ 8 = i := Nat.mod_eq_of_lt (by omega)
  simpa only [e] using this

/-! ### NODE -/

theorem nodeAt_eq_some_iff (s : State) (i : Idx) (w : Word) :
    s.nodeAt i = some w ↔ i < s.nnodes ∧ s.node[i.toNat]? = some w := by
  unfold State.nodeAt
  by_cases h : i < s.nnodes <;> simp [h]

/-- A node is read from the allocated indices only. -/
theorem nodeAt_isSome_lt {s : State} {i : Idx} {w : Word} (h : s.nodeAt i = some w) : i < s.nnodes ∧ i.toNat < 513 := by
  obtain ⟨h1, h2⟩ := (nodeAt_eq_some_iff s i w).mp h
  refine ⟨h1, ?_⟩
  rw [Vector.getElem?_eq_some_iff] at h2
  exact h2.1

/-- `nodeAt` depends on `NODE` and `NNODES` alone. -/
theorem nodeAt_congr {s t : State} (h1 : t.node = s.node) (h2 : t.nnodes = s.nnodes) : t.nodeAt = s.nodeAt := by
  funext i
  unfold State.nodeAt
  rw [h1, h2]

/-- `alloc` returns the first free index (10_state.md R23). -/
@[simp] theorem alloc_fst (w : Word) (s : State) : (alloc w s).1 = s.nnodes := rfl

theorem nnodes_succ {s : State} (h : s.nnodes.toNat < 513) : (s.nnodes + 1).toNat = s.nnodes.toNat + 1 := by
  rw [BitVec.toNat_add]
  simp
  omega

/-- The allocated word is read back at its index. -/
theorem nodeAt_alloc_new (w : Word) {s : State} (h : s.nnodes.toNat < 513) :
    (alloc w s).2.nodeAt s.nnodes = some w := by
  rw [nodeAt_eq_some_iff]
  have hs := nnodes_succ h
  refine ⟨?_, by simp [h]⟩
  rw [alloc_nnodes, BitVec.lt_def, hs]
  omega

/-- Allocation leaves every older node as it was. -/
theorem nodeAt_alloc_old (w : Word) {s : State} (h : s.nnodes.toNat < 513) {i : Idx} (hi : i < s.nnodes) :
    (alloc w s).2.nodeAt i = s.nodeAt i := by
  have hs := nnodes_succ h
  have hi' := BitVec.lt_def.mp hi
  have hi2 : i < s.nnodes + 1 := by rw [BitVec.lt_def, hs]; omega
  have hne : s.nnodes.toNat ≠ i.toNat := by omega
  unfold State.nodeAt
  rw [alloc_nnodes, alloc_node, if_pos hi, if_pos hi2, Vector.getElem?_setIfInBounds_ne hne]

/-! ### CODE -/

theorem code_setCode (s : State) (y : Sym) (p : Bits) (k : Nat) (hk : k < 257) :
    (s.setCode y p).code[k] = if y.toNat = k then ⟨true, BitVec.ofNat 9 p.length, p⟩ else s.code[k] := by
  rw [← Option.some_inj]
  simp only [setCode_code, ← Vector.getElem?_eq_getElem]
  rw [Vector.getElem?_setIfInBounds]
  by_cases h : y.toNat = k
  · simp [h, hk]
  · simp [h, hk]

@[simp] theorem clearPresent_getElem (v : Vector CodeEntry 257) (k : Nat) (hk : k < 257) :
    (clearPresent v)[k] = ⟨false, v[k].len, v[k].bits⟩ := by
  unfold clearPresent
  simp

end Sys2Proof.Machine
end

