-- ==== Sys2Proof/Laws/Command.lean ====
section
/-! SUPPORT. What the frame of a command can do (30_encoding.md R104, 60_exceptions.md R231), and how pieces of
pseudocode compose. -/

namespace Sys2Proof.Machine

/-! ### Composition -/

@[simp] theorem bind_ok {α β : Type} (a : α) (s : State) (k : α → State → Cmd β) : (Cmd.ok a s).bind k = k a s := rfl

@[simp] theorem bind_raised {α β : Type} (f : FaultCode) (i : Word) (s : State) (k : α → State → Cmd β) :
    (Cmd.raised f i s).bind k = .raised f i s := rfl

@[simp] theorem bind_stuck {α β : Type} (r : Fault) (k : α → State → Cmd β) : (Cmd.stuck r).bind k = .stuck r := rfl

theorem bind_eq_ok {α β : Type} {c : Cmd α} {k : α → State → Cmd β} {b : β} {t : State} :
    c.bind k = .ok b t ↔ ∃ a s, c = .ok a s ∧ k a s = .ok b t := by
  cases c <;> simp [Cmd.bind]

theorem bind_eq_raised {α β : Type} {c : Cmd α} {k : α → State → Cmd β} {f : FaultCode} {i : Word} {t : State} :
    c.bind k = .raised f i t ↔ c = .raised f i t ∨ ∃ a s, c = .ok a s ∧ k a s = .raised f i t := by
  cases c <;> simp [Cmd.bind]

theorem bind_eq_stuck {α β : Type} {c : Cmd α} {k : α → State → Cmd β} {r : Fault} :
    c.bind k = .stuck r ↔ c = .stuck r ∨ ∃ a s, c = .ok a s ∧ k a s = .stuck r := by
  cases c <;> simp [Cmd.bind]

/-- Wherever a piece of pseudocode ends, by its end or by a raise, the state there satisfies `p`. -/
def Cmd.endsIn {α : Type} (c : Cmd α) (p : State → Prop) : Prop :=
  match c with
  | .ok _ t => p t
  | .raised _ _ t => p t
  | .stuck _ => True

@[simp] theorem endsIn_ok {α : Type} (a : α) (t : State) (p : State → Prop) : (Cmd.ok a t).endsIn p ↔ p t := Iff.rfl

@[simp] theorem endsIn_raised {α : Type} (f : FaultCode) (i : Word) (t : State) (p : State → Prop) :
    (Cmd.raised (α := α) f i t).endsIn p ↔ p t := Iff.rfl

@[simp] theorem endsIn_stuck {α : Type} (r : Fault) (p : State → Prop) : (Cmd.stuck (α := α) r).endsIn p := trivial

theorem endsIn_mono {α : Type} {c : Cmd α} {p q : State → Prop} (h : c.endsIn p) (hpq : ∀ t, p t → q t) : c.endsIn q := by
  cases c with
  | ok a t => exact hpq t h
  | raised f i t => exact hpq t h
  | stuck r => trivial

/-- A composition ends in `q` when its first part ends in `p` and its second part leads from `p` to `q`. -/
theorem endsIn_bind {α β : Type} {c : Cmd α} {k : α → State → Cmd β} {p q : State → Prop} (h : c.endsIn p)
    (hraise : ∀ t, p t → q t) (hk : ∀ a t, p t → (k a t).endsIn q) : (c.bind k).endsIn q := by
  cases c with
  | ok a t => exact hk a t h
  | raised f i t => exact hraise t h
  | stuck r => trivial

/-! ### The frame of a command -/

/-- A faulted engine ignores the command (30_encoding.md R104). -/
theorem command_faulted {body : State → Cmd Unit} {s : State} (h : s.fault ≠ 0) : command body s = .next s := by
  rw [command, if_pos h]

theorem command_ok {body : State → Cmd Unit} {s t : State} (h : s.fault = 0) (hb : body { s with busy := true } = .ok () t) :
    command body s = .next { t with busy := false } := by
  rw [command, if_neg (not_not_intro h), hb]

theorem command_raised {body : State → Cmd Unit} {s t : State} {f : FaultCode} {i : Word} (h : s.fault = 0)
    (hb : body { s with busy := true } = .raised f i t) : command body s = .next (raise f i t) := by
  rw [command, if_neg (not_not_intro h), hb]

/-- Everything a command can do when it answers a next state. -/
theorem command_cases {body : State → Cmd Unit} {s t : State} (h : command body s = .next t) :
    (s.fault ≠ 0 ∧ t = s) ∨
    (s.fault = 0 ∧ ∃ u, body { s with busy := true } = .ok () u ∧ t = { u with busy := false }) ∨
    (s.fault = 0 ∧ ∃ f i u, body { s with busy := true } = .raised f i u ∧ t = raise f i u) := by
  unfold command at h
  by_cases h0 : s.fault = 0
  · rw [if_neg (by simp [h0])] at h
    cases hb : body { s with busy := true } with
    | ok a u => rw [hb] at h; cases h; exact .inr (.inl ⟨h0, u, rfl, rfl⟩)
    | raised f i u => rw [hb] at h; cases h; exact .inr (.inr ⟨h0, f, i, u, rfl, rfl⟩)
    | stuck r => rw [hb] at h; cases h
  · rw [if_pos h0] at h
    cases h
    exact .inl ⟨h0, rfl⟩

/-- A command never refuses. -/
theorem command_not_refused {body : State → Cmd Unit} {s : State} (r : Refusal) : command body s ≠ .refused r := by
  unfold command
  split
  · simp
  · split <;> simp

/-- A command stops only where its body does. -/
theorem command_fault {body : State → Cmd Unit} {s : State} {r : Fault} (h : command body s = .fault r) :
    body { s with busy := true } = .stuck r := by
  unfold command at h
  split at h
  · cases h
  · split at h
    · cases h
    · cases h
    · rename_i hb; cases h; exact hb

end Sys2Proof.Machine
end

