-- ==== Sys2Proof/Laws/Loops.lean ====
section
/-! SUPPORT. What each loop and recursion of the commands leaves unchanged, wherever it ends. -/

namespace Sys2Proof.Machine

theorem readBit_frame (f : FaultCode) (s : State) : (readBit f s).endsIn (sameButInput s) := by
  rcases readBit_cases f s with ⟨_, h⟩ | ⟨b, t, _, h, h3, _⟩
  · rw [h]; exact sameButInput.refl s
  · rw [h]; exact h3

theorem readBitsFrom_frame (n v : Nat) (f : FaultCode) (s : State) : (readBitsFrom n v f s).endsIn (sameButInput s) := by
  induction n generalizing v s with
  | zero => exact sameButInput.refl s
  | succ n ih =>
    exact endsIn_bind (readBit_frame f s) (fun _ h => h)
      (fun b t h => endsIn_mono (ih (2 * v + b.toNat) t) (fun _ k => h.trans k))

theorem readBits_frame (n : Nat) (f : FaultCode) (s : State) : (readBits n f s).endsIn (sameButInput s) :=
  endsIn_bind (readBitsFrom_frame n 0 f s) (fun _ h => h) (fun _ _ h => h)

/-- `t` is `s` but for `FREQ` and `IN`. -/
def sameButCount (s t : State) : Prop := t = { s with freq := t.freq, inp := t.inp }

theorem histLoop_frame (bs : List Byte) (s : State) : (histLoop bs s).endsIn (sameButCount s) := by
  induction bs generalizing s with
  | nil => exact rfl
  | cons b rest ih =>
    unfold histLoop
    split
    · exact rfl
    · refine endsIn_mono (ih _) (fun t h => ?_)
      unfold sameButCount at *
      rw [h]
      rfl

theorem emit_frame (fuel : Nat) (i : Idx) (s : State) : (emit fuel i s).endsIn (sameButOutput s) := by
  induction fuel generalizing i s with
  | zero => trivial
  | succ fuel ih =>
    unfold emit
    split
    · trivial
    · split
      · refine endsIn_bind (ih _ _) (fun t h => (writeBit_frame true s).trans h) (fun _ t h => ?_)
        exact endsIn_mono (ih _ t) (fun u k => ((writeBit_frame true s).trans h).trans k)
      · exact (writeBit_frame false s).trans (writeBits_frame _ _)

/-- `t` is `s` but for `CODE`. -/
def sameButCode (s t : State) : Prop := t = { s with code := t.code }

theorem sameButCode.trans {s t u : State} (h : sameButCode s t) (k : sameButCode t u) : sameButCode s u := by
  unfold sameButCode at *
  rw [k, h]

theorem walk_frame (fuel : Nat) (i : Idx) (p : Bits) (s : State) : (walk fuel i p s).endsIn (sameButCode s) := by
  induction fuel generalizing i p s with
  | zero => trivial
  | succ fuel ih =>
    unfold walk
    split
    · trivial
    · split
      · exact endsIn_bind (ih _ _ _) (fun _ h => h) (fun _ t h => endsIn_mono (ih _ _ t) (fun u k => h.trans k))
      · split
        · trivial
        · exact rfl

theorem fillCodes_frame (s : State) : (fillCodes s).endsIn (sameButCode s) := by
  refine endsIn_mono (walk_frame _ _ _ _) (fun t h => ?_)
  unfold sameButCode at *
  rw [h]
  rfl

/-- `t` is `s` but for `NODE`, `NNODES` and the input side. -/
def sameButReader (s t : State) : Prop :=
  t = { s with node := t.node, nnodes := t.nnodes, iacc := t.iacc, icnt := t.icnt, inp := t.inp }

theorem sameButReader.trans {s t u : State} (h : sameButReader s t) (k : sameButReader t u) : sameButReader s u := by
  unfold sameButReader at *
  rw [k, h]

theorem sameButInput.reader {s t : State} (h : sameButInput s t) : sameButReader s t := by
  unfold sameButInput at h
  unfold sameButReader
  rw [h]

theorem setNodeLeft_frame (s : State) (i l : Idx) : sameButReader s (s.setNodeLeft i l) := by
  unfold State.setNodeLeft sameButReader
  split <;> rfl

theorem setNodeRight_frame (s : State) (i r : Idx) : sameButReader s (s.setNodeRight i r) := by
  unfold State.setNodeRight sameButReader
  split <;> rfl

theorem rd_frame (fuel : Nat) (k : ReadTemps) (s : State) : (rd fuel k s).endsIn (sameButReader s) := by
  induction fuel generalizing k s with
  | zero => trivial
  | succ fuel ih =>
    unfold rd
    refine endsIn_bind (readBit_frame _ s) (fun _ h => h.reader) (fun b t h => ?_)
    have h := h.reader
    split
    · split
      · exact h
      · have ha : sameButReader t (alloc (internalWord 0 0) t).2 := rfl
        refine endsIn_bind (ih _ _) (fun u k1 => (h.trans ha).trans k1) (fun a u k1 => ?_)
        have k2 := ((h.trans ha).trans k1).trans (setNodeLeft_frame u (alloc (internalWord 0 0) t).1 a.1)
        refine endsIn_bind (ih _ _) (fun v k3 => k2.trans k3) (fun c v k3 => ?_)
        exact (k2.trans k3).trans (setNodeRight_frame v _ c.1)
    · refine endsIn_bind (readBits_frame 9 _ t) (fun _ k1 => h.trans k1.reader) (fun v u k1 => ?_)
      have k1 := h.trans k1.reader
      split
      · exact k1
      · split
        · exact k1
        · exact k1.trans rfl

/-- `t` is `s` but for the packer, `OUT` and `IN`. -/
def sameButEncoder (s t : State) : Prop := t = { s with oacc := t.oacc, ocnt := t.ocnt, out := t.out, inp := t.inp }

theorem encLoop_frame (bs : List Byte) (s : State) : (encLoop bs s).endsIn (sameButEncoder s) := by
  induction bs generalizing s with
  | nil =>
    have h := writeSeq_frame s.code[256].bits s
    unfold sameButOutput at h
    simp only [encLoop, endsIn_ok]
    unfold sameButEncoder
    rw [h]
  | cons b rest ih =>
    unfold encLoop
    split
    · exact rfl
    · refine endsIn_mono (ih _) (fun t h => ?_)
      have hw := writeSeq_frame (s.codeOfByte b).bits (readByte rest s)
      unfold sameButOutput at hw
      unfold sameButEncoder at *
      rw [h, hw]
      rfl

/-- `t` is `s` but for `CUR`, the input side and the output side. -/
def sameButDecoder (s t : State) : Prop :=
  t = { s with
    cur := t.cur, iacc := t.iacc, icnt := t.icnt, inp := t.inp, oacc := t.oacc, ocnt := t.ocnt, out := t.out }

theorem sameButDecoder.trans {s t u : State} (h : sameButDecoder s t) (k : sameButDecoder t u) : sameButDecoder s u := by
  unfold sameButDecoder at *
  rw [k, h]

theorem decLoop_frame (fuel : Nat) (s : State) : (decLoop fuel s).endsIn (sameButDecoder s) := by
  induction fuel generalizing s with
  | zero => trivial
  | succ fuel ih =>
    unfold decLoop
    split
    · trivial
    · split
      · refine endsIn_bind (readBit_frame _ s) (fun t h => ?_) (fun b t h => ?_)
        · unfold sameButInput at h
          unfold sameButDecoder
          rw [h]
        · refine endsIn_mono (ih _) (fun u k => sameButDecoder.trans ?_ k)
          unfold sameButInput at h
          unfold sameButDecoder
          rw [h]
      · split
        · exact rfl
        · split
          · trivial
          · refine endsIn_mono (ih _) (fun u k => sameButDecoder.trans ?_ k)
            have hw := writeBits_frame ((nodeSym ‹Word›).setWidth 8) s
            unfold sameButOutput at hw
            unfold sameButDecoder
            rw [hw]

/-- `t` is `s` but for what BUILD's loops use: `NODE`, `NNODES`, `PQ`, `SEQ`. -/
def sameButBuilder (s t : State) : Prop := t = { s with node := t.node, nnodes := t.nnodes, pq := t.pq, seq := t.seq }

theorem sameButBuilder.trans {s t u : State} (h : sameButBuilder s t) (k : sameButBuilder t u) : sameButBuilder s u := by
  unfold sameButBuilder at *
  rw [k, h]

theorem addLeaf_frame (s : State) (b : Byte) : sameButBuilder s (addLeaf s b) := by
  unfold addLeaf sameButBuilder
  split <;> rfl

theorem addLeaves_frame (s : State) : sameButBuilder s (addLeaves s) := by
  have key : ∀ (bs : List Byte) (s : State), sameButBuilder s (bs.foldl addLeaf s) := by
    intro bs
    induction bs with
    | nil => intro s; rfl
    | cons b bs ih => intro s; exact (addLeaf_frame s b).trans (ih _)
  have he : ∀ u, sameButBuilder u (addEos u) := fun _ => rfl
  exact (key allBytes s).trans (he _)

theorem removeMin_frame {s t : State} {e : PqEntry} (h : removeMin s = some (e, t)) : sameButBuilder s t := by
  unfold removeMin at h
  obtain ⟨q, _, hq⟩ := Option.map_eq_some_iff.mp h
  rw [← (Prod.mk.inj hq).2]
  rfl

theorem mergeLoop_frame (fuel : Nat) (s : State) : sameButBuilder s (mergeLoop fuel s) := by
  induction fuel generalizing s with
  | zero => rfl
  | succ fuel ih =>
    unfold mergeLoop
    cases h1 : removeMin s with
    | none => rfl
    | some p =>
      obtain ⟨a, s1⟩ := p
      have e1 := removeMin_frame h1
      cases h2 : removeMin s1 with
      | none => simp only [h2]; exact rfl
      | some q =>
        obtain ⟨b, s2⟩ := q
        have e2 := removeMin_frame h2
        simp only [h2]
        refine (e1.trans e2).trans (sameButBuilder.trans ?_ (ih _))
        rfl

end Sys2Proof.Machine
end

