-- ==== Sys2Proof/Laws/Frames.lean ====
section
/-! SUPPORT. What each command can write when it answers a next state: its frame, the same whether it ends or raises. The
fields it names besides its own are those of `raise` (60_exceptions.md R231) and `BUSY`. -/

namespace Sys2Proof.Machine

/-- The body of a command (30_encoding.md R102); INIT has none, since it runs without the gate on `FAULT`. -/
def bodyOf : Instr → Option (State → Cmd Unit)
  | .nop => some nopBody
  | .init => none
  | .hist => some histBody
  | .build => some buildBody
  | .hdrWr => some hdrWrBody
  | .treeWr => some treeWrBody
  | .enc => some encBody
  | .flush => some flushBody
  | .hdrRd => some hdrRdBody
  | .treeRd => some treeRdBody
  | .dec => some decBody

/-- Every command but INIT runs in the frame of 30_encoding.md R104. -/
theorem exec_eq_command (i : Instr) (h : i ≠ .init) : ∃ body, bodyOf i = some body ∧ ∀ s, exec i s = command body s := by
  cases i with
  | init => exact absurd rfl h
  | nop => exact ⟨nopBody, rfl, fun _ => rfl⟩
  | hist => exact ⟨histBody, rfl, fun _ => rfl⟩
  | build => exact ⟨buildBody, rfl, fun _ => rfl⟩
  | hdrWr => exact ⟨hdrWrBody, rfl, fun _ => rfl⟩
  | treeWr => exact ⟨treeWrBody, rfl, fun _ => rfl⟩
  | enc => exact ⟨encBody, rfl, fun _ => rfl⟩
  | flush => exact ⟨flushBody, rfl, fun _ => rfl⟩
  | hdrRd => exact ⟨hdrRdBody, rfl, fun _ => rfl⟩
  | treeRd => exact ⟨treeRdBody, rfl, fun _ => rfl⟩
  | dec => exact ⟨decBody, rfl, fun _ => rfl⟩

/-- No command refuses. -/
theorem exec_not_refused (i : Instr) (s : State) (r : Refusal) : exec i s ≠ .refused r := by
  by_cases h : i = .init
  · subst h; simp [exec, execInit]
  · obtain ⟨body, _, hb⟩ := exec_eq_command i h
    rw [hb]
    exact command_not_refused r

theorem ok_state_inj {α : Type} {a b : α} {s t : State} (h : Cmd.ok a s = .ok b t) : s = t := by
  injection h

/-- From the frame of a body to the frame of its command: `p` is kept by `BUSY`, and by a raise. -/
theorem command_endsIn {body : State → Cmd Unit} {p : State → Prop} {s t : State} (h : command body s = .next t)
    (hs : s.fault ≠ 0 → p s) (hb : (body { s with busy := true }).endsIn fun u => p { u with busy := false })
    (hr : ∀ f i u, (body { s with busy := true }) = .raised f i u → p { u with busy := false } → p (raise f i u)) : p t := by
  rcases command_cases h with ⟨h0, rfl⟩ | ⟨_, u, hu, rfl⟩ | ⟨_, f, i, u, hu, rfl⟩
  · exact hs h0
  · rw [hu] at hb; exact hb
  · rw [hu] at hb; exact hr f i u hu hb

/-- HIST writes `FREQ` and `IN`, and on a raise what every raise writes (40_tree_builder.md R132). -/
theorem execHist_frame {s t : State} (h : execHist s = .next t) :
    t = { s with
      freq := t.freq, inp := t.inp, fault := t.fault, finfo := t.finfo, stack := t.stack, pq := t.pq, busy := t.busy } := by
  refine command_endsIn (p := fun t => t = { s with
    freq := t.freq, inp := t.inp, fault := t.fault, finfo := t.finfo, stack := t.stack, pq := t.pq, busy := t.busy })
    h (fun _ => rfl) ?_ ?_
  · unfold histBody
    split
    · rfl
    · refine endsIn_mono (histLoop_frame _ _) (fun u hu => ?_)
      unfold sameButCount at hu
      rw [hu]
  · intro f i u _ hu
    rw [show raise f i u = raise f i { u with busy := false } from rfl, hu]
    rfl

/-- BUILD writes the tree, the code table, `PQ`, `SEQ`, `STACK` (40_tree_builder.md R133); the other fields named here are
those of a raise, which it never executes. -/
theorem execBuild_frame {s t : State} (h : execBuild s = .next t) :
    t = { s with
      node := t.node, nnodes := t.nnodes, root := t.root, treeValid := t.treeValid, code := t.code,
      seq := t.seq, fault := t.fault, finfo := t.finfo, stack := t.stack, pq := t.pq, busy := t.busy } := by
  refine command_endsIn (p := fun t => t = { s with
      node := t.node, nnodes := t.nnodes, root := t.root, treeValid := t.treeValid, code := t.code,
      seq := t.seq, fault := t.fault, finfo := t.finfo, stack := t.stack, pq := t.pq, busy := t.busy })
    h (fun _ => rfl) ?_ ?_
  · have h0 : buildStart { s with busy := true } = { s with
        node := (buildStart { s with busy := true }).node, nnodes := (buildStart { s with busy := true }).nnodes,
        pq := (buildStart { s with busy := true }).pq, seq := (buildStart { s with busy := true }).seq,
        root := 0, treeValid := false, code := clearPresent s.code, busy := true } :=
      addLeaves_frame { dropTree { s with busy := true } with pq := [], seq := 0 }
    unfold buildBody
    generalize buildStart { s with busy := true } = v at h0
    have h1 : sameButBuilder v (mergeAll v) := mergeLoop_frame v.pq.length v
    cases hm : removeMin (mergeAll v) with
    | none => exact endsIn_stuck _ _
    | some p =>
      obtain ⟨r, u⟩ := p
      have h3 := h1.trans (removeMin_frame hm)
      unfold sameButBuilder at h3
      refine endsIn_bind (fillCodes_frame _) (fun w hw => ?_) (fun _ w hw => ?_) <;>
      · unfold sameButCode at hw
        rw [hw, h3, h0]
        try rfl
  · intro f i u _ hu
    rw [show raise f i u = raise f i { u with busy := false } from rfl, hu]
    rfl

/-- TREE_WR writes the output side and `STACK` (41_tree_codec.md R152). -/
theorem execTreeWr_frame {s t : State} (h : execTreeWr s = .next t) :
    t = { s with
      oacc := t.oacc, ocnt := t.ocnt, out := t.out, fault := t.fault, finfo := t.finfo, stack := t.stack, pq := t.pq,
      busy := t.busy } := by
  refine command_endsIn (p := fun t => t = { s with
      oacc := t.oacc, ocnt := t.ocnt, out := t.out, fault := t.fault, finfo := t.finfo, stack := t.stack, pq := t.pq,
      busy := t.busy })
    h (fun _ => rfl) ?_ ?_
  · unfold treeWrBody
    split
    · rfl
    · refine endsIn_bind (emit_frame _ _ _) (fun u hu => ?_) (fun _ u hu => ?_) <;>
      · unfold sameButOutput at hu
        simp only [endsIn_ok]
        rw [hu]
  · intro f i u _ hu
    rw [show raise f i u = raise f i { u with busy := false } from rfl, hu]
    rfl

/-- TREE_RD writes the tree, the code table, `STACK` and the input side (41_tree_codec.md R154). -/
theorem execTreeRd_frame {s t : State} (h : execTreeRd s = .next t) :
    t = { s with
      node := t.node, nnodes := t.nnodes, root := t.root, treeValid := t.treeValid, code := t.code,
      iacc := t.iacc, icnt := t.icnt, inp := t.inp,
      fault := t.fault, finfo := t.finfo, stack := t.stack, pq := t.pq, busy := t.busy } := by
  refine command_endsIn (p := fun t => t = { s with
      node := t.node, nnodes := t.nnodes, root := t.root, treeValid := t.treeValid, code := t.code,
      iacc := t.iacc, icnt := t.icnt, inp := t.inp,
      fault := t.fault, finfo := t.finfo, stack := t.stack, pq := t.pq, busy := t.busy })
    h (fun _ => rfl) ?_ ?_
  · have key : (treeRdSteps { s with busy := true }).endsIn fun u => u = { s with
        node := u.node, nnodes := u.nnodes, root := u.root, treeValid := u.treeValid, code := u.code,
        iacc := u.iacc, icnt := u.icnt, inp := u.inp, stack := u.stack, busy := true } := by
      unfold treeRdSteps
      refine endsIn_bind (rd_frame _ _ _) (fun u hu => ?_) (fun p u hu => ?_)
      · unfold sameButReader at hu
        rw [hu]
        rfl
      · unfold sameButReader at hu
        obtain ⟨r, k⟩ := p
        simp only
        split
        · refine endsIn_bind (fillCodes_frame _) (fun v hv => ?_) (fun _ v hv => ?_) <;>
          · unfold sameButCode at hv
            rw [hv, hu]
            rfl
        · rw [endsIn_raised, hu]
          rfl
    unfold treeRdBody
    cases hb : treeRdSteps { s with busy := true } with
    | ok a u => rw [hb, endsIn_ok] at key; rw [endsIn_ok, key]
    | raised f i u => rw [hb, endsIn_raised] at key; rw [endsIn_raised, key]
    | stuck r => trivial
  · intro f i u _ hu
    rw [show raise f i u = raise f i { u with busy := false } from rfl, hu]
    rfl

/-- ENC writes the output side and `IN` (42_symbol_encoder.md R172). -/
theorem execEnc_frame {s t : State} (h : execEnc s = .next t) :
    t = { s with
      oacc := t.oacc, ocnt := t.ocnt, out := t.out, inp := t.inp, fault := t.fault, finfo := t.finfo, stack := t.stack,
      pq := t.pq, busy := t.busy } := by
  refine command_endsIn (p := fun t => t = { s with
      oacc := t.oacc, ocnt := t.ocnt, out := t.out, inp := t.inp, fault := t.fault, finfo := t.finfo, stack := t.stack,
      pq := t.pq, busy := t.busy })
    h (fun _ => rfl) ?_ ?_
  · unfold encBody
    split
    · rfl
    · split
      · rfl
      · refine endsIn_mono (encLoop_frame _ _) (fun u hu => ?_)
        unfold sameButEncoder at hu
        rw [hu]
  · intro f i u _ hu
    rw [show raise f i u = raise f i { u with busy := false } from rfl, hu]
    rfl

/-- DEC writes `CUR`, the input side and the output side (43_symbol_decoder.md R185). -/
theorem execDec_frame {s t : State} (h : execDec s = .next t) :
    t = { s with
      cur := t.cur, iacc := t.iacc, icnt := t.icnt, inp := t.inp, oacc := t.oacc, ocnt := t.ocnt, out := t.out,
      fault := t.fault, finfo := t.finfo, stack := t.stack, pq := t.pq, busy := t.busy } := by
  refine command_endsIn (p := fun t => t = { s with
      cur := t.cur, iacc := t.iacc, icnt := t.icnt, inp := t.inp, oacc := t.oacc, ocnt := t.ocnt, out := t.out,
      fault := t.fault, finfo := t.finfo, stack := t.stack, pq := t.pq, busy := t.busy })
    h (fun _ => rfl) ?_ ?_
  · unfold decBody
    split
    · rfl
    · refine endsIn_mono (decLoop_frame _ _) (fun u hu => ?_)
      unfold sameButDecoder at hu
      rw [hu]
  · intro f i u _ hu
    rw [show raise f i u = raise f i { u with busy := false } from rfl, hu]
    rfl

/-- HDR_RD writes the input side (44_container_and_control.md R201). -/
theorem execHdrRd_frame {s t : State} (h : execHdrRd s = .next t) :
    t = { s with
      iacc := t.iacc, icnt := t.icnt, inp := t.inp, fault := t.fault, finfo := t.finfo, stack := t.stack, pq := t.pq,
      busy := t.busy } := by
  refine command_endsIn (p := fun t => t = { s with
      iacc := t.iacc, icnt := t.icnt, inp := t.inp, fault := t.fault, finfo := t.finfo, stack := t.stack, pq := t.pq,
      busy := t.busy })
    h (fun _ => rfl) ?_ ?_
  · unfold hdrRdBody
    refine endsIn_bind (readBits_frame _ _ _) (fun u hu => ?_) (fun v u hu => ?_)
    · unfold sameButInput at hu
      rw [hu]
    · unfold sameButInput at hu
      split <;> · simp only [endsIn_ok, endsIn_raised]; rw [hu]
  · intro f i u _ hu
    rw [show raise f i u = raise f i { u with busy := false } from rfl, hu]
    rfl

/-- HDR_WR writes the output side (44_container_and_control.md R200). -/
theorem execHdrWr_frame {s t : State} (h : execHdrWr s = .next t) :
    t = { s with oacc := t.oacc, ocnt := t.ocnt, out := t.out, busy := t.busy } := by
  rcases command_cases h with ⟨_, rfl⟩ | ⟨_, u, hu, rfl⟩ | ⟨_, f, i, u, hu, _⟩
  · rfl
  · have hw := writeBits_frame Config.magic { s with busy := true }
    unfold sameButOutput at hw
    rw [← ok_state_inj hu, hw]
  · exact absurd hu (by simp [hdrWrBody])

/-- FLUSH writes the output side (44_container_and_control.md R202). -/
theorem execFlush_frame {s t : State} (h : execFlush s = .next t) :
    t = { s with oacc := t.oacc, ocnt := t.ocnt, out := t.out, busy := t.busy } := by
  rcases command_cases h with ⟨_, rfl⟩ | ⟨_, u, hu, rfl⟩ | ⟨_, f, i, u, hu, _⟩
  · rfl
  · have hw := flushBits_frame { s with busy := true }
    unfold sameButOutput at hw
    rw [← ok_state_inj hu, hw]
  · exact absurd hu (by simp [flushBody])

/-- NOP writes nothing (44_container_and_control.md R203). -/
theorem execNop_frame {s t : State} (h : execNop s = .next t) : t = { s with busy := t.busy } := by
  rcases command_cases h with ⟨_, rfl⟩ | ⟨_, u, hu, rfl⟩ | ⟨_, f, i, u, hu, _⟩
  · rfl
  · rw [← ok_state_inj hu]
  · exact absurd hu (by simp [nopBody])

end Sys2Proof.Machine
end

