-- ==== Sys2Proof/Laws/Host.lean ====
section
/-! SUPPORT. What a step can do: the host's move taken off the list, and one lemma for each move (70_reset_and_hazards.md
R258). -/

namespace Sys2Proof.Machine

theorem step_idle {s : State} (h : s.moves = []) : step s = .next s := by
  simp [step, nextMove, h]

theorem step_move {s : State} {m : HostMove} {ms : List HostMove} (h : s.moves = m :: ms) :
    step s = hostMove m { s with moves := ms } := by
  simp [step, nextMove, h]

/-- Everything a step can do when it answers a next state. -/
theorem step_cases {s t : State} (h : step s = .next t) :
    (s.moves = [] ∧ t = s) ∨ ∃ m ms, s.moves = m :: ms ∧ hostMove m { s with moves := ms } = .next t := by
  cases hm : s.moves with
  | nil => rw [step_idle hm] at h; cases h; exact .inl ⟨rfl, rfl⟩
  | cons m ms => rw [step_move hm] at h; exact .inr ⟨m, ms, rfl, h⟩

/-- A CMD write on an idle engine dispatches its word (20_memory.md R63). -/
theorem memWrite_cmd {s : State} (v : Word) (h : s.busy = false) : memWrite cmdAddr v s = dispatch v s := by
  simp [memWrite, h]

/-- A legal word runs its command (30_encoding.md R104). -/
theorem dispatch_legal {v : Word} {i : Instr} (h : decode v = .ok i) (s : State) : dispatch v s = exec i s := by
  simp [dispatch, h]

/-- An illegal word raises IllegalCommand, unless the engine is faulted (30_encoding.md R103, R104). -/
theorem dispatch_illegal {v : Word} {e : DecodeError} (h : decode v = .error e) (s : State) :
    dispatch v s = command (illegalBody v) s := by
  simp [dispatch, h]

/-- Everything a register write can do when it answers a next state (20_memory.md R63, R78). -/
theorem memWrite_cases {a : RegAddr} {v : Word} {s t : State} (h : memWrite a v s = .next t) :
    (a = cmdAddr ∧ s.busy = true ∧ t = s) ∨
    (a = cmdAddr ∧ s.busy = false ∧ dispatch v s = .next t) ∨
    (a ≠ cmdAddr ∧ freqIndex a = none ∧ t = s) ∨
    (∃ b, a ≠ cmdAddr ∧ freqIndex a = some b ∧ s.busy = false ∧ t = s.setFreq b v) ∨
    (∃ b, a ≠ cmdAddr ∧ freqIndex a = some b ∧ s.busy = true ∧
      t = { s.setFreq b (Config.freeWord s.draws) with draws := s.draws + 1 }) := by
  unfold memWrite at h
  by_cases ha : a = cmdAddr
  · rw [if_pos ha] at h
    cases hb : s.busy with
    | true => rw [hb] at h; cases h; exact .inl ⟨ha, rfl, rfl⟩
    | false => rw [hb] at h; exact .inr (.inl ⟨ha, rfl, h⟩)
  · rw [if_neg ha] at h
    cases hf : freqIndex a with
    | none => rw [hf] at h; cases h; exact .inr (.inr (.inl ⟨ha, rfl, rfl⟩))
    | some b =>
      rw [hf] at h
      cases hb : s.busy with
      | true => rw [hb] at h; cases h; exact .inr (.inr (.inr (.inr ⟨b, ha, rfl, rfl, rfl⟩)))
      | false => rw [hb] at h; cases h; exact .inr (.inr (.inr (.inl ⟨b, ha, rfl, rfl, rfl⟩)))

/-- A register read changes nothing but the host's record, and the draw counter while busy (20_memory.md R62, R78). -/
theorem memRead_frame (a : RegAddr) (s : State) :
    memRead a s = { s with replies := (memRead a s).replies, draws := (memRead a s).draws } := by
  unfold memRead
  split <;> rfl

theorem memRead_idle {s : State} (a : RegAddr) (h : s.busy = false) :
    memRead a s = { s with replies := s.replies ++ [readReg a s] } := by
  simp [memRead, h]

/-- The word placed for the next step is dispatched by it. -/
theorem step_withFetchWord (s : State) (nbits w : Nat) :
    step (s.withFetchWord nbits w) = dispatch (BitVec.ofNat 32 (w % 2 ^ nbits)) { s with busy := false } := by
  rw [State.withFetchWord, placeCommand, step_move rfl]
  exact memWrite_cmd _ rfl

end Sys2Proof.Machine
end

