-- ==== Sys2Proof/Laws/PerInstr.lean ====
section
/-! SUPPORT. Statements made for all commands, one lemma for each (LAWS.json). -/

namespace Sys2Proof.Laws.EncodedWordLegal

/-- A command's word passes both checks of format C (30_encoding.md R101). -/
def Statement (i : Instr) : Prop := wordWellFormed (encode i) = true

theorem nop : Statement .nop := rfl
theorem init : Statement .init := rfl
theorem hist : Statement .hist := rfl
theorem build : Statement .build := rfl
theorem hdrWr : Statement .hdrWr := rfl
theorem treeWr : Statement .treeWr := rfl
theorem enc : Statement .enc := rfl
theorem flush : Statement .flush := rfl
theorem hdrRd : Statement .hdrRd := rfl
theorem treeRd : Statement .treeRd := rfl
theorem dec : Statement .dec := rfl

end Sys2Proof.Laws.EncodedWordLegal
end

