-- ==== Sys2Proof/Laws/TreeReading.lean ====
section
/-! SUPPORT. What the checks of TREE_RD read of a tree's bits (41_tree_codec.md R155), and that the three ends of a TREE_RD
(a good tree, a failed check, an input that ends) cover every input. -/

namespace Sys2Proof.Machine

namespace CodeTree

/-- Checks that all pass read the whole tree. -/
theorem checkedBits_of_ok {t : CodeTree} {k k' : Nat × List Sym} (h : t.readChecks k = .ok k') :
    t.checkedBits k = t.ser := by
  induction t generalizing k k' with
  | leaf y => rfl
  | internal l r ihl ihr =>
    obtain ⟨n, seen⟩ := k
    simp only [readChecks] at h
    split at h
    · cases h
    next hn =>
      cases hl : l.readChecks (n + 1, seen) with
      | error e => simp [hl] at h
      | ok m =>
        rw [hl] at h
        simp [checkedBits, hn, hl, ser, ihr h]

/-- What is read is the beginning of the tree's bits. -/
theorem checkedBits_prefix (t : CodeTree) (k : Nat × List Sym) : t.checkedBits k <+: t.ser := by
  induction t generalizing k with
  | leaf y => exact List.prefix_refl _
  | internal l r ihl ihr =>
    obtain ⟨n, seen⟩ := k
    simp only [checkedBits, ser]
    split
    · exact ⟨_, rfl⟩
    · cases hl : l.readChecks (n + 1, seen) with
      | error e => exact (List.prefix_cons_inj _).mpr ((ihl _).trans (List.prefix_append _ _))
      | ok m => exact (List.prefix_cons_inj _).mpr ((List.prefix_append_right_inj _).mpr (ihr m))

theorem bitsRead_prefix (t : CodeTree) : t.bitsRead <+: t.ser := checkedBits_prefix t _

/-- A tree that is accepted, or that fails for want of EOS only, is read whole. -/
theorem bitsRead_of_ok {t : CodeTree} {k : Nat × List Sym} (h : t.readChecks (0, []) = .ok k) : t.bitsRead = t.ser :=
  checkedBits_of_ok h

/-- The three ways reading a tree can end, from given counts: every check passes, one fails, the bits end first. -/
theorem checks_cover (m : Nat) (k : Nat × List Sym) (x : Bits) (hx : x.length ≤ m) :
    ∃ t : CodeTree,
      (∃ k' rest, t.readChecks k = .ok k' ∧ x = t.ser ++ rest) ∨
      (∃ e rest, t.readChecks k = .error e ∧ x = t.checkedBits k ++ rest) ∨
      (∃ q, q ≠ [] ∧ t.checkedBits k = x ++ q) := by
  induction m generalizing k x with
  | zero =>
    obtain rfl := List.length_eq_zero_iff.mp (Nat.le_zero.mp hx)
    exact ⟨leaf 0, .inr (.inr ⟨(leaf 0).ser, by simp [ser], rfl⟩)⟩
  | succ m ih =>
    obtain ⟨n, seen⟩ := k
    match x with
    | [] => exact ⟨leaf 0, .inr (.inr ⟨(leaf 0).ser, by simp [ser], rfl⟩)⟩
    | false :: b =>
      by_cases hb : b.length < 9
      · obtain ⟨v, hv⟩ := exists_msb 9 (b ++ List.replicate (9 - b.length) false) (by simp; omega)
        refine ⟨leaf v, .inr (.inr ⟨List.replicate (9 - b.length) false, ?_, ?_⟩)⟩
        · intro h
          have := congrArg List.length h
          simp at this
          omega
        · simp [checkedBits, ser, hv]
      · obtain ⟨v, hv⟩ := exists_msb 9 (b.take 9) (by simp; omega)
        have hs : false :: b = (leaf v).ser ++ b.drop 9 := by simp [ser, hv]
        cases hc : (leaf v).readChecks (n, seen) with
        | error e => exact ⟨leaf v, .inr (.inl ⟨e, b.drop 9, hc, hs⟩)⟩
        | ok k' => exact ⟨leaf v, .inl ⟨k', b.drop 9, hc, hs⟩⟩
    | true :: b =>
      by_cases hn : n = Config.maxInternal
      · exact ⟨internal (leaf 0) (leaf 0), .inr (.inl ⟨(.treeTooLarge, 0), b, by simp [readChecks, hn],
          by simp [checkedBits, hn]⟩)⟩
      · have hlen : b.length ≤ m := by simpa using hx
        obtain ⟨l, ⟨kl, rest, hl, hb⟩ | ⟨e, rest, hl, hb⟩ | ⟨q, hq, hb⟩⟩ := ih (n + 1, seen) b hlen
        · obtain ⟨r, ⟨kr, rest', hr, hb'⟩ | ⟨e, rest', hr, hb'⟩ | ⟨q, hq, hb'⟩⟩ :=
            ih kl rest (by have := congrArg List.length hb; simp at this; omega)
          · exact ⟨internal l r, .inl ⟨kr, rest', by simp [readChecks, hn, hl, hr], by simp [ser, hb, hb']⟩⟩
          · exact ⟨internal l r, .inr (.inl ⟨e, rest', by simp [readChecks, hn, hl, hr],
              by simp [checkedBits, hn, hl, hb, hb']⟩)⟩
          · exact ⟨internal l r, .inr (.inr ⟨q, hq, by simp [checkedBits, hn, hl, hb, hb']⟩)⟩
        · exact ⟨internal l (leaf 0), .inr (.inl ⟨e, rest, by simp [readChecks, hn, hl],
            by simp [checkedBits, hn, hl, hb]⟩)⟩
        · cases hl : l.readChecks (n + 1, seen) with
          | error e => exact ⟨internal l (leaf 0), .inr (.inr ⟨q, hq, by simp [checkedBits, hn, hl, hb]⟩)⟩
          | ok kl =>
            refine ⟨internal l (leaf 0), .inr (.inr ⟨q ++ (leaf 0).ser, by simp [hq], ?_⟩)⟩
            rw [checkedBits_of_ok hl] at hb
            simp [checkedBits, hn, hl, hb]

/-- Every input of TREE_RD is one of three: an accepted tree and what follows; the bits up to and including a failed check
and what follows; or an input that ends before either. -/
theorem inputs_of_treeRd (x : Bits) :
    ∃ t : CodeTree,
      (∃ rest, t.readFault = none ∧ x = t.ser ++ rest) ∨
      (∃ f info rest, t.readFault = some (f, info) ∧ x = t.bitsRead ++ rest) ∨
      (∃ q, q ≠ [] ∧ t.bitsRead = x ++ q) := by
  obtain ⟨t, ⟨⟨n, seen⟩, rest, h, hx⟩ | ⟨e, rest, h, hx⟩ | hx⟩ := checks_cover x.length (0, []) x (Nat.le_refl _)
  · by_cases he : Config.eos ∈ seen
    · exact ⟨t, .inl ⟨rest, by simp only [readFault, h, if_pos he], hx⟩⟩
    · exact ⟨t, .inr (.inl ⟨.noEosLeaf, 0, rest, by simp only [readFault, h, if_neg he], by rw [bitsRead_of_ok h, hx]⟩)⟩
  · exact ⟨t, .inr (.inl ⟨e.1, e.2, rest, by simp [readFault, h], hx⟩)⟩
  · exact ⟨t, .inr (.inr hx)⟩

end CodeTree

end Sys2Proof.Machine
end

