-- ==== Sys2Proof/Tests/Slice0.lean ====
section
/-! SUPPORT. Tests: expected values are those of spec/95_test_vectors.md (V-…) or written out from the encodings;
and for each statement with hypotheses a concrete input that meets them (`witness_…`). -/

namespace Sys2Proof.Tests

open Sys2Proof Sys2Proof.Machine

set_option maxRecDepth 100000
set_option Elab.async false

/-- The outcome is a next state with the property `p`. -/
def after (o : Host.Outcome State Fault Refusal) (p : State → Bool) : Bool :=
  match o with
  | .next t => p t
  | _ => false

theorem next_of_after {o : Host.Outcome State Fault Refusal} {p : State → Bool} (h : after o p = true) :
    ∃ t, o = .next t ∧ p t = true := by
  cases o with
  | next t => exact ⟨t, rfl, h⟩
  | fault r => simp [after] at h
  | refused r => simp [after] at h

/-! ### Small states -/

/-- The engine after reset with these bytes supplied. -/
def withInput (bs : List Byte) : State := { State.reset with inp := bs }

/-- The engine with no tree and one byte counter set. -/
def withCount (b : Byte) (v : Word) : State := State.reset.setFreq b v

theorem counts_withCount (b x : Byte) (v : Word) :
    (withCount b v).counts x = if x = b then v.toNat else 0 := by
  unfold State.counts withCount
  rw [freqAt_setFreq]
  split
  · rfl
  · simp [State.freqAt, State.reset]

/-- The tree of "AAB" (S1). -/
def aabTree : CodeTree := .internal (.leaf 65) (.internal (.leaf 66) (.leaf 256))

/-- Its code table: 65: `0`, 66: `10`, 256: `11` (V-B4). -/
def aabCode : Vector CodeEntry 257 :=
  ((State.reset.code.setIfInBounds 65 ⟨true, 1, [false]⟩).setIfInBounds 66 ⟨true, 2, [true, false]⟩).setIfInBounds 256
    ⟨true, 2, [true, true]⟩

/-- Node memory with these words first. -/
def nodesOf (ws : List Word) : Vector Word 513 :=
  (ws.zipIdx).foldl (fun m p => m.setIfInBounds p.2 p.1) State.reset.node

/-- The tree of "AAB" where BUILD puts it (V-B4). -/
def aabBuilt : State :=
  { State.reset with
    node := nodesOf [0x00000041, 0x00000042, 0x00000100, 0x80020001, 0x80030000]
    nnodes := 5, root := 4, treeValid := true, code := aabCode }

/-- The tree of "AAB" where TREE_RD puts it (V-D2). -/
def aabRead : State :=
  { State.reset with
    node := nodesOf [0x80020001, 0x00000041, 0x80040003, 0x00000042, 0x00000100]
    nnodes := 5, root := 0, treeValid := true, code := aabCode }

/-- A faulted engine (V-R9). -/
def faulted : State := { State.reset with fault := 10, finfo := 0x0000000B }

/-- An engine in the middle of a command. -/
def busyState : State := { State.reset with busy := true }

/-- One host move pending. -/
def withMove (m : HostMove) (s : State) : State := { s with moves := [m] }

/-! ### The words -/

theorem test_wf_zero_field : zeroFieldOk 0x00000103 = false ∧ wordWellFormed 0x00000103 = false := by decide +kernel
theorem test_wf_opcode : opcodeOk 0x0000000B = false ∧ wordWellFormed 0x0000000B = false := by decide +kernel
theorem test_wf_legal : wordWellFormed 0x0000000A = true ∧ wordWellFormed 0x00000000 = true := by decide +kernel
theorem test_wf_tree :
    (CodeTree.leaf 65).wellFormed = false ∧ (CodeTree.internal (.leaf 256) (.leaf 256)).wellFormed = false ∧
    (CodeTree.internal (.leaf 257) (.leaf 256)).wellFormed = false ∧ aabTree.wellFormed = true := by decide +kernel

theorem test_decode_nop : decode 0b00000000000000000000000000000000#32 = .ok .nop := by rfl
theorem test_decode_init : decode 0b00000000000000000000000000000001#32 = .ok .init := by rfl
theorem test_decode_hist : decode 0b00000000000000000000000000000010#32 = .ok .hist := by rfl
theorem test_decode_build : decode 0b00000000000000000000000000000011#32 = .ok .build := by rfl
theorem test_decode_hdr_wr : decode 0b00000000000000000000000000000100#32 = .ok .hdrWr := by rfl
theorem test_decode_tree_wr : decode 0b00000000000000000000000000000101#32 = .ok .treeWr := by rfl
theorem test_decode_enc : decode 0b00000000000000000000000000000110#32 = .ok .enc := by rfl
theorem test_decode_flush : decode 0b00000000000000000000000000000111#32 = .ok .flush := by rfl
theorem test_decode_hdr_rd : decode 0b00000000000000000000000000001000#32 = .ok .hdrRd := by rfl
theorem test_decode_tree_rd : decode 0b00000000000000000000000000001001#32 = .ok .treeRd := by rfl
theorem test_decode_dec : decode 0b00000000000000000000000000001010#32 = .ok .dec := by rfl
theorem test_decode_illegal :
    decode 0x0000000B = .error .reservedOpcode ∧ decode 0x000000FF = .error .reservedOpcode ∧
    decode 0x00000103 = .error .zeroFieldSet ∧ decode 0xFFFFFFFF = .error .zeroFieldSet := ⟨rfl, rfl, rfl, rfl⟩

/-! ### Bit primitives (part 2.1) -/

/-- V-M1 to V-M3. -/
theorem test_read_bits :
    (match readBit .malformedStream (withInput [0xA5, 0x3C]) with
      | .ok b s => b && s.iacc == 0xA5 && s.icnt == 7 && s.inp == [0x3C] &&
        (match readBits 3 .malformedStream s with
          | .ok v s => v == 2 && s.icnt == 4 &&
            (match readBits 9 .malformedStream s with
              | .ok v s => v == 167 && s.iacc == 0x3C && s.icnt == 3 && s.inp == []
              | _ => false)
          | _ => false)
      | _ => false) = true := by decide +kernel

/-- V-M5. -/
theorem test_read_bits_exhausted :
    (match readBits 32 .invalidFormat (withInput [0x00, 0x00, 0x07]) with
      | .raised f i s => f == .invalidFormat && i == 0 && s.inp == [] && s.icnt == 0 && s.iacc == 0x07
      | _ => false) = true := by decide +kernel

/-- V-M6 and V-M7. -/
theorem test_write_bits :
    (writeBits (5 : BitVec 3) State.reset).oacc = 0xA0 ∧
    (writeBits (0x1FF : BitVec 9) { State.reset with oacc := 0xA0, ocnt := 3 }).out = [0xBF] ∧
    (writeBits (0x1FF : BitVec 9) { State.reset with oacc := 0xA0, ocnt := 3 }).oacc = 0xF0 := by decide +kernel

/-- V-M8 and V-M9. -/
theorem test_flush_bits :
    (flushBits { State.reset with oacc := 0xF0, ocnt := 4 }).out = [0xF0] ∧ flushBits State.reset = State.reset :=
  ⟨rfl, rfl⟩

/-! ### Registers and dispatch (part 2.2) -/

/-- V-R1 to V-R3, V-R5, V-R7. -/
theorem test_reset_reads :
    [0x000, 0x001, 0x002, 0x003, 0x004, 0x005, 0x006, 0x0FF, 0x100, 0x1FF, 0x200, 0x300, 0x301, 0x400, 0x600, 0x601,
      0xFFF].map (fun a => readReg a State.reset) = 0x00000736 :: List.replicate 16 0 := by decide +kernel

/-- V-R4. -/
theorem test_freq_window :
    after (step (withMove (.memWrite 0x141 0xDEADBEEF) State.reset))
      (fun t => readReg 0x141 t == 0xDEADBEEF && readReg 0x140 t == 0 && readReg 0x142 t == 0) = true := by decide +kernel

/-- V-R9 and V-R10. -/
theorem test_illegal_word :
    after (step (State.reset.withFetchWord 32 0x0000000B))
      (fun t => t.fault == 10 && t.finfo == 0x0000000B && readReg 0x002 t == 0x00000004) = true ∧
    after (step (State.reset.withFetchWord 32 0x00000103))
      (fun t => t.fault == 10 && t.finfo == 0x00000103 && !t.treeValid) = true := by decide +kernel

/-- V-R12 to V-R14. -/
theorem test_faulted_state :
    after (step (faulted.withFetchWord 32 0x00000003)) (fun t => t.fault == 10 && !t.treeValid) = true ∧
    after (step (faulted.withFetchWord 32 0x0000000C)) (fun t => t.fault == 10 && t.finfo == 0x0000000B) = true ∧
    after (step (withMove (.memWrite 0x101 7) faulted)) (fun t => readReg 0x101 t == 7) = true := by decide +kernel

/-- V-P1 lines 7 to 13, on the tree of V-B4. -/
theorem test_tree_reads :
    [0x002, 0x005, 0x241, 0x242, 0x300, 0x243, 0x403, 0x404, 0x405].map (fun a => readReg a aabBuilt) =
      [0x00000002, 0x00050004, 0x80000001, 0x80000002, 0x80000002, 0, 0x80020001, 0x80030000, 0] := by decide +kernel

/-- STATUS with every field set. -/
theorem test_status_fields :
    readReg 0x002 { aabBuilt with busy := true, fault := 2, ocnt := 5, icnt := 6 } = 0x00000657 := by decide +kernel

/-! ### Tree Builder (part 2.3) -/

/-- V-H1. -/
theorem test_hist :
    after (exec .hist (withInput [0x41, 0x41, 0x42]))
      (fun t => t.freqAt 65 == 2 && t.freqAt 66 == 1 && t.freqAt 67 == 0 && t.inp == [] && readReg 0x002 t == 0) =
      true := by decide +kernel

/-- V-H4. -/
theorem test_hist_overflow :
    after (exec .hist { withCount 7 0xFFFFFFFF with inp := [0x03, 0x07, 0x03] })
      (fun t => t.fault == 9 && t.finfo == 7 && t.freqAt 3 == 1 && t.freqAt 7 == 0xFFFFFFFF && t.inp == [0x03]) =
      true := by decide +kernel

/-- V-B4. -/
theorem test_build_aab :
    after (exec .build ((withCount 65 2).setFreq 66 1))
      (fun t => t.node.toList.take 5 == [0x00000041, 0x00000042, 0x00000100, 0x80020001, 0x80030000] &&
        readReg 0x005 t == 0x00050004 && t.treeValid && readReg 0x241 t == 0x80000001 && readReg 0x242 t == 0x80000002) =
      true := by decide +kernel

/-- V-B3: the lighter EOS is removed first. -/
theorem test_build_one_symbol :
    after (exec .build (withCount 65 4))
      (fun t => t.node.toList.take 3 == [0x00000041, 0x00000100, 0x80000001] && t.fault == 0) = true := by decide +kernel

/-! ### Tree Codec (part 2.4) -/

/-- V-T4. -/
theorem test_tree_wr :
    after (exec .treeWr aabBuilt) (fun t => t.out == [0x88, 0x31, 0x09, 0x00] && t.ocnt == 0) = true := by decide +kernel

/-- V-T8. -/
theorem test_tree_wr_no_tree : after (exec .treeWr State.reset) (fun t => t.fault == 7 && t.out == []) = true := by decide +kernel

/-- V-D2. -/
theorem test_tree_rd :
    after (exec .treeRd (withInput [0x88, 0x31, 0x09, 0x00]))
      (fun t => t.node.toList.take 5 == [0x80020001, 0x00000041, 0x80040003, 0x00000042, 0x00000100] &&
        readReg 0x005 t == 0x00050000 && readReg 0x241 t == 0x80000001 && readReg 0x242 t == 0x80000002 &&
        readReg 0x300 t == 0x80000002 && readReg 0x002 t == 0x00000002) = true := by decide +kernel

/-- V-D8. -/
theorem test_tree_rd_duplicate :
    after (exec .treeRd (withInput [0x88, 0x22, 0x08]))
      (fun t => t.fault == 4 && t.finfo == 0x00000041 && t.icnt == 3 && readReg 0x005 t == 0 && readReg 0x400 t == 0) =
      true := by decide +kernel

/-! ### Symbol Encoder (part 2.5) -/

/-- V-E1. -/
theorem test_enc :
    after (exec .enc { aabBuilt with inp := [0x41, 0x41, 0x42] })
      (fun t => t.ocnt == 6 && t.oacc == 0x2C && t.out == [] && t.inp == [] && readReg 0x002 t == 0x00000062) =
      true := by decide +kernel

/-- V-E7. -/
theorem test_enc_unknown_byte :
    after (exec .enc { aabBuilt with inp := [0x41, 0x43, 0x41] })
      (fun t => t.fault == 8 && t.finfo == 0x43 && t.ocnt == 1 && t.oacc == 0 && t.inp == [0x41] &&
        readReg 0x002 t == 0x00000016) = true := by decide +kernel

/-! ### Symbol Decoder (part 2.6) -/

/-- V-X1. -/
theorem test_dec :
    after (exec .dec { aabRead with inp := [0x2C] })
      (fun t => t.out == [0x41, 0x41, 0x42] && t.icnt == 2 && t.iacc == 0x2C && t.inp == [] && t.cur == 4 &&
        readReg 0x002 t == 0x00000202) = true := by decide +kernel

/-- V-X7. -/
theorem test_dec_exhausted :
    after (exec .dec { aabRead with inp := [0x28] })
      (fun t => t.out == [0x41, 0x41, 0x42, 0x42, 0x41, 0x41] && t.fault == 2) = true := by decide +kernel

/-! ### Container and control (part 2.7) -/

/-- V-C2. -/
theorem test_hdr_wr :
    after (exec .hdrWr { State.reset with ocnt := 3, oacc := 0xA0 })
      (fun t => t.out == [0xA0, 0x00, 0x00, 0xE6] && t.ocnt == 3 && t.oacc == 0xC0) = true := by decide +kernel

/-- V-C3. -/
theorem test_hdr_rd :
    after (exec .hdrRd (withInput [0x00, 0x00, 0x07, 0x36, 0x88]))
      (fun t => t.fault == 0 && t.inp == [0x88] && t.icnt == 0 && t.iacc == 0x36) = true := by decide +kernel

/-- V-C4. -/
theorem test_hdr_rd_wrong :
    after (exec .hdrRd (withInput [0x00, 0x00, 0x07, 0x37, 0x88]))
      (fun t => t.fault == 1 && t.finfo == 0x00000737 && t.inp == [0x88] && readReg 0x002 t == 0x00000004) =
      true := by decide +kernel

/-- V-C8. -/
theorem test_flush :
    after (exec .flush { State.reset with ocnt := 6, oacc := 0x2C })
      (fun t => t.out == [0x2C] && t.ocnt == 0 && t.oacc == 0) = true := by decide +kernel

/-- V-C10. -/
theorem test_init :
    after (exec .init { (aabBuilt.setFreq 65 2) with ocnt := 6, oacc := 0x2C, icnt := 2, inp := [0xFF], out := [0x00] })
      (fun t => t.ocnt == 0 && t.oacc == 0 && t.icnt == 0 && t.iacc == 0 && !t.treeValid && readReg 0x005 t == 0 &&
        t.freqAt 65 == 0 && t.inp == [0xFF] && t.out == [0x00]) = true := by decide +kernel

/-- V-R8. -/
theorem test_nop : exec .nop State.reset = .next State.reset := rfl

/-! ### What the witnesses share -/

/-- The code table invariant as a check over the entries. -/
def codeCheck (s : State) (t : CodeTree) : Bool :=
  (List.finRange 257).all fun y =>
    match t.codeOf (BitVec.ofNat 9 y.val) with
    | none => !s.code[y].present
    | some (len, bits) => s.code[y] == ⟨true, len, bits⟩

theorem codeInv_of_check {s : State} (t : CodeTree) (hv : s.treeValid = true) (ht : s.tree = some t)
    (h : codeCheck s t = true) : s.CodeInv := by
  refine ⟨fun _ => ⟨t, ht, fun y hy => ?_⟩, fun h' => by simp [hv] at h'⟩
  have := (List.all_eq_true.mp h) ⟨y, hy⟩ (List.mem_finRange _)
  unfold CodeEntry.agrees
  revert this
  cases t.codeOf (BitVec.ofNat 9 y) with
  | none => simp
  | some e => intro this; simpa using this

/-- A state whose tree is that of "AAB" meets the tree invariant when its indices are a permutation of 0 to 4. -/
theorem treeInv_of_check {s : State} (t : CodeTree) (idx : List Nat) (ht : s.tree = some t) (hw : t.wellFormed = true)
    (hi : indicesFrom Config.nodeN s s.root = some idx) (hp : idx.Perm (List.range s.nnodes.toNat)) : s.TreeInv :=
  fun _ => ⟨t, idx, ht, hw, hi, hp⟩

theorem aabRead_tree : aabRead.tree = some aabTree := by decide +kernel
theorem aabBuilt_tree : aabBuilt.tree = some aabTree := by decide +kernel
theorem aabRead_codeInv : aabRead.CodeInv := codeInv_of_check aabTree rfl aabRead_tree (by decide +kernel)
theorem aabBuilt_codeInv : aabBuilt.CodeInv := codeInv_of_check aabTree rfl aabBuilt_tree (by decide +kernel)
theorem aabRead_treeInv : aabRead.TreeInv :=
  treeInv_of_check aabTree [0, 1, 2, 3, 4] aabRead_tree (by decide) (by decide +kernel) (by decide +kernel)
theorem aabBuilt_treeInv : aabBuilt.TreeInv :=
  treeInv_of_check aabTree [4, 0, 3, 1, 2] aabBuilt_tree (by decide) (by decide +kernel) (by decide +kernel)
theorem aabRead_inv : aabRead.Inv :=
  ⟨aabRead_treeInv, aabRead_codeInv, rfl, ⟨rfl, rfl, rfl⟩, ⟨by decide, fun _ => rfl⟩, Nat.le_refl _⟩
theorem aabBuilt_inv : aabBuilt.Inv :=
  ⟨aabBuilt_treeInv, aabBuilt_codeInv, rfl, ⟨rfl, rfl, rfl⟩, ⟨by decide, fun _ => rfl⟩, Nat.le_refl _⟩

theorem reset_inv : State.reset.Inv :=
  ⟨fun h => by simp [State.reset] at h,
    ⟨fun h => by simp [State.reset] at h, fun _ y hy => by simp [State.reset]⟩,
    rfl, ⟨rfl, rfl, rfl⟩, ⟨by decide, fun _ => rfl⟩, Nat.le_refl _⟩

/-! ### Witnesses: a concrete input for the hypotheses of each statement -/

theorem witness_LegalWordsAreZeroToTen :
    (0x00000000#32).toNat ≤ 0x0A ∧ (0x0000000A#32).toNat ≤ 0x0A ∧ 0x0A < (0x0000000B#32).toNat ∧
    0x0A < (0xFFFFFFFF#32).toNat := by decide

theorem witness_StepRunsTheDecodedCommand :
    ∃ (s : State) (v : Word) (i : Instr) (ms : List HostMove),
      s.moves = .memWrite 0x001 v :: ms ∧ s.busy = false ∧ decode v = .ok i :=
  ⟨State.reset.withFetchWord 32 0x0000000A, 0x0000000A, .dec, [], rfl, rfl, rfl⟩

/-- The clauses of FaultedStateObeysOnlyInit, each with a move of its own. -/
theorem witness_FaultedStateObeysOnlyInit :
    (faulted.fault ≠ 0 ∧ faulted.busy = false ∧ Instr.build ≠ .init) ∧
    (∃ s : State, s.fault ≠ 0 ∧ s.busy = false ∧ s.moves = .memWrite 0x001 0xFF :: [] ∧ (0xFF : Word) ≠ 0x00000001) ∧
    (∃ s : State, s.fault ≠ 0 ∧ s.busy = false ∧ s.moves = .memRead 0x003 :: []) ∧
    (∃ s : State, s.fault ≠ 0 ∧ s.busy = false ∧ s.moves = .memWrite (BitVec.ofNat 12 (0x100 + (1 : Byte).toNat)) 7 :: []) ∧
    (∃ s : State, s.fault ≠ 0 ∧ s.busy = false ∧ s.moves = .supply [1] :: []) ∧
    (∃ s : State, s.fault ≠ 0 ∧ s.busy = false ∧ s.moves = .discard :: []) ∧
    (∃ s t : State, s.fault ≠ 0 ∧ s.busy = false ∧ step s = .next t ∧ s.moves.head? ≠ some .reset ∧
      s.moves.head? ≠ some (.memWrite 0x001 0x00000001)) :=
  ⟨by decide, ⟨withMove (.memWrite 0x001 0xFF) faulted, by decide, rfl, rfl, by decide⟩,
    ⟨withMove (.memRead 0x003) faulted, by decide, rfl, rfl⟩,
    ⟨withMove (.memWrite 0x101 7) faulted, by decide, rfl, rfl⟩, ⟨withMove (.supply [1]) faulted, by decide, rfl, rfl⟩,
    ⟨withMove .discard faulted, by decide, rfl, rfl⟩, ⟨faulted, faulted, by decide, rfl, rfl, by decide, by decide⟩⟩

theorem witness_IllegalWordRaisesIllegalCommand :
    ∃ (s : State) (v : Word) (ms : List HostMove),
      s.moves = .memWrite 0x001 v :: ms ∧ s.IdleInv ∧ s.fault = 0 ∧ 0x0A < v.toNat :=
  ⟨State.reset.withFetchWord 32 0x0000000B, 0x0000000B, [], rfl, ⟨rfl, rfl, rfl⟩, rfl, by decide⟩

theorem witness_RaiseRecordsTheFault :
    ∃ (body : State → Cmd Unit) (s u : State) (f : FaultCode) (info : Word),
      s.fault = 0 ∧ body { s with busy := true } = .raised f info u :=
  ⟨treeWrBody, State.reset, busyState, .noTree, 0, rfl, rfl⟩

theorem witness_SomeCommandsNeverFault :
    (∃ (i : Instr) (s t : State), i ∈ [Instr.nop, .init, .build, .hdrWr, .flush] ∧ s.fault = 0 ∧ exec i s = .next t) ∧
    (∃ (s t : State), s.fault = 0 ∧ s.moves = .memRead 0xFFF :: [] ∧ step s = .next t) ∧
    (∃ (s t : State), s.fault = 0 ∧ s.moves = .memWrite 0x000 1 :: [] ∧ (0x000 : RegAddr) ≠ 0x001 ∧ step s = .next t) :=
  ⟨⟨.nop, State.reset, State.reset, by decide, rfl, rfl⟩, ⟨withMove (.memRead 0xFFF) State.reset, _, rfl, rfl, rfl⟩,
    ⟨withMove (.memWrite 0x000 1) State.reset, _, rfl, rfl, by decide, rfl⟩⟩

theorem witness_NopChangesNothing : State.reset.fault = 0 ∧ faulted.fault ≠ 0 := ⟨rfl, by decide⟩

/-- Each clause of FlushEmitsThePartialByte, the last with seven pending bits. -/
theorem witness_FlushEmitsThePartialByte :
    ∃ s : State, State.reset.fault = 0 ∧ State.reset.ocnt = 0 ∧ State.reset.PackerInv ∧
      s.fault = 0 ∧ s.ocnt ≠ 0 ∧ s.ocnt = 7 ∧ s.PackerInv :=
  ⟨{ State.reset with ocnt := 7, oacc := 0xFE }, rfl, rfl, rfl, rfl, by decide, rfl, rfl⟩

theorem witness_HdrWrWritesTheHeader :
    ∃ s : State, State.reset.fault = 0 ∧ State.reset.ocnt = 0 ∧ State.reset.PackerInv ∧
      s.fault = 0 ∧ s.ocnt = 7 ∧ s.PackerInv :=
  ⟨{ State.reset with ocnt := 7, oacc := 0xFE }, rfl, rfl, rfl, rfl, rfl, rfl⟩

/-- The clauses of HdrRdChecksTheHeader: the header alone, a value one too large, and 31 bits. -/
theorem witness_HdrRdChecksTheHeader :
    (∃ s : State, s.fault = 0 ∧ s.inBits = msb (1846 : Word) ++ []) ∧
    (∃ s : State, s.fault = 0 ∧ (1847 : Word) ≠ 1846 ∧ s.inBits = msb (1847 : Word) ++ []) ∧
    (∃ s : State, s.fault = 0 ∧ s.inBits.length = 31 ∧ s.inBits.length < 32) :=
  ⟨⟨withInput [0x00, 0x00, 0x07, 0x36], rfl, by decide⟩, ⟨withInput [0x00, 0x00, 0x07, 0x37], rfl, by decide, by decide⟩,
    ⟨{ withInput [0x00, 0x07, 0x36] with icnt := 7 }, rfl, by decide, by decide⟩⟩

/-- V-H5: the counter reaches its top and no more. -/
theorem witness_HistCountsTheBytes :
    ∃ s : State, s.fault = 0 ∧ s.icnt = 0 ∧ s.counts 7 + s.inp.count 7 = 2 ^ 32 - 1 ∧
      ∀ b, s.counts b + s.inp.count b ≤ 2 ^ 32 - 1 :=
  ⟨{ withCount 7 0xFFFFFFFE with inp := [7] }, rfl, rfl, by decide, fun b => by
    show (withCount 7 0xFFFFFFFE).counts b + _ ≤ _
    rw [counts_withCount]
    split
    · subst b; decide
    · have := List.count_le_length (a := b) (l := [7]); simp at this ⊢; omega⟩

/-- V-H4. -/
theorem witness_HistStopsAtAFullCounter :
    ∃ (s : State) (pre post : List Byte) (b : Byte), s.fault = 0 ∧ s.icnt = 0 ∧ s.inp = pre ++ b :: post ∧
      (∀ c, s.counts c + pre.count c ≤ 2 ^ 32 - 1) ∧ s.counts b + pre.count b = 2 ^ 32 - 1 :=
  ⟨{ withCount 7 0xFFFFFFFF with inp := [3, 7, 3] }, [3], [3], 7, rfl, rfl, rfl, fun x => by
    show (withCount 7 0xFFFFFFFF).counts x + _ ≤ _
    rw [counts_withCount]
    split
    · subst x; decide
    · have := List.count_le_length (a := x) (l := [3]); simp at this ⊢; omega, by decide⟩

/-- V-H6 and V-E9. -/
theorem witness_RawBytesNeedAlignment :
    (∃ s : State, s.fault = 0 ∧ s.icnt ≠ 0) ∧ (∃ s : State, s.fault = 0 ∧ s.icnt ≠ 0 ∧ s.treeValid = true) :=
  ⟨⟨{ State.reset with icnt := 7 }, rfl, by decide⟩, ⟨{ aabBuilt with icnt := 3 }, rfl, by decide, rfl⟩⟩

theorem witness_CommandsNeedATree :
    State.reset.fault = 0 ∧ State.reset.treeValid = false ∧
    Instr.treeWr ∈ [Instr.treeWr, .enc, .dec] ∧ Instr.enc ∈ [Instr.treeWr, .enc, .dec] ∧
    Instr.dec ∈ [Instr.treeWr, .enc, .dec] := by decide

theorem witness_BuildMakesTheTreeOfTheTable : (withCount 65 2).fault = 0 := rfl

/-- V-B4: two symbols. -/
theorem witness_BuildAllocatesLeavesThenMerges :
    ∃ (s t : State) (leaves : List Byte) (L : Nat), s.fault = 0 ∧ exec .build s = .next t ∧
      leaves = presentBytes s.counts ∧ L = leaves.length + 1 := by
  obtain ⟨t, h, -⟩ := next_of_after test_build_aab
  exact ⟨_, t, _, _, rfl, h, rfl, rfl⟩

/-- The clauses of BuildOnFewSymbols: the empty table (V-B1), count 1 (V-B2), count 2 (V-B12). -/
theorem witness_BuildOnFewSymbols :
    (∃ s t : State, s.fault = 0 ∧ exec .build s = .next t ∧ ∀ b, s.counts b = 0) ∧
    (∃ s t : State, s.fault = 0 ∧ exec .build s = .next t ∧ (∀ b, b ≠ 65 → s.counts b = 0) ∧ s.counts 65 = 1) ∧
    (∃ s t : State, s.fault = 0 ∧ exec .build s = .next t ∧ (∀ b, b ≠ 65 → s.counts b = 0) ∧ 2 ≤ s.counts 65) := by
  obtain ⟨t0, h0, -⟩ := next_of_after (o := exec .build State.reset) (p := fun _ => true) (by decide +kernel)
  obtain ⟨t1, h1, -⟩ := next_of_after (o := exec .build (withCount 65 1)) (p := fun _ => true) (by decide +kernel)
  obtain ⟨t2, h2, -⟩ := next_of_after test_build_one_symbol
  exact ⟨⟨_, t0, rfl, h0, fun b => by simp [State.counts, State.freqAt, State.reset]⟩,
    ⟨_, t1, rfl, h1, fun b hb => by rw [counts_withCount, if_neg hb], by decide⟩,
    ⟨_, t2, rfl, h2, fun b hb => by rw [counts_withCount, if_neg hb], by decide⟩⟩

theorem witness_BuildEstablishesTheTree : ∃ s t : State, s.fault = 0 ∧ exec .build s = .next t := by
  obtain ⟨t, h, -⟩ := next_of_after test_build_aab
  exact ⟨_, t, rfl, h⟩

/-- The tree of V-B2, and the other tree of its leaves. -/
theorem witness_BuiltTreeIsOptimal :
    ∃ (f : Byte → Nat) (t u : CodeTree), buildTree f = some t ∧ u.symbols.Perm t.symbols :=
  ⟨fun b => if b = 65 then 1 else 0, .internal (.leaf 65) (.leaf 256), .internal (.leaf 256) (.leaf 65),
    by decide +kernel, by decide⟩

theorem witness_TreeWrWritesTheSerialization :
    ∃ (s : State) (t : CodeTree), s.fault = 0 ∧ s.treeValid = true ∧ s.tree = some t ∧ s.PackerInv :=
  ⟨aabBuilt, aabTree, rfl, rfl, aabBuilt_tree, rfl⟩

/-- The serialization of "AAB"'s tree, whole and without its last bit. -/
theorem witness_DesInvertsSer :
    ∃ (t : CodeTree) (p q : Bits), t.ser = p ++ q ∧ q ≠ [] ∧ p.length = 31 :=
  ⟨aabTree, aabTree.ser.take 31, aabTree.ser.drop 31, by decide, by decide, by decide⟩

theorem witness_TreeRdReadsTheTree :
    ∃ (s : State) (t : CodeTree) (rest : Bits), s.fault = 0 ∧ t.readFault = none ∧ s.inBits = t.ser ++ rest :=
  ⟨withInput [0x88, 0x31, 0x09, 0x00], aabTree, [], rfl, by decide, by decide⟩

/-- A tree of 257 Internal nodes, all on the left. -/
def leftComb : CodeTree := (List.range 257).foldl (fun t _ => .internal t (.leaf 0)) (.leaf 256)

/-- The four faults of TreeRdReportsTheFirstFault: V-D6; V-D8; a repeated symbol inside a tree the input does not hold
whole; V-D9; and V-D10, whose 33 bytes end long before the tree would. -/
theorem witness_TreeRdReportsTheFirstFault :
    (∃ (s : State) (t : CodeTree) (rest : Bits), s.fault = 0 ∧ t.readFault = some (.badSymbol, 0x101) ∧
      s.inBits = t.bitsRead ++ rest) ∧
    (∃ (s : State) (t : CodeTree) (rest : Bits), s.fault = 0 ∧ t.readFault = some (.duplicateSymbol, 0x41) ∧
      s.inBits = t.bitsRead ++ rest) ∧
    (∃ (s : State) (t : CodeTree) (rest : Bits), s.fault = 0 ∧ t.readFault = some (.duplicateSymbol, 0x41) ∧
      s.inBits = t.bitsRead ++ rest ∧ s.inBits.length < t.ser.length) ∧
    (∃ (s : State) (t : CodeTree) (rest : Bits), s.fault = 0 ∧ t.readFault = some (.noEosLeaf, 0) ∧
      s.inBits = t.bitsRead ++ rest) ∧
    (∃ (s : State) (t : CodeTree) (rest : Bits), s.fault = 0 ∧ t.readFault = some (.treeTooLarge, 0) ∧
      s.inBits = t.bitsRead ++ rest ∧ s.inp = List.replicate 33 0xFF ∧ rest.length = 7) :=
  ⟨⟨withInput [0x40, 0x40], .leaf 257, [false, false, false, false, false, false], rfl, by decide, by decide⟩,
    ⟨withInput [0x88, 0x22, 0x08], .internal (.leaf 65) (.leaf 65), [false, false, false], rfl, by decide, by decide⟩,
    ⟨withInput [0xC4, 0x11, 0x04], .internal (.internal (.leaf 65) (.leaf 65)) (.leaf 256), [false, false], rfl,
      by decide, by decide, by decide⟩,
    ⟨withInput [0x88, 0x22, 0x10], .internal (.leaf 65) (.leaf 66), [false, false, false], rfl, by decide, by decide⟩,
    ⟨withInput (List.replicate 33 0xFF), leftComb, List.replicate 7 true, rfl, by decide +kernel, by decide +kernel, rfl,
      rfl⟩⟩

/-- V-D13 (no bit at all); one bit short of a good tree; V-D11 (256 Internal tags); a field that can only end above 256
(`0 1 1`); a field that can only end in the symbol already seen. -/
theorem witness_TreeRdNeedsTheWholeTree :
    (∃ (s : State) (t : CodeTree) (q : Bits), s.fault = 0 ∧ t.bitsRead = s.inBits ++ q ∧ q ≠ [] ∧ s.inBits = []) ∧
    (∃ (s : State) (t : CodeTree) (q : Bits), s.fault = 0 ∧ t.bitsRead = s.inBits ++ q ∧ q ≠ [] ∧ q.length = 1 ∧
      t.readFault = none) ∧
    (∃ (s : State) (t : CodeTree) (q : Bits), s.fault = 0 ∧ t.bitsRead = s.inBits ++ q ∧ q ≠ [] ∧
      s.inp = List.replicate 32 0xFF) ∧
    (∃ (s : State) (t : CodeTree) (q : Bits), s.fault = 0 ∧ t.bitsRead = s.inBits ++ q ∧ q ≠ [] ∧
      s.inBits = [false, true, true]) ∧
    (∃ (s : State) (t : CodeTree) (q : Bits), s.fault = 0 ∧ t.bitsRead = s.inBits ++ q ∧ q ≠ [] ∧ q.length = 1 ∧
      t.readFault = some (.duplicateSymbol, 256)) :=
  ⟨⟨State.reset, aabTree, aabTree.ser, rfl, by decide, by decide, by decide⟩,
    ⟨{ withInput [0x18, 0x84, 0x80] with iacc := 0x44, icnt := 7 }, aabTree, [false], rfl, by decide, by decide, rfl,
      by decide⟩,
    ⟨withInput (List.replicate 32 0xFF), leftComb, [true], rfl, by decide +kernel, by decide, rfl⟩,
    ⟨{ State.reset with iacc := 0x03, icnt := 3 }, .leaf 384, List.replicate 7 false, rfl, by decide, by decide, by decide⟩,
    ⟨{ withInput [0x00, 0x80] with iacc := 0x0A, icnt := 4 }, .internal (.leaf 256) (.leaf 256), [false], rfl, by decide,
      by decide, rfl, by decide⟩⟩

theorem witness_TreeRdLaysOutInPreorder :
    ∃ s u : State, s.fault = 0 ∧ s.PackerInv ∧ exec .treeRd s = .next u ∧ u.fault = 0 := by
  obtain ⟨u, h, hf⟩ := next_of_after
    (o := exec .treeRd (withInput [0x88, 0x31, 0x09, 0x00])) (p := fun u => u.fault == 0) (by decide +kernel)
  exact ⟨withInput [0x88, 0x31, 0x09, 0x00], u, rfl, rfl, h, by simpa using hf⟩

/-- The same input serves TreeRdEstablishesTheTree and TreeWrRepeatsWhatTreeRdRead. -/
theorem witness_TreeRdEstablishesTheTree :
    ∃ s t : State, s.fault = 0 ∧ s.PackerInv ∧ exec .treeRd s = .next t ∧ t.fault = 0 := witness_TreeRdLaysOutInPreorder

theorem witness_TreeWrRepeatsWhatTreeRdRead :
    ∃ s u : State, s.fault = 0 ∧ s.PackerInv ∧ exec .treeRd s = .next u ∧ u.fault = 0 := witness_TreeRdLaysOutInPreorder

theorem witness_TreeRoundTrip :
    ∃ (s w r : State) (rest : Bits), s.fault = 0 ∧ s.treeValid = true ∧ s.TreeInv ∧ s.PackerInv ∧
      exec .treeWr s = .next w ∧ r.fault = 0 ∧ r.inBits = w.outBits.drop s.outBits.length ++ rest := by
  obtain ⟨w, h, hw⟩ := next_of_after (o := exec .treeWr aabBuilt)
    (p := fun w => w.outBits.drop aabBuilt.outBits.length == aabTree.ser) (by decide +kernel)
  refine ⟨aabBuilt, w, withInput [0x88, 0x31, 0x09, 0x00], [], rfl, rfl, aabBuilt_treeInv, rfl, h, rfl, ?_⟩
  rw [beq_iff_eq.mp hw]
  decide

theorem witness_EncWritesTheCodes :
    ∃ (s : State) (t : CodeTree) (x : Bits), s.fault = 0 ∧ s.treeValid = true ∧ s.icnt = 0 ∧ s.tree = some t ∧
      s.CodeInv ∧ s.PackerInv ∧ t.encodeBytes s.inp = some x :=
  ⟨{ aabBuilt with inp := [65, 65, 66] }, aabTree, [false, false, true, false, true, true], rfl, rfl, rfl, aabBuilt_tree,
    aabBuilt_codeInv, rfl, by decide⟩

/-- V-E7. -/
theorem witness_EncStopsAtAnUnknownByte :
    ∃ (s : State) (t : CodeTree) (pre post : List Byte) (b : Byte) (x : Bits),
      s.fault = 0 ∧ s.treeValid = true ∧ s.icnt = 0 ∧ s.tree = some t ∧ s.CodeInv ∧ s.PackerInv ∧
      s.inp = pre ++ b :: post ∧ t.codesOf pre = some x ∧ t.path (byteSym b) = none :=
  ⟨{ aabBuilt with inp := [65, 67, 65] }, aabTree, [65], [65], 67, [false], rfl, rfl, rfl, aabBuilt_tree, aabBuilt_codeInv,
    rfl, rfl, by decide, by decide⟩

theorem witness_NoCodeBeginsAnother :
    ∃ (t : CodeTree) (a b : Sym) (p q : Bits), t.path a = some p ∧ t.path b = some q ∧ a ≠ b :=
  ⟨aabTree, 66, 256, [true, false], [true, true], by decide, by decide, by decide⟩

/-- V-X1 and V-X7; the empty input (V-X5). -/
theorem witness_DecComputesDecode :
    (∃ (s : State) (t : CodeTree) (bytes : List Byte) (rest : Bits), s.fault = 0 ∧ s.treeValid = true ∧ s.tree = some t ∧
      t.wellFormed = true ∧ s.PackerInv ∧ t.decode s.inBits = some (bytes, some rest)) ∧
    (∃ (s : State) (t : CodeTree) (bytes : List Byte), s.fault = 0 ∧ s.treeValid = true ∧ s.tree = some t ∧
      t.wellFormed = true ∧ s.PackerInv ∧ t.decode s.inBits = some (bytes, none)) ∧
    (aabTree.decode aabRead.inBits = some ([], none)) :=
  ⟨⟨{ aabRead with inp := [0x2C] }, aabTree, [65, 65, 66], [false, false], rfl, rfl, aabRead_tree, by decide, rfl,
      by decide⟩,
    ⟨{ aabRead with inp := [0x28] }, aabTree, [65, 65, 66, 66, 65, 65], rfl, rfl, aabRead_tree, by decide, rfl,
      by decide⟩,
    by decide⟩

theorem witness_DecodeInvertsEncode :
    ∃ (t : CodeTree) (bytes : List Byte) (x : Bits), t.wellFormed = true ∧ t.encodeBytes bytes = some x :=
  ⟨aabTree, [65, 65, 66], [false, false, true, false, true, true], by decide, by decide⟩

theorem witness_DecodingAlwaysEnds : aabTree.wellFormed = true ∧ (CodeTree.leaf 256).wellFormed = true := by decide

/-- WindowReads and RegisterReads at the ends of every range. -/
theorem witness_WindowReads :
    (0x100 : RegAddr).toNat = 0x100 + (0 : Byte).toNat ∧ (0x1FF : RegAddr).toNat = 0x100 + (255 : Byte).toNat ∧
    ((0x200 : RegAddr).toNat = 0x200 + 0 ∧ 0 < 257 ∧ aabRead.code[0].present = false) ∧
    ((0x300 : RegAddr).toNat = 0x200 + 256 ∧ 256 < 257 ∧ aabRead.code[256].present = true) ∧
    ((0x404 : RegAddr).toNat = 0x400 + 4 ∧ 4 < aabRead.nnodes.toNat) ∧
    ((0x600 : RegAddr).toNat = 0x400 + 512 ∧ 512 < 513 ∧ ¬ 512 < aabRead.nnodes.toNat) ∧
    (0x0FF : RegAddr).toNat ≤ 0x0FF ∧ 0x301 ≤ (0x301 : RegAddr).toNat ∧ (0x3FF : RegAddr).toNat ≤ 0x3FF ∧
    0x601 ≤ (0x601 : RegAddr).toNat ∧ 0x601 ≤ (0xFFF : RegAddr).toNat := by decide +kernel

theorem witness_ReadsHaveNoEffect :
    ∃ (s : State) (a : RegAddr) (ms : List HostMove), s.moves = .memRead a :: ms ∧ s.busy = false :=
  ⟨withMove (.memRead 0x005) aabRead, 0x005, [], rfl, rfl⟩

/-- The first and the last counter, and the addresses beside the window. -/
theorem witness_RegisterWrites :
    (∃ (s : State) (v : Word) (ms : List HostMove), s.moves = .memWrite 0x100 v :: ms ∧ s.busy = false ∧
      (0x100 : RegAddr).toNat = 0x100 + (0 : Byte).toNat) ∧
    (∃ (s : State) (v : Word) (ms : List HostMove), s.moves = .memWrite 0x1FF v :: ms ∧ s.busy = false ∧
      (0x1FF : RegAddr).toNat = 0x100 + (255 : Byte).toNat) ∧
    (∃ (s : State) (v : Word) (ms : List HostMove), s.moves = .memWrite 0x200 v :: ms ∧ s.busy = false ∧
      (0x200 : RegAddr) ≠ 0x001 ∧ ¬ (0x100 ≤ (0x200 : RegAddr).toNat ∧ (0x200 : RegAddr).toNat ≤ 0x1FF)) :=
  ⟨⟨withMove (.memWrite 0x100 1) State.reset, 1, [], rfl, rfl, by decide⟩,
    ⟨withMove (.memWrite 0x1FF 1) State.reset, 1, [], rfl, rfl, by decide⟩,
    ⟨withMove (.memWrite 0x200 1) State.reset, 1, [], rfl, rfl, by decide, by decide⟩⟩

/-- One state for each clause of StreamMoves; the last two show both branches of `takeByte`. -/
theorem witness_StreamMoves :
    (withMove (.supply [1]) State.reset).moves = .supply [1] :: [] ∧
    (withMove .discard (withInput [1])).moves = .discard :: [] ∧ (withMove .discard (withInput [1])).busy = false ∧
    State.reset.moves = [] ∧ (withMove .takeByte State.reset).moves = .takeByte :: [] ∧
    (∃ s : State, s.moves = .takeByte :: [] ∧ s.taken < s.out.length) :=
  ⟨rfl, rfl, rfl, rfl, rfl, withMove .takeByte { State.reset with out := [1] }, rfl, by decide⟩

theorem witness_ResetMoveClearsTheEngine :
    ∃ (s : State) (ms : List HostMove), s.moves = .reset :: ms ∧ s.treeValid = true :=
  ⟨withMove .reset aabRead, [], rfl, rfl⟩

/-- One state for each clause of HostAccessWhileBusy. -/
theorem witness_HostAccessWhileBusy :
    (∃ s : State, s.busy = true ∧ s.moves = .memRead 0x002 :: []) ∧
    (∃ s : State, s.busy = true ∧ s.moves = .memRead 0x100 :: []) ∧
    (∃ s : State, s.busy = true ∧ s.moves = .memWrite 0x001 1 :: []) ∧
    (∃ s : State, s.busy = true ∧ s.moves = .memWrite (BitVec.ofNat 12 (0x100 + (255 : Byte).toNat)) 1 :: []) :=
  ⟨⟨withMove (.memRead 0x002) busyState, rfl, rfl⟩, ⟨withMove (.memRead 0x100) busyState, rfl, rfl⟩,
    ⟨withMove (.memWrite 0x001 1) busyState, rfl, rfl⟩, ⟨withMove (.memWrite 0x1FF 1) busyState, rfl, rfl⟩⟩

theorem witness_OutOnlyGrows :
    ∃ s t : State, step s = .next t ∧ t.out = [0x00, 0x00, 0x07, 0x36] := by
  obtain ⟨t, h, ht⟩ := next_of_after (o := step (State.reset.withFetchWord 32 4))
    (p := fun t => t.out == [0x00, 0x00, 0x07, 0x36]) (by decide +kernel)
  exact ⟨_, t, h, by simpa using ht⟩

theorem witness_InputIsConsumedFromTheFront :
    (∃ (i : Instr) (s t : State), exec i s = .next t ∧ s.inp = [1] ∧ t.inp = []) ∧
    (∃ s t : State, step s = .next t ∧ t.inp = [1]) := by
  obtain ⟨t, h, ht⟩ := next_of_after (o := exec .hist (withInput [1])) (p := fun t => t.inp == []) (by decide +kernel)
  exact ⟨⟨.hist, _, t, h, rfl, by simpa using ht⟩, withMove (.supply [1]) State.reset, _, rfl, rfl⟩

/-- A write beside CMD, and CMD writes of HIST and of an illegal word whose low byte is BUILD's. -/
theorem witness_TheTreeIsImmutable :
    (∃ (i : Instr) (s t : State), i ≠ .build ∧ i ≠ .treeRd ∧ i ≠ .init ∧ exec i s = .next t ∧ s.treeValid = true) ∧
    (∀ m ∈ [HostMove.memWrite 0x143 9, .memWrite 0x001 2, .memWrite 0x001 0x103],
      ∃ s t : State, step s = .next t ∧ s.moves.head? = some m ∧ s.moves.head? ≠ some .reset ∧
        (∀ v, s.moves.head? = some (.memWrite 0x001 v) → v ≠ 0x00000001 ∧ v ≠ 0x00000003 ∧ v ≠ 0x00000009) ∧
        s.treeValid = true) := by
  refine ⟨⟨.nop, aabRead, _, by decide, by decide, by decide, rfl, rfl⟩, ?_⟩
  simp only [List.forall_mem_cons, List.not_mem_nil, false_implies, implies_true, and_true]
  refine ⟨⟨withMove (.memWrite 0x143 9) aabRead, _, rfl, rfl, by decide, ?_, rfl⟩,
    ⟨withMove (.memWrite 0x001 2) aabRead, _, rfl, rfl, by decide, ?_, rfl⟩,
    ⟨withMove (.memWrite 0x001 0x103) aabRead, _, rfl, rfl, by decide, ?_, rfl⟩⟩ <;>
    intro v <;> simp [withMove] <;> rintro rfl <;> decide

/-- A move that is no write; writes to the addresses beside the FREQ window and to ID; CMD writes of NOP and of an illegal
word. -/
theorem witness_FreqHasFewWriters :
    (∃ (i : Instr) (s t : State), i ≠ .hist ∧ i ≠ .init ∧ exec i s = .next t) ∧
    (∀ m ∈ [HostMove.discard, .memWrite 0x000 1, .memWrite 0x0FF 1, .memWrite 0x200 1, .memWrite 0x001 0,
        .memWrite 0x001 0x102],
      ∃ s t : State, step s = .next t ∧ s.moves.head? = some m ∧ s.moves.head? ≠ some .reset ∧
        ∀ a v, s.moves.head? = some (.memWrite a v) →
          ¬ (0x100 ≤ a.toNat ∧ a.toNat ≤ 0x1FF) ∧ (a = 0x001 → v ≠ 0x00000001 ∧ v ≠ 0x00000002)) := by
  refine ⟨⟨.nop, State.reset, _, by decide, by decide, rfl⟩, ?_⟩
  simp only [List.forall_mem_cons, List.not_mem_nil, false_implies, implies_true, and_true]
  refine ⟨⟨withMove .discard State.reset, _, rfl, rfl, by decide, ?_⟩,
    ⟨withMove (.memWrite 0x000 1) State.reset, _, rfl, rfl, by decide, ?_⟩,
    ⟨withMove (.memWrite 0x0FF 1) State.reset, _, rfl, rfl, by decide, ?_⟩,
    ⟨withMove (.memWrite 0x200 1) State.reset, _, rfl, rfl, by decide, ?_⟩,
    ⟨withMove (.memWrite 0x001 0) State.reset, _, rfl, rfl, by decide, ?_⟩,
    ⟨withMove (.memWrite 0x001 0x102) State.reset, _, rfl, rfl, by decide, ?_⟩⟩ <;>
    intro a v <;> simp [withMove] <;> rintro rfl rfl <;> decide

theorem witness_StepKeepsPackerAndIdle :
    ∃ s t : State, s.PackerInv ∧ s.IdleInv ∧ s.FaultInv ∧ s.TakenInv ∧ step s = .next t :=
  ⟨State.reset, State.reset, reset_inv.2.2.1, reset_inv.2.2.2.1, reset_inv.2.2.2.2.1, reset_inv.2.2.2.2.2, rfl⟩

theorem witness_StepKeepsTreeAndCodes :
    ∃ s t : State, s.TreeInv ∧ s.CodeInv ∧ step s = .next t ∧ s.treeValid = true :=
  ⟨withMove (.memRead 0x005) aabRead, _, aabRead_treeInv, aabRead_codeInv, rfl, rfl⟩

theorem witness_NoStepStops : ∃ s : State, s.Inv ∧ s.treeValid = true := ⟨aabBuilt, aabBuilt_inv, rfl⟩

theorem witness_TreeInvariantBounds : ∃ s : State, s.TreeInv ∧ s.treeValid = true := ⟨aabRead, aabRead_treeInv, rfl⟩

/-- The two layouts of one tree. -/
theorem witness_EqualTreesGiveEqualResults :
    ∃ (s r : State), s.Inv ∧ r.Inv ∧ s.treeValid = true ∧ s.tree = r.tree ∧
      r = { s with node := r.node, nnodes := r.nnodes, root := r.root, code := r.code, freq := r.freq, cur := r.cur } ∧
      s.root ≠ r.root :=
  ⟨aabBuilt, aabRead, aabBuilt_inv, aabRead_inv, rfl, aabBuilt_tree.trans aabRead_tree.symm, rfl, by decide⟩

theorem witness_EncodeFileWritesTheContainer :
    ∃ (s : State) (bytes : List Byte), s.busy = false ∧ s.inp = [] ∧ ∀ b, bytes.count b < 2 ^ 32 :=
  ⟨State.reset, [65, 65, 66], rfl, rfl, fun b => Nat.lt_of_le_of_lt List.count_le_length (by decide)⟩

theorem witness_FileRoundTrip :
    ∃ (s r : State) (bytes : List Byte), s.busy = false ∧ s.inp = [] ∧ r.busy = false ∧ r.inp = [] ∧
      ∀ b, bytes.count b < 2 ^ 32 :=
  ⟨State.reset, faulted, [65, 65, 66], rfl, rfl, rfl, rfl, fun b =>
    Nat.lt_of_le_of_lt List.count_le_length (by decide)⟩

end Sys2Proof.Tests
end

section
/-! PROOF. The tree in node memory (10_state.md R24, R25) as a relation that follows the shape of the tree, free of the
bound that `treeAt` and `indicesFrom` count down, and the sizes that a tree of the invariant has. -/

namespace Sys2Proof.Machine

namespace CodeTree

/-! ### Sizes of abstract trees -/

theorem internalCount_add_one (t : CodeTree) : t.internalCount + 1 = t.symbols.length := by
  induction t with
  | leaf y => rfl
  | internal l r ihl ihr => simp [internalCount, symbols, ← ihl, ← ihr]; omega

theorem depth_le_internalCount (t : CodeTree) : t.depth ≤ t.internalCount := by
  induction t with
  | leaf y => exact Nat.le_refl 0
  | internal l r ihl ihr => simp [depth, internalCount]; omega

theorem depth_internal_lt {l r : CodeTree} {n : Nat} : (internal l r).depth < n + 1 ↔ l.depth < n ∧ r.depth < n := by
  simp [depth]

theorem symbols_length_pos (t : CodeTree) : 1 ≤ t.symbols.length := by
  have := t.internalCount_add_one
  omega

/-- Items 4 and 5 of 10_state.md R24, one by one. -/
theorem wellFormed_iff (t : CodeTree) :
    t.wellFormed = true ↔ (∀ y ∈ t.symbols, y ≤ Config.eos) ∧ t.symbols.Nodup ∧ Config.eos ∈ t.symbols := by
  simp [wellFormed, and_assoc]

end CodeTree

/-- There are 257 symbols (10_state.md R24 item 6). -/
theorem distinct_symbols_length {ys : List Sym} (hle : ∀ y ∈ ys, y ≤ Config.eos) (hnd : ys.Nodup) :
    ys.length ≤ 257 := by
  have hmap : (ys.map BitVec.toNat).Nodup := hnd.map (fun _ _ h => BitVec.eq_of_toNat_eq h)
  have hsub : ys.map BitVec.toNat ⊆ List.range 257 := by
    intro n hn
    obtain ⟨y, hy, rfl⟩ := List.mem_map.mp hn
    have h256 : y.toNat ≤ 256 := hle y hy
    exact List.mem_range.mpr (by omega)
  simpa using (hmap.subperm hsub).length_le

theorem CodeTree.wellFormed_symbols_length {t : CodeTree} (h : t.wellFormed = true) : t.symbols.length ≤ 257 := by
  obtain ⟨hle, hnd, _⟩ := t.wellFormed_iff.mp h
  exact distinct_symbols_length hle hnd

theorem CodeTree.wellFormed_depth {t : CodeTree} (h : t.wellFormed = true) : t.depth ≤ 256 := by
  have h1 := t.depth_le_internalCount
  have h2 := t.internalCount_add_one
  have h3 := CodeTree.wellFormed_symbols_length h
  omega

/-! ### The relation -/

/-- The node words `mem` from index `i` form the tree `t`, and `idx` are the indices met on the way, in preorder
(10_state.md R24 item 3, R25). -/
inductive Spans (mem : Idx → Option Word) : Idx → CodeTree → List Nat → Prop
  | leaf {i : Idx} {w : Word} (hw : mem i = some w) (hk : nodeKind w = false) :
      Spans mem i (.leaf (nodeSym w)) [i.toNat]
  | internal {i : Idx} {w : Word} {l r : CodeTree} {li ri : List Nat} (hw : mem i = some w) (hk : nodeKind w = true)
      (hl : Spans mem (nodeLeft w) l li) (hr : Spans mem (nodeRight w) r ri) :
      Spans mem i (.internal l r) (i.toNat :: (li ++ ri))

/-- A tree of `L` leaves takes `2 L - 1` nodes. -/
theorem Spans.length {mem : Idx → Option Word} {i : Idx} {t : CodeTree} {idx : List Nat} (h : Spans mem i t idx) :
    idx.length + 1 = 2 * t.symbols.length := by
  induction h with
  | leaf _ _ => rfl
  | internal _ _ _ _ ihl ihr => simp [CodeTree.symbols]; omega

/-- A memory that agrees on the tree's own nodes holds the same tree. -/
theorem Spans.congr {mem mem' : Idx → Option Word} {i : Idx} {t : CodeTree} {idx : List Nat} (h : Spans mem i t idx)
    (heq : ∀ j : Idx, j.toNat ∈ idx → mem' j = mem j) : Spans mem' i t idx := by
  induction h with
  | leaf hw hk => exact .leaf ((heq _ (by simp)).trans hw) hk
  | internal hw hk _ _ ihl ihr =>
    exact .internal ((heq _ (by simp)).trans hw) hk (ihl fun j hj => heq j (by simp [hj]))
      (ihr fun j hj => heq j (by simp [hj]))

/-- With a bound above its depth the bounded functions find the tree and its indices. -/
theorem Spans.found {s : State} {i : Idx} {t : CodeTree} {idx : List Nat} (h : Spans s.nodeAt i t idx) {fuel : Nat}
    (hd : t.depth < fuel) : treeAt fuel s i = some t ∧ indicesFrom fuel s i = some idx := by
  induction h generalizing fuel with
  | leaf hw hk =>
    obtain ⟨n, rfl⟩ := Nat.exists_eq_succ_of_ne_zero (Nat.ne_zero_of_lt hd)
    simp [treeAt, indicesFrom, hw, hk]
  | internal hw hk _ _ ihl ihr =>
    obtain ⟨n, rfl⟩ := Nat.exists_eq_succ_of_ne_zero (Nat.ne_zero_of_lt hd)
    obtain ⟨hdl, hdr⟩ := CodeTree.depth_internal_lt.mp hd
    obtain ⟨hl, hli⟩ := ihl hdl
    obtain ⟨hr, hri⟩ := ihr hdr
    simp [treeAt, indicesFrom, hw, hk, hl, hr, hli, hri]

/-- What `treeAt` finds is there. -/
theorem spans_of_treeAt {s : State} {fuel : Nat} {i : Idx} {t : CodeTree} (h : treeAt fuel s i = some t) :
    ∃ idx, Spans s.nodeAt i t idx ∧ t.depth < fuel := by
  induction fuel generalizing i t with
  | zero => cases h
  | succ fuel ih =>
    unfold treeAt at h
    cases hw : s.nodeAt i with
    | none => simp [hw] at h
    | some w =>
      simp only [hw] at h
      cases hk : nodeKind w with
      | false =>
        simp only [hk, Bool.false_eq_true, if_false, Option.some.injEq] at h
        subst h
        exact ⟨_, .leaf hw hk, Nat.succ_pos _⟩
      | true =>
        simp only [hk, if_true] at h
        split at h
        next l r hl hr =>
          cases h
          obtain ⟨li, hli, hdl⟩ := ih hl
          obtain ⟨ri, hri, hdr⟩ := ih hr
          exact ⟨_, .internal hw hk hli hri, CodeTree.depth_internal_lt.mpr ⟨hdl, hdr⟩⟩
        · cases h

/-- Node memory holds the tree `t` of 10_state.md R24, which uses every allocated index once. -/
def State.Holds (s : State) (t : CodeTree) : Prop :=
  t.wellFormed = true ∧ ∃ idx, Spans s.nodeAt s.root t idx ∧ idx.Perm (List.range s.nnodes.toNat)

theorem State.Holds.tree {s : State} {t : CodeTree} (h : s.Holds t) : s.tree = some t := by
  obtain ⟨hwf, idx, hs, _⟩ := h
  have := CodeTree.wellFormed_depth hwf
  exact (hs.found (by simp only [Config.nodeN]; omega)).1

/-- The tree invariant without bounds. -/
theorem treeInv_iff (s : State) : s.TreeInv ↔ (s.treeValid = true → ∃ t, s.Holds t) := by
  constructor
  · intro h hv
    obtain ⟨t, idx, ht, hwf, hi, hp⟩ := h hv
    obtain ⟨idx', hs, hd⟩ := spans_of_treeAt ht
    have hidx : idx' = idx := Option.some.inj ((hs.found hd).2.symm.trans hi)
    exact ⟨t, hwf, idx, hidx ▸ hs, hp⟩
  · intro h hv
    obtain ⟨t, ht⟩ := h hv
    have htree := ht.tree
    obtain ⟨hwf, idx, hs, hp⟩ := ht
    have := CodeTree.wellFormed_depth hwf
    exact ⟨t, idx, htree, hwf, (hs.found (by simp only [Config.nodeN]; omega)).2, hp⟩

theorem State.Holds.nnodes {s : State} {t : CodeTree} (h : s.Holds t) : s.nnodes.toNat + 1 = 2 * t.symbols.length := by
  obtain ⟨_, idx, hs, hp⟩ := h
  rw [← hs.length, hp.length_eq, List.length_range]

/-- A valid tree is the one `tree(ROOT)` denotes. -/
theorem holds_of_tree {s : State} {t : CodeTree} (h : s.TreeInv) (hv : s.treeValid = true) (ht : s.tree = some t) :
    s.Holds t := by
  obtain ⟨u, hu⟩ := (treeInv_iff s).mp h hv
  exact Option.some.inj (ht.symm.trans hu.tree) ▸ hu

/-- Settles O57: a tree of `L` leaves has `2 L - 1` nodes, and its leaves are at most the 257 symbols. -/
theorem treeInvariantBounds : Obligations.TreeInvariantBounds := by
  intro s h hv
  obtain ⟨t, ht⟩ := (treeInv_iff s).mp h hv
  have hcount := t.internalCount_add_one
  have hdepth := t.depth_le_internalCount
  have hsize := CodeTree.wellFormed_symbols_length ht.1
  have hnodes := ht.nnodes
  exact ⟨t, ht.tree, t.symbols_length_pos, hsize, by omega, by omega, by omega, by omega, by omega⟩

end Sys2Proof.Machine
end

section
/-! PROOF. The code table that `walk` fills (42_symbol_encoder.md R170, R171): on a tree in node memory it assigns every
leaf its path, and that is the table the code table invariant asks for (10_state.md R26). -/

namespace Sys2Proof.Machine

namespace CodeTree

/-- A symbol with a path is one of the tree. -/
theorem mem_symbols_of_path {t : CodeTree} {y : Sym} {p : Bits} (h : t.path y = some p) : y ∈ t.symbols := by
  induction t generalizing p with
  | leaf x =>
    by_cases hx : x = y
    · simp [symbols, hx]
    · simp [path, hx] at h
  | internal l r ihl ihr =>
    rw [symbols, List.mem_append]
    cases hl : l.path y with
    | some q => exact .inl (ihl hl)
    | none =>
      obtain ⟨q, hq, _⟩ := Option.map_eq_some_iff.mp (by simpa only [path, hl] using h)
      exact .inr (ihr hq)

/-- A symbol of the tree has a path. -/
theorem exists_path {t : CodeTree} {y : Sym} (h : y ∈ t.symbols) : ∃ p, t.path y = some p := by
  induction t with
  | leaf x => exact ⟨[], by simp [path, List.mem_singleton.mp h]⟩
  | internal l r ihl ihr =>
    cases hl : l.path y with
    | some q => exact ⟨false :: q, by simp [path, hl]⟩
    | none =>
      have hr : y ∈ r.symbols := (List.mem_append.mp h).resolve_left fun hm => by simp [hl] at ihl; exact ihl hm
      obtain ⟨q, hq⟩ := ihr hr
      exact ⟨true :: q, by simp [path, hl, hq]⟩

theorem path_eq_none {t : CodeTree} {y : Sym} (h : y ∉ t.symbols) : t.path y = none :=
  Option.eq_none_iff_forall_ne_some.mpr fun _ hp => h (mem_symbols_of_path hp)

end CodeTree

/-- `walk` without its checks, along the shape of the tree: every Leaf's symbol gets the path from the root, which
starts with `p` (42_symbol_encoder.md R171). -/
def assignCodes : CodeTree → Bits → State → State
  | .leaf y, p, s => s.setCode y p
  | .internal l r, p, s => assignCodes r (p ++ [true]) (assignCodes l (p ++ [false]) s)

theorem assignCodes_frame (t : CodeTree) (p : Bits) (s : State) : sameButCode s (assignCodes t p s) := by
  induction t generalizing p s with
  | leaf y => rfl
  | internal l r ihl ihr => exact (ihl _ s).trans (ihr _ _)

theorem sameButCode.nodeAt {s t : State} (h : sameButCode s t) : t.nodeAt = s.nodeAt := by
  unfold sameButCode at h
  rw [h]
  rfl

/-- On a tree in node memory the walk assigns the codes and ends. -/
theorem walk_spans {mem : Idx → Option Word} {i : Idx} {t : CodeTree} {idx : List Nat} (h : Spans mem i t idx)
    {fuel : Nat} (p : Bits) {s : State} (hm : s.nodeAt = mem) (hd : t.depth < fuel)
    (hle : ∀ y ∈ t.symbols, y ≤ Config.eos) : walk fuel i p s = .ok () (assignCodes t p s) := by
  obtain ⟨n, rfl⟩ := Nat.exists_eq_succ_of_ne_zero (Nat.ne_zero_of_lt hd)
  induction h generalizing n p s with
  | leaf hw hk =>
    have hsym := hle _ (List.mem_singleton.mpr rfl)
    rw [walk, hm, hw]
    simp only [hk, Bool.false_eq_true, if_false, if_neg (BitVec.not_lt.mpr hsym)]
    rfl
  | @internal i w l r li ri hw hk _ _ ihl ihr =>
    obtain ⟨hdl, hdr⟩ := CodeTree.depth_internal_lt.mp hd
    obtain ⟨m, rfl⟩ := Nat.exists_eq_succ_of_ne_zero (Nat.ne_zero_of_lt hdl)
    have hl := ihl (p ++ [false]) hm (fun y hy => hle y (by simp [CodeTree.symbols, hy])) m hdl
    have hr := ihr (p ++ [true]) ((assignCodes_frame l (p ++ [false]) s).nodeAt.trans hm)
      (fun y hy => hle y (by simp [CodeTree.symbols, hy])) m hdr
    rw [walk, hm, hw]
    simp [hk, hl, hr, assignCodes]

/-- The table after the assignment: a symbol of the tree has its path, any other entry is as before. -/
theorem assignCodes_code {t : CodeTree} (hnd : t.symbols.Nodup) (p : Bits) (s : State) (y : Nat) (hy : y < 257) :
    (assignCodes t p s).code[y] =
      match t.path (BitVec.ofNat 9 y) with
      | some q => ⟨true, BitVec.ofNat 9 (p ++ q).length, p ++ q⟩
      | none => s.code[y] := by
  induction t generalizing p s with
  | leaf x =>
    have hx : x.toNat = y ↔ x = BitVec.ofNat 9 y := by
      rw [BitVec.toNat_eq, BitVec.toNat_ofNat, Nat.mod_eq_of_lt (by omega)]
    rw [assignCodes, code_setCode]
    simp only [hx, CodeTree.path]
    by_cases h : x = BitVec.ofNat 9 y <;> simp [h]
  | internal l r ihl ihr =>
    obtain ⟨hndl, hndr, hdis⟩ := List.nodup_append'.mp hnd
    rw [assignCodes, ihr hndr, ihl hndl]
    cases hl : l.path (BitVec.ofNat 9 y) with
    | none => cases hr : r.path (BitVec.ofNat 9 y) <;> simp [CodeTree.path, hl, hr]
    | some q =>
      have hr : r.path (BitVec.ofNat 9 y) = none := CodeTree.path_eq_none (hdis (CodeTree.mem_symbols_of_path hl))
      simp [CodeTree.path, hl, hr]

/-- `CODE` is the table of `t` (10_state.md R26). -/
def CodesOf (code : Vector CodeEntry 257) (t : CodeTree) : Prop :=
  ∀ (y : Nat) (h : y < 257), code[y].agrees (t.codeOf (BitVec.ofNat 9 y))

/-- The code computation of BUILD and TREE_RD: on a good tree in node memory it ends with the table of that tree. -/
theorem fillCodes_spans {s : State} {t : CodeTree} {idx : List Nat} (h : Spans s.nodeAt s.root t idx)
    (hwf : t.wellFormed = true) : ∃ u, fillCodes s = .ok () u ∧ sameButCode s u ∧ CodesOf u.code t := by
  obtain ⟨hle, hnd, _⟩ := t.wellFormed_iff.mp hwf
  have hd := CodeTree.wellFormed_depth hwf
  have hwalk : fillCodes s = .ok () (assignCodes t [] (clearCode s)) :=
    walk_spans h [] rfl (by simp only [Config.nodeN]; omega) hle
  have hframe := fillCodes_frame s
  rw [hwalk] at hframe
  refine ⟨_, hwalk, hframe, fun y hy => ?_⟩
  rw [assignCodes_code hnd]
  cases hp : t.path (BitVec.ofNat 9 y) <;> simp [CodeTree.codeOf, hp, CodeEntry.agrees]

end Sys2Proof.Machine
end

section
/-! PROOF. BUILD keeps a forest (40_tree_builder.md R133 to R137): every queue entry names the root of a tree in node
memory, and together the trees use every allocated index once. One allocation with its queue entry is BUILD's only way
to change it; when one entry is left, its tree is that of 10_state.md R24. -/

namespace Sys2Proof.Machine

/-! ### The queue -/

theorem takeMin_eq_none {q : List PqEntry} : takeMin q = none ↔ q = [] := by
  cases q with
  | nil => simp [takeMin]
  | cons e es =>
    cases h : takeMin es with
    | none => simp [takeMin, h]
    | some r => by_cases hp : e.precedes r.1 <;> simp [takeMin, h, hp]

/-- Taking the least entry out only reorders the queue. -/
theorem takeMin_perm {q rest : List PqEntry} {m : PqEntry} (h : takeMin q = some (m, rest)) : q.Perm (m :: rest) := by
  induction q generalizing m rest with
  | nil => cases h
  | cons e es ih =>
    cases he : takeMin es with
    | none =>
      obtain rfl := takeMin_eq_none.mp he
      simp only [takeMin, Option.some.injEq, Prod.mk.injEq] at h
      obtain ⟨rfl, rfl⟩ := h
      exact .refl _
    | some r =>
      by_cases hp : e.precedes r.1
      · simp only [takeMin, he, hp, if_true, Option.some.injEq, Prod.mk.injEq] at h
        obtain ⟨rfl, rfl⟩ := h
        exact .refl _
      · simp only [takeMin, he, hp, Bool.false_eq_true, if_false, Option.some.injEq, Prod.mk.injEq] at h
        obtain ⟨rfl, rfl⟩ := h
        exact ((ih he).cons e).trans (.swap _ _ _)

theorem removeMin_eq_none {s : State} : removeMin s = none ↔ s.pq = [] := by
  simp [removeMin, takeMin_eq_none]

/-- Everything `removeMin` can do when it answers (40_tree_builder.md R134). -/
theorem removeMin_cases {s t : State} {e : PqEntry} (h : removeMin s = some (e, t)) :
    s.pq.Perm (e :: t.pq) ∧ t = { s with pq := t.pq } := by
  unfold removeMin at h
  obtain ⟨⟨m, rest⟩, hq, he⟩ := Option.map_eq_some_iff.mp h
  obtain ⟨rfl, rfl⟩ := Prod.mk.inj he
  exact ⟨takeMin_perm hq, rfl⟩

/-! ### Forests -/

/-- The entries `q` name the roots of the trees `ts`, given with their node indices, and the trees use every allocated
index once. -/
structure Forest (s : State) (q : List PqEntry) (ts : List (CodeTree × List Nat)) : Prop where
  spans : List.Forall₂ (fun e p => Spans s.nodeAt e.node p.1 p.2) q ts
  indices : (ts.flatMap Prod.snd).Perm (List.range s.nnodes.toNat)

/-- The symbols of a forest's leaves. -/
def forestSymbols (ts : List (CodeTree × List Nat)) : List Sym := ts.flatMap fun p => p.1.symbols

/-- A forest depends on the node words and their number alone. -/
theorem Forest.congr {s u : State} {q : List PqEntry} {ts : List (CodeTree × List Nat)} (h : Forest s q ts)
    (hnode : u.node = s.node) (hn : u.nnodes = s.nnodes) : Forest u q ts :=
  ⟨nodeAt_congr hnode hn ▸ h.spans, hn ▸ h.indices⟩

theorem Forest.perm {s : State} {q q' : List PqEntry} {ts : List (CodeTree × List Nat)} (h : Forest s q ts)
    (hq : q.Perm q') : ∃ ts', Forest s q' ts' ∧ ts'.Perm ts := by
  obtain ⟨ts', hspans, hts⟩ := List.perm_comp_forall₂ hq.symm h.spans
  exact ⟨ts', ⟨hspans, (hts.flatMap_right _).trans h.indices⟩, hts⟩

/-- How many nodes a forest has. -/
theorem Forest.nnodes {s : State} {q : List PqEntry} {ts : List (CodeTree × List Nat)} (h : Forest s q ts) :
    s.nnodes.toNat + q.length = 2 * (forestSymbols ts).length := by
  obtain ⟨hspans, hidx⟩ := h
  rw [← List.length_range (n := s.nnodes.toNat), ← hidx.length_eq]
  clear hidx
  induction hspans with
  | nil => rfl
  | cons he _ ih =>
    have := he.length
    simp [forestSymbols] at ih ⊢
    omega

/-- Trees in node memory are there in every memory that agrees on their nodes. -/
theorem forall₂_spans_congr {mem mem' : Idx → Option Word} {q : List PqEntry} {ts : List (CodeTree × List Nat)}
    (h : List.Forall₂ (fun e p => Spans mem e.node p.1 p.2) q ts)
    (heq : ∀ j : Idx, j.toNat ∈ ts.flatMap Prod.snd → mem' j = mem j) :
    List.Forall₂ (fun e p => Spans mem' e.node p.1 p.2) q ts := by
  induction h with
  | nil => exact .nil
  | cons he _ ih =>
    refine .cons (he.congr fun j hj => heq j ?_) (ih fun j hj => heq j ?_)
    · simp [hj]
    · rw [List.flatMap_cons]
      exact List.mem_append_right _ hj

/-- An allocation leaves the trees of a forest as they are. -/
theorem Forest.spans_alloc {s : State} {q : List PqEntry} {ts : List (CodeTree × List Nat)} (h : Forest s q ts)
    (hn : s.nnodes.toNat < 513) (w : Word) :
    List.Forall₂ (fun e p => Spans (alloc w s).2.nodeAt e.node p.1 p.2) q ts := by
  refine forall₂_spans_congr h.spans fun j hj => nodeAt_alloc_old w hn (BitVec.lt_def.mpr ?_)
  exact List.mem_range.mp (h.indices.mem_iff.mp hj)

/-- A new Leaf is a tree of its own. -/
theorem Forest.addLeaf {s : State} {q : List PqEntry} {ts : List (CodeTree × List Nat)} (h : Forest s q ts)
    (hn : s.nnodes.toNat < 513) (y : Sym) (w : Weight) (n : BitVec 10) :
    Forest (alloc (leafWord y) s).2 (q ++ [⟨w, n, s.nnodes⟩]) (ts ++ [(.leaf y, [s.nnodes.toNat])]) := by
  have hleaf : Spans (alloc (leafWord y) s).2.nodeAt s.nnodes (.leaf (nodeSym (leafWord y))) [s.nnodes.toNat] :=
    .leaf (nodeAt_alloc_new _ hn) (nodeKind_leafWord y)
  rw [nodeSym_leafWord] at hleaf
  refine ⟨List.rel_append (h.spans_alloc hn _) (.cons hleaf .nil), ?_⟩
  rw [alloc_nnodes, nnodes_succ hn, List.range_succ, List.flatMap_append]
  exact h.indices.append_right _

/-- A merge makes one tree of two (40_tree_builder.md R136). -/
theorem Forest.merge {s : State} {a b : PqEntry} {q : List PqEntry} {x y : CodeTree × List Nat}
    {ts : List (CodeTree × List Nat)} (h : Forest s (a :: b :: q) (x :: y :: ts)) (hn : s.nnodes.toNat < 513)
    (w : Weight) (n : BitVec 10) :
    Forest (alloc (internalWord a.node b.node) s).2 (q ++ [⟨w, n, s.nnodes⟩])
      (ts ++ [(.internal x.1 y.1, s.nnodes.toNat :: (x.2 ++ y.2))]) := by
  obtain ⟨ha, hb, hq⟩ : _ ∧ _ ∧ _ := by simpa using h.spans_alloc hn (internalWord a.node b.node)
  have hroot := Spans.internal (l := x.1) (r := y.1) (li := x.2) (ri := y.2)
    (nodeAt_alloc_new (internalWord a.node b.node) hn) (nodeKind_internalWord _ _)
    (by rwa [nodeLeft_internalWord]) (by rwa [nodeRight_internalWord])
  refine ⟨List.rel_append hq (.cons hroot .nil), List.perm_iff_count.mpr fun k => ?_⟩
  have := h.indices.count_eq k
  rw [alloc_nnodes, nnodes_succ hn, List.range_succ]
  simp only [List.flatMap_cons, List.flatMap_append, List.flatMap_nil, List.append_nil, List.count_append,
    List.count_cons, List.count_nil] at this ⊢
  omega

/-! ### The leaves of BUILD -/

theorem addLeaf_counts (s : State) (b : Byte) : (addLeaf s b).counts = s.counts := by
  funext c
  have h := addLeaf_frame s b
  unfold sameButBuilder at h
  rw [h]
  rfl

/-- BUILD's first loop adds a Leaf for every byte value that occurs (40_tree_builder.md R135). -/
theorem foldl_addLeaf_forest (bs : List Byte) {s : State} {ts : List (CodeTree × List Nat)} (h : Forest s s.pq ts)
    (hn : s.nnodes.toNat + bs.length ≤ 512) :
    ∃ ts', Forest (bs.foldl addLeaf s) (bs.foldl addLeaf s).pq ts' ∧
      forestSymbols ts' = forestSymbols ts ++ (bs.filter fun b => 0 < s.counts b).map byteSym ∧
      (bs.foldl addLeaf s).nnodes.toNat ≤ s.nnodes.toNat + bs.length := by
  induction bs generalizing s ts with
  | nil => exact ⟨ts, h, by simp, Nat.le_refl _⟩
  | cons b bs ih =>
    rw [List.length_cons] at hn
    by_cases hb : 0 < s.counts b
    · have hadd : addLeaf s b = pqInsert ((s.freqAt b).setWidth 40) s.nnodes (alloc (leafWord (byteSym b)) s).2 :=
        if_pos hb
      have hnn : (addLeaf s b).nnodes.toNat = s.nnodes.toNat + 1 := by rw [hadd]; exact nnodes_succ (by omega)
      have hf := (h.addLeaf (by omega) (byteSym b) ((s.freqAt b).setWidth 40) s.seq).congr (u := addLeaf s b)
        (by rw [hadd]; rfl) (by rw [hadd]; rfl)
      obtain ⟨ts', hts', hsym, hle⟩ := ih (s := addLeaf s b) (by rw [hadd] at hf ⊢; exact hf) (by omega)
      refine ⟨ts', hts', ?_, by simp only [List.foldl_cons, List.length_cons]; omega⟩
      rw [hsym, addLeaf_counts]
      simp [forestSymbols, CodeTree.symbols, hb]
    · have hadd : addLeaf s b = s := if_neg hb
      obtain ⟨ts', hts', hsym, hle⟩ := ih h (by omega)
      rw [List.foldl_cons, hadd]
      exact ⟨ts', hts', by simp [hsym, hb], by simp only [List.length_cons]; omega⟩

theorem allBytes_length : allBytes.length = 256 := by simp [allBytes]

/-- Before the first merge BUILD holds one Leaf for each byte value that occurs and one for EOS
(40_tree_builder.md R133, R135). -/
theorem buildStart_forest (s : State) :
    ∃ ts, Forest (buildStart s) (buildStart s).pq ts ∧
      forestSymbols ts = (presentBytes s.counts).map byteSym ++ [Config.eos] := by
  unfold buildStart addLeaves
  generalize hu : ({ dropTree s with pq := [], seq := 0 } : State) = u
  have hn : u.nnodes = 0 := hu ▸ rfl
  have hpq : u.pq = [] := hu ▸ rfl
  have hcounts : u.counts = s.counts := hu ▸ rfl
  have hstart : Forest u u.pq [] := by
    refine ⟨?_, ?_⟩
    · rw [hpq]; exact .nil
    · rw [hn]; exact .refl _
  have h0 : u.nnodes.toNat = 0 := by rw [hn]; rfl
  obtain ⟨ts, hts, hsym, hle⟩ := foldl_addLeaf_forest allBytes hstart (by simp [h0, allBytes_length])
  rw [h0, allBytes_length] at hle
  rw [hcounts] at hsym
  generalize allBytes.foldl addLeaf u = v at *
  refine ⟨_, (hts.addLeaf (by omega) Config.eos 1 v.seq).congr rfl rfl, ?_⟩
  rw [forestSymbols, List.flatMap_append]
  exact congrArg (· ++ [Config.eos]) hsym

/-- The symbols of BUILD's leaves are as 10_state.md R24 items 4 and 5 ask. -/
theorem builtSymbols_wellFormed (f : Byte → Nat) :
    (∀ y ∈ (presentBytes f).map byteSym ++ [Config.eos], y ≤ Config.eos) ∧
      ((presentBytes f).map byteSym ++ [Config.eos]).Nodup := by
  have hbyte : ∀ b : Byte, (byteSym b).toNat = b.toNat := fun b => by
    rw [byteSym, BitVec.toNat_setWidth]
    exact Nat.mod_eq_of_lt (Nat.lt_trans b.isLt (by decide))
  have hlt : ∀ b : Byte, (byteSym b).toNat < 256 := fun b => hbyte b ▸ b.isLt
  have hbytes : allBytes.Nodup := List.nodup_range.map_on fun i hi j hj h => by
    have := congrArg BitVec.toNat h
    simp only [List.mem_range, BitVec.toNat_ofNat] at hi hj this
    omega
  have hinj : Function.Injective byteSym := fun b c h => BitVec.eq_of_toNat_eq (by rw [← hbyte b, ← hbyte c, h])
  constructor
  · intro y hy
    rcases List.mem_append.mp hy with hy | hy
    · obtain ⟨b, _, rfl⟩ := List.mem_map.mp hy
      exact Nat.le_of_lt (hlt b)
    · exact Nat.le_of_eq (congrArg BitVec.toNat (List.mem_singleton.mp hy))
  · refine List.nodup_append.mpr ⟨(hbytes.filter _).map hinj, List.nodup_singleton _, fun y hy z hz hyz => ?_⟩
    obtain ⟨b, _, rfl⟩ := List.mem_map.mp hy
    rw [List.mem_singleton.mp hz] at hyz
    exact absurd (congrArg BitVec.toNat hyz) (Nat.ne_of_lt (hlt b))

/-! ### The merges -/

/-- A forest of one entry is one tree. -/
theorem Forest.of_singleton {s : State} {e : PqEntry} {ts : List (CodeTree × List Nat)} (h : Forest s [e] ts) :
    ∃ p, ts = [p] := by
  obtain ⟨p, _, _, hnil, rfl⟩ := List.forall₂_cons_left_iff.mp h.spans
  obtain rfl := List.forall₂_nil_left_iff.mp hnil
  exact ⟨p, rfl⟩

/-- A merge keeps the leaves. -/
theorem forestSymbols_merge (x y : CodeTree × List Nat) (ts : List (CodeTree × List Nat)) (idx : List Nat) :
    (forestSymbols (ts ++ [(.internal x.1 y.1, idx)])).Perm (forestSymbols (x :: y :: ts)) := by
  simp only [forestSymbols, List.flatMap_append, List.flatMap_cons, List.flatMap_nil, List.append_nil,
    CodeTree.symbols, ← List.append_assoc x.1.symbols]
  exact List.perm_append_comm

/-- The merge loop ends with one tree over the same leaves (40_tree_builder.md R137). -/
theorem mergeLoop_forest {fuel : Nat} {s : State} {ts : List (CodeTree × List Nat)} (h : Forest s s.pq ts)
    (hsize : (forestSymbols ts).length ≤ 257) (hne : s.pq ≠ []) (hfuel : s.pq.length ≤ fuel + 1) :
    ∃ e p, (mergeLoop fuel s).pq = [e] ∧ Forest (mergeLoop fuel s) [e] [p] ∧
      p.1.symbols.Perm (forestSymbols ts) := by
  induction fuel generalizing s ts with
  | zero =>
    obtain ⟨e, he⟩ := List.length_eq_one_iff.mp (Nat.le_antisymm hfuel (List.length_pos_iff.mpr hne))
    rw [he] at h
    obtain ⟨p, rfl⟩ := h.of_singleton
    exact ⟨e, p, he, h, by simp [forestSymbols]⟩
  | succ fuel ih =>
    unfold mergeLoop
    cases h1 : removeMin s with
    | none => exact absurd (removeMin_eq_none.mp h1) hne
    | some r1 =>
      obtain ⟨a, s1⟩ := r1
      obtain ⟨hq1, hs1⟩ := removeMin_cases h1
      cases h2 : removeMin s1 with
      | none =>
        rw [removeMin_eq_none.mp h2] at hq1
        have hq := List.perm_singleton.mp hq1
        rw [hq] at h
        obtain ⟨p, rfl⟩ := h.of_singleton
        simp only [h2]
        exact ⟨a, p, hq, h, by simp [forestSymbols]⟩
      | some r2 =>
        obtain ⟨b, s2⟩ := r2
        obtain ⟨hq2, hs2⟩ := removeMin_cases h2
        have hq : s.pq.Perm (a :: b :: s2.pq) := hq1.trans (hq2.cons a)
        have hlen := hq.length_eq
        have hnodes := h.nnodes
        obtain ⟨ts', hf, hts⟩ := h.perm hq
        obtain ⟨x, _, _, hb, rfl⟩ := List.forall₂_cons_left_iff.mp hf.spans
        obtain ⟨y, ts', _, _, rfl⟩ := List.forall₂_cons_left_iff.mp hb
        simp only [List.length_cons] at hlen
        have hn : s2.nnodes = s.nnodes := by rw [hs2, hs1]
        have hmerge := (hf.congr (u := s2) (by rw [hs2, hs1]) hn).merge (by rw [hn]; omega) (a.w + b.w) s2.seq
        have hnew := (forestSymbols_merge x y ts' (s2.nnodes.toNat :: (x.2 ++ y.2))).trans (hts.flatMap_right _)
        obtain ⟨e, p, hpq, hone, hsym⟩ := ih
          (s := pqInsert (a.w + b.w) s2.nnodes (alloc (internalWord a.node b.node) s2).2)
          (hmerge.congr rfl rfl) (hnew.length_eq ▸ hsize) (by simp) (by simp; omega)
        simp only [h2]
        exact ⟨e, p, hpq, hone, hsym.trans hnew⟩

/-! ### The whole command -/

theorem buildStart_frame (s : State) : sameButBuilder (dropTree s) (buildStart s) := by
  have hempty : sameButBuilder (dropTree s) { dropTree s with pq := [], seq := 0 } := rfl
  exact hempty.trans (addLeaves_frame _)

/-- What BUILD leaves: its tree, over the byte values that occur and EOS, with its code table, an empty queue, and
everything else as it was (40_tree_builder.md R133, R143). -/
theorem buildBody_establishes (s : State) :
    ∃ t u, buildBody s = .ok () u ∧ u.Holds t ∧ CodesOf u.code t ∧
      t.symbols.Perm ((presentBytes s.counts).map byteSym ++ [Config.eos]) ∧
      u = { s with
        node := u.node, nnodes := u.nnodes, root := u.root, treeValid := true, code := u.code, pq := [], seq := u.seq,
        stack := [] } := by
  obtain ⟨ts, hts, hsym⟩ := buildStart_forest s
  obtain ⟨hle, hnd⟩ := builtSymbols_wellFormed s.counts
  rw [← hsym] at hle hnd
  have hstart := buildStart_frame s
  unfold buildBody mergeAll
  generalize buildStart s = v at *
  have hne : v.pq ≠ [] := fun hnil => by
    rw [hnil] at hts
    rw [List.forall₂_nil_left_iff.mp hts.spans] at hsym
    exact absurd hsym.symm (List.append_ne_nil_of_right_ne_nil _ (List.cons_ne_nil _ _))
  obtain ⟨e, ⟨t, idx⟩, hpq, hone, hperm⟩ :=
    mergeLoop_forest hts (distinct_symbols_length hle hnd) hne (Nat.le_succ v.pq.length)
  have hmerge := hstart.trans (mergeLoop_frame v.pq.length v)
  generalize mergeLoop v.pq.length v = m at *
  have hwf : t.wellFormed = true := t.wellFormed_iff.mpr
    ⟨fun y hy => hle y (hperm.mem_iff.mp hy), hperm.nodup_iff.mpr hnd, hperm.mem_iff.mpr (by simp [hsym])⟩
  obtain ⟨hspan, _⟩ := List.forall₂_cons.mp hone.spans
  have hidx : idx.Perm (List.range m.nnodes.toNat) := by simpa using hone.indices
  obtain ⟨u, hu, hframe, hcodes⟩ := fillCodes_spans (s := { m with pq := [], root := e.node }) hspan hwf
  unfold sameButCode at hframe
  unfold sameButBuilder at hmerge
  have hmin : removeMin m = some (e, { m with pq := [] }) := by simp [removeMin, hpq, takeMin]
  refine ⟨t, { u with treeValid := true, stack := [] }, ?_, ⟨hwf, idx, ?_, ?_⟩, hcodes, hsym ▸ hperm, ?_⟩
  · simp [hmin, buildFinish, hu]
  · rw [hframe]; exact hspan
  · rw [hframe]; exact hidx
  · rw [hframe, hmerge]; rfl

end Sys2Proof.Machine
end

section
/-! PROOF. What `rd` builds when it ends without a raise (41_tree_codec.md R154, R156): one tree in preorder from the
index that was free before, with every older node as it was. -/

namespace Sys2Proof.Machine

theorem sameButInput.nodeAt {s t : State} (h : sameButInput s t) : t.nodeAt = s.nodeAt := by
  unfold sameButInput at h
  rw [h]
  rfl

theorem sameButInput.nnodes {s t : State} (h : sameButInput s t) : t.nnodes = s.nnodes := by
  unfold sameButInput at h
  rw [h]

/-! ### Patching the fields of an Internal word -/

theorem setNodeLeft_nnodes (s : State) (i l : Idx) : (s.setNodeLeft i l).nnodes = s.nnodes := by
  unfold State.setNodeLeft
  split <;> rfl

theorem setNodeRight_nnodes (s : State) (i r : Idx) : (s.setNodeRight i r).nnodes = s.nnodes := by
  unfold State.setNodeRight
  split <;> rfl

/-- Writing an allocated node changes that node only. -/
theorem nodeAt_setNode {s : State} {i : Idx} {v : Word} (h : s.nodeAt i = some v) (w : Word) :
    (s.setNode i w).nodeAt = Function.update s.nodeAt i (some w) := by
  obtain ⟨hi, hlt⟩ := nodeAt_isSome_lt h
  funext j
  unfold State.nodeAt
  by_cases hj : j = i
  · subst hj
    simp [hi, hlt]
  · have hne : i.toNat ≠ j.toNat := fun e => hj (BitVec.eq_of_toNat_eq e.symm)
    simp [hj, Vector.getElem?_setIfInBounds_ne hne]

theorem nodeAt_setNodeLeft {s : State} {i l r : Idx} (h : s.nodeAt i = some (internalWord l r)) (k : Idx) :
    (s.setNodeLeft i k).nodeAt = Function.update s.nodeAt i (some (internalWord k r)) := by
  obtain ⟨_, hw⟩ := (nodeAt_eq_some_iff s i _).mp h
  simp only [State.setNodeLeft, hw, setLeft_internalWord]
  exact nodeAt_setNode h _

theorem nodeAt_setNodeRight {s : State} {i l r : Idx} (h : s.nodeAt i = some (internalWord l r)) (k : Idx) :
    (s.setNodeRight i k).nodeAt = Function.update s.nodeAt i (some (internalWord l k)) := by
  obtain ⟨_, hw⟩ := (nodeAt_eq_some_iff s i _).mp h
  simp only [State.setNodeRight, hw, setRight_internalWord]
  exact nodeAt_setNode h _

/-! ### The reader -/

/-- The temporaries between two calls of `rd`: every node is counted in `NINT` or in `SEEN`, which the checks of
41_tree_codec.md R155 keep in bounds. -/
structure ReaderInv (k : ReadTemps) (s : State) : Prop where
  count : s.nnodes.toNat = k.nint + k.seen.length
  nint : k.nint ≤ Config.maxInternal
  bound : ∀ y ∈ k.seen, y ≤ Config.eos
  nodup : k.seen.Nodup

/-- A call of `rd` from `s` with `k` has read `t` and left `u` with `k'`. -/
structure ReadsTree (k : ReadTemps) (s : State) (t : CodeTree) (k' : ReadTemps) (u : State) : Prop where
  spans : Spans u.nodeAt s.nnodes t (List.range' s.nnodes.toNat (2 * t.symbols.length - 1))
  nnodes : u.nnodes.toNat + 1 = s.nnodes.toNat + 2 * t.symbols.length
  older : ∀ j : Idx, j < s.nnodes → u.nodeAt j = s.nodeAt j
  seen : k'.seen = t.symbols.reverse ++ k.seen
  inv : ReaderInv k' u

/-- A Leaf is read where the last allocation was. -/
theorem ReadsTree.leaf {k : ReadTemps} {s : State} {v : Sym} (h : ReaderInv k s) (hle : v ≤ Config.eos)
    (hv : v ∉ k.seen) : ReadsTree k s (.leaf v) { k with seen := v :: k.seen } (alloc (leafWord v) s).2 := by
  have hbound : ∀ y ∈ v :: k.seen, y ≤ Config.eos := List.forall_mem_cons.mpr ⟨hle, h.bound⟩
  have hnodup : (v :: k.seen).Nodup := List.nodup_cons.mpr ⟨hv, h.nodup⟩
  have hlen := distinct_symbols_length hbound hnodup
  have hnint := h.nint
  have hcount := h.count
  simp only [List.length_cons, Config.maxInternal] at hlen hnint
  have hn : s.nnodes.toNat < 513 := by omega
  have hsucc := nnodes_succ hn
  have hspan : Spans (alloc (leafWord v) s).2.nodeAt s.nnodes (.leaf (nodeSym (leafWord v))) [s.nnodes.toNat] :=
    .leaf (nodeAt_alloc_new _ hn) (nodeKind_leafWord v)
  rw [nodeSym_leafWord] at hspan
  exact {
    spans := hspan
    nnodes := by simp only [alloc_nnodes, hsucc, CodeTree.symbols, List.length_singleton]
    older := fun j hj => nodeAt_alloc_old _ hn hj
    seen := rfl
    inv := ⟨by simp only [alloc_nnodes, hsucc, List.length_cons]; omega, h.nint, hbound, hnodup⟩ }

/-- An Internal node leaves room for itself. -/
theorem ReaderInv.room {k : ReadTemps} {s : State} (h : ReaderInv k s) (hn : k.nint < Config.maxInternal) :
    s.nnodes.toNat < 513 := by
  have hlen := distinct_symbols_length h.bound h.nodup
  have hcount := h.count
  simp only [Config.maxInternal] at hn
  omega

theorem ReaderInv.alloc_internal {k : ReadTemps} {s : State} (h : ReaderInv k s) (hn : k.nint < Config.maxInternal) :
    ReaderInv { k with nint := k.nint + 1 } (alloc (internalWord 0 0) s).2 where
  count := by
    have := h.count
    simp only [alloc_nnodes, nnodes_succ (h.room hn)]
    omega
  nint := hn
  bound := h.bound
  nodup := h.nodup

/-- Two subtrees read one after the other behind a fresh Internal node, with its fields patched, are one tree. -/
theorem ReadsTree.internal {k k1 k2 : ReadTemps} {s u v : State} {l r : CodeTree} (hroom : s.nnodes.toNat < 513)
    (hl : ReadsTree { k with nint := k.nint + 1 } (alloc (internalWord 0 0) s).2 l k1 u)
    (hr : ReadsTree k1 (u.setNodeLeft s.nnodes (s.nnodes + 1)) r k2 v) :
    ReadsTree k s (.internal l r) k2 (v.setNodeRight s.nnodes u.nnodes) := by
  obtain ⟨hlspan, hlnn, hlold, hlseen, -⟩ := hl
  obtain ⟨hrspan, hrnn, hrold, hrseen, hinv⟩ := hr
  have hsucc := nnodes_succ hroom
  have hposl := l.symbols_length_pos
  have hposr := r.symbols_length_pos
  simp only [alloc_nnodes, setNodeLeft_nnodes, BitVec.lt_def, hsucc] at hlspan hlnn hlold hrspan hrnn hrold
  have hu : u.nodeAt s.nnodes = some (internalWord 0 0) :=
    (hlold _ (Nat.lt_succ_self _)).trans (nodeAt_alloc_new _ hroom)
  rw [nodeAt_setNodeLeft hu] at hrold
  have hv : v.nodeAt s.nnodes = some (internalWord (s.nnodes + 1) 0) :=
    (hrold _ (by omega)).trans (Function.update_self _ _ _)
  have hw := nodeAt_setNodeRight hv u.nnodes
  have hnew : ∀ j : Idx, s.nnodes.toNat < j.toNat →
      (v.setNodeRight s.nnodes u.nnodes).nodeAt j = v.nodeAt j := fun j hj => by
    rw [hw, Function.update_of_ne (fun e => by simp [e] at hj)]
  have hold : ∀ j : Idx, j ≠ s.nnodes → j.toNat < u.nnodes.toNat →
      (v.setNodeRight s.nnodes u.nnodes).nodeAt j = u.nodeAt j := fun j hj hlt => by
    rw [hw, Function.update_of_ne hj, hrold j hlt, Function.update_of_ne hj]
  have hspanl := hlspan.congr fun j hj => hold j
    (fun e => by have := (List.mem_range'_1.mp hj).1; rw [e] at this; omega)
    (by have := (List.mem_range'_1.mp hj).2; omega)
  have hspanr := hrspan.congr fun j hj => hnew j (by have := (List.mem_range'_1.mp hj).1; omega)
  have hidx : List.range' s.nnodes.toNat (2 * (CodeTree.internal l r).symbols.length - 1) =
      s.nnodes.toNat :: (List.range' (s.nnodes.toNat + 1) (2 * l.symbols.length - 1) ++
        List.range' u.nnodes.toNat (2 * r.symbols.length - 1)) := by
    have hmid : u.nnodes.toNat = s.nnodes.toNat + 1 + (2 * l.symbols.length - 1) := by omega
    rw [hmid, List.range'_append_1, ← List.range'_succ, CodeTree.symbols, List.length_append]
    congr 1
    omega
  exact {
    spans := hidx ▸ .internal (by rw [hw, Function.update_self]) (nodeKind_internalWord _ _)
      (by rwa [nodeLeft_internalWord]) (by rwa [nodeRight_internalWord])
    nnodes := by
      rw [setNodeRight_nnodes, CodeTree.symbols, List.length_append]
      omega
    older := fun j hj => by
      have hj' := BitVec.lt_def.mp hj
      rw [hold j (fun e => by rw [e] at hj'; omega) (by omega), hlold j (by omega)]
      exact nodeAt_alloc_old _ hroom hj
    seen := by simp [hrseen, hlseen, CodeTree.symbols]
    inv := ⟨setNodeRight_nnodes v _ _ ▸ hinv.count, hinv.nint, hinv.bound, hinv.nodup⟩ }

theorem ReaderInv.of_sameButInput {k : ReadTemps} {s t : State} (h : ReaderInv k s) (ht : sameButInput s t) :
    ReaderInv k t := ⟨ht.nnodes ▸ h.count, h.nint, h.bound, h.nodup⟩

theorem ReadsTree.of_sameButInput {k k' : ReadTemps} {s s' u : State} {t : CodeTree} (h : ReadsTree k s' t k' u)
    (hs : sameButInput s s') : ReadsTree k s t k' u where
  spans := hs.nnodes ▸ h.spans
  nnodes := hs.nnodes ▸ h.nnodes
  older := hs.nnodes ▸ hs.nodeAt ▸ h.older
  seen := h.seen
  inv := h.inv

/-- A call of `rd` that ends with an index has read a tree there. -/
theorem rd_reads {fuel : Nat} {k k' : ReadTemps} {s u : State} {i : Idx} (h : ReaderInv k s)
    (hrd : rd fuel k s = .ok (i, k') u) : i = s.nnodes ∧ ∃ t, ReadsTree k s t k' u := by
  induction fuel generalizing k k' s u i with
  | zero => cases hrd
  | succ fuel ih =>
    unfold rd at hrd
    obtain ⟨b, t, hb, hrd⟩ := bind_eq_ok.mp hrd
    have hst := readBit_frame .malformedStream s
    rw [hb] at hst
    have ht := h.of_sameButInput hst
    rw [← hst.nnodes]
    cases b with
    | true =>
      simp only [if_true] at hrd
      split at hrd
      · cases hrd
      next hne =>
        have hlt : k.nint < Config.maxInternal := Nat.lt_of_le_of_ne h.nint hne
        obtain ⟨⟨il, k1⟩, u1, hrl, hrd⟩ := bind_eq_ok.mp hrd
        obtain ⟨rfl, l, hl⟩ := ih (ht.alloc_internal hlt) hrl
        obtain ⟨⟨ir, k2⟩, u2, hrr, hrd⟩ := bind_eq_ok.mp hrd
        have hinv := hl.inv
        obtain ⟨rfl, r, hr⟩ := ih (s := u1.setNodeLeft t.nnodes (t.nnodes + 1))
          ⟨setNodeLeft_nnodes u1 _ _ ▸ hinv.count, hinv.nint, hinv.bound, hinv.nodup⟩ hrr
        cases hrd
        rw [setNodeLeft_nnodes]
        exact ⟨rfl, _, (ReadsTree.internal (ht.room hlt) hl hr).of_sameButInput hst⟩
    | false =>
      simp only [Bool.false_eq_true, if_false] at hrd
      obtain ⟨v, t', hv, hrd⟩ := bind_eq_ok.mp hrd
      have htt := readBits_frame 9 .malformedStream t
      rw [hv] at htt
      split at hrd
      · cases hrd
      next hle =>
        split at hrd
        · cases hrd
        next hnew =>
          cases hrd
          exact ⟨htt.nnodes, _, ((ReadsTree.leaf (ht.of_sameButInput htt) (BitVec.not_lt.mp hle) hnew).of_sameButInput
            htt).of_sameButInput hst⟩

end Sys2Proof.Machine
end

section
/-! PROOF. What a step can do, said once over the host's moves (70_reset_and_hazards.md R258), and the legal word of
each command (30_encoding.md R102). -/

namespace Sys2Proof.Machine

/-! ### Command words -/

/-- A word whose field `ZERO` is 0 is its opcode. -/
theorem word_eq_opcField {v : Word} (h : zeroField v = 0) : v = BitVec.ofNat 32 (opcField v).toNat := by
  have hz : v.toNat / 256 % 2 ^ 24 = 0 := by
    simpa [zeroField, BitVec.extractLsb', Nat.shiftRight_eq_div_pow] using congrArg BitVec.toNat h
  have hv := v.isLt
  apply BitVec.eq_of_toNat_eq
  simp [opcField, BitVec.extractLsb']
  omega

/-- Each opcode is the word of its command (30_encoding.md R102). -/
theorem encode_of_opcodeMap {n : Nat} {i : Instr} (h : opcodeMap n = some i) : encode i = BitVec.ofNat 32 n := by
  unfold opcodeMap at h
  split at h <;> cases h <;> rfl

/-- A legal word is the word of the command it decodes to (30_encoding.md R101, R102). -/
theorem encode_of_decode {v : Word} {i : Instr} (h : decode v = .ok i) : encode i = v := by
  unfold decode at h
  split at h
  · cases h
  next hz =>
    split at h
    next j hj =>
      cases h
      rw [encode_of_opcodeMap hj, ← word_eq_opcField (not_not.mp hz)]
    · cases h

/-! ### The step -/

/-- Everything a step from `s` to `t` can be. -/
inductive StepTo (s t : State) : Prop
  /-- no move pending -/
  | idle (ht : t = s)
  /-- RESET -/
  | reset (ms : List HostMove) (hm : s.moves = .reset :: ms) (ht : t = clearEngine { s with moves := ms })
  /-- a register read -/
  | read (ms : List HostMove) (replies : List Word) (draws : Nat)
      (ht : t = { s with moves := ms, replies := replies, draws := draws })
  /-- a register write without effect: to no register, or to CMD of a busy or a faulted engine -/
  | ignored (ms : List HostMove) (ht : t = { s with moves := ms })
  /-- a FREQ window write -/
  | freqWrite (ms : List HostMove) (a : RegAddr) (v : Word) (b : Byte) (w : Word) (draws : Nat)
      (hm : s.moves = .memWrite a v :: ms) (ha : freqIndex a = some b)
      (ht : t = { ({ s with moves := ms } : State).setFreq b w with draws := draws })
  /-- an illegal command word -/
  | illegal (ms : List HostMove) (v : Word) (hf : s.fault = 0)
      (ht : t = raise .illegalCommand v { s with moves := ms })
  /-- a command -/
  | command (ms : List HostMove) (i : Instr) (hm : s.moves = .memWrite cmdAddr (encode i) :: ms)
      (ht : exec i { s with moves := ms } = .next t)
  /-- `Supply` -/
  | supply (ms : List HostMove) (bs : List Byte) (hm : s.moves = .supply bs :: ms)
      (ht : t = { s with moves := ms, inp := s.inp ++ bs })
  /-- `Discard` -/
  | discard (ms : List HostMove) (ht : t = { s with moves := ms, inp := [] })
  /-- the host takes a byte, or finds none -/
  | take (ms : List HostMove) (n : Nat) (hn : n = s.taken ∨ n ≤ s.out.length)
      (ht : t = { s with moves := ms, taken := n })

/-- A CMD write that dispatches its word runs a command, raises IllegalCommand, or is ignored (30_encoding.md R104). -/
theorem stepTo_dispatch {s t : State} {ms : List HostMove} {v : Word} (hm : s.moves = .memWrite cmdAddr v :: ms)
    (h : dispatch v { s with moves := ms } = .next t) : StepTo s t := by
  cases hv : decode v with
  | ok i =>
    rw [dispatch_legal hv] at h
    exact .command ms i (by rw [hm, encode_of_decode hv]) h
  | error e =>
    rw [dispatch_illegal hv] at h
    rcases command_cases h with ⟨_, ht⟩ | ⟨_, u, hu, _⟩ | ⟨hf, f, info, u, hu, ht⟩
    · exact .ignored ms ht
    · cases hu
    · cases hu
      exact .illegal ms v hf ht

theorem stepTo_memWrite {s t : State} {ms : List HostMove} {a : RegAddr} {v : Word}
    (hm : s.moves = .memWrite a v :: ms) (h : memWrite a v { s with moves := ms } = .next t) : StepTo s t := by
  rcases memWrite_cases h with ⟨_, _, ht⟩ | ⟨rfl, _, hd⟩ | ⟨_, _, ht⟩ | ⟨b, _, ha, _, ht⟩ | ⟨b, _, ha, _, ht⟩
  · exact .ignored ms ht
  · exact stepTo_dispatch hm hd
  · exact .ignored ms ht
  · exact .freqWrite ms a v b v s.draws hm ha ht
  · exact .freqWrite ms a v b _ _ hm ha ht

theorem stepTo_of_step {s t : State} (h : step s = .next t) : StepTo s t := by
  rcases step_cases h with ⟨_, ht⟩ | ⟨m, ms, hm, h⟩
  · exact .idle ht
  cases m with
  | reset =>
    cases h
    exact .reset ms hm rfl
  | memRead a =>
    cases h
    exact .read ms _ _ (memRead_frame a _)
  | memWrite a v => exact stepTo_memWrite hm h
  | supply bs =>
    cases h
    exact .supply ms bs hm rfl
  | discard =>
    simp only [hostMove, discard] at h
    split at h
    · cases h
    · cases h
      exact .discard ms rfl
  | takeByte =>
    cases h
    unfold takeByte
    split
    next hlt => exact .take ms _ (.inr hlt) rfl
    · exact .take ms _ (.inl rfl) rfl

end Sys2Proof.Machine
end

section
/-! PROOF. Who writes the tree, the code table and the counts (10_state.md R21, R23, R26), and that every writer of the
tree leaves a tree and a table of the invariant, or none (R24). -/

namespace Sys2Proof.Machine

/-! ### The tree is written by BUILD, TREE_RD and INIT only -/

/-- `t` has the tree and the code table of `s`. -/
def SameTree (s t : State) : Prop :=
  t.node = s.node ∧ t.nnodes = s.nnodes ∧ t.root = s.root ∧ t.treeValid = s.treeValid ∧ t.code = s.code

theorem exec_sameTree {i : Instr} {s t : State} (hb : i ≠ .build) (hr : i ≠ .treeRd) (hi : i ≠ .init)
    (h : exec i s = .next t) : SameTree s t := by
  cases i with
  | build => exact absurd rfl hb
  | treeRd => exact absurd rfl hr
  | init => exact absurd rfl hi
  | nop => rw [execNop_frame h]; exact ⟨rfl, rfl, rfl, rfl, rfl⟩
  | hist => rw [execHist_frame h]; exact ⟨rfl, rfl, rfl, rfl, rfl⟩
  | hdrWr => rw [execHdrWr_frame h]; exact ⟨rfl, rfl, rfl, rfl, rfl⟩
  | treeWr => rw [execTreeWr_frame h]; exact ⟨rfl, rfl, rfl, rfl, rfl⟩
  | enc => rw [execEnc_frame h]; exact ⟨rfl, rfl, rfl, rfl, rfl⟩
  | flush => rw [execFlush_frame h]; exact ⟨rfl, rfl, rfl, rfl, rfl⟩
  | hdrRd => rw [execHdrRd_frame h]; exact ⟨rfl, rfl, rfl, rfl, rfl⟩
  | dec => rw [execDec_frame h]; exact ⟨rfl, rfl, rfl, rfl, rfl⟩

/-- A step keeps the tree, or it is a reset, or it runs a command. -/
theorem step_sameTree {s t : State} (h : step s = .next t) :
    SameTree s t ∨ (∃ ms, s.moves = .reset :: ms ∧ t = clearEngine { s with moves := ms }) ∨
      ∃ ms i, s.moves = .memWrite cmdAddr (encode i) :: ms ∧ exec i { s with moves := ms } = .next t := by
  cases stepTo_of_step h with
  | reset ms hm ht => exact .inr (.inl ⟨ms, hm, ht⟩)
  | command ms i hm ht => exact .inr (.inr ⟨ms, i, hm, ht⟩)
  | idle ht | read _ _ _ ht | ignored _ ht | freqWrite _ _ _ _ _ _ _ _ ht | illegal _ _ _ ht | supply _ _ _ ht
  | discard _ ht | take _ _ _ ht =>
    subst ht
    exact .inl ⟨rfl, rfl, rfl, rfl, rfl⟩

/-- Settles O51, from the frames of the commands and the inversion of a step. -/
theorem theTreeIsImmutable : Obligations.TheTreeIsImmutable := by
  refine ⟨fun i s t hb hr hi h => exec_sameTree hb hr hi h, fun s t h hreset hcmd => ?_⟩
  rcases step_sameTree h with hsame | ⟨ms, hm, _⟩ | ⟨ms, i, hm, hexec⟩
  · exact hsame
  · exact absurd (by rw [hm]; rfl) hreset
  · obtain ⟨h1, h3, h9⟩ := hcmd (encode i) (by rw [hm]; rfl)
    refine exec_sameTree (s := { s with moves := ms }) ?_ ?_ ?_ hexec <;> rintro rfl
    · exact h3 rfl
    · exact h9 rfl
    · exact h1 rfl

/-! ### The counts are written by HIST, FREQ window writes and INIT only -/

theorem exec_sameFreq {i : Instr} {s t : State} (hh : i ≠ .hist) (hi : i ≠ .init) (h : exec i s = .next t) :
    t.freq = s.freq := by
  cases i with
  | hist => exact absurd rfl hh
  | init => exact absurd rfl hi
  | nop => rw [execNop_frame h]
  | build => rw [execBuild_frame h]
  | hdrWr => rw [execHdrWr_frame h]
  | treeWr => rw [execTreeWr_frame h]
  | enc => rw [execEnc_frame h]
  | flush => rw [execFlush_frame h]
  | hdrRd => rw [execHdrRd_frame h]
  | treeRd => rw [execTreeRd_frame h]
  | dec => rw [execDec_frame h]

/-- The FREQ window is the addresses 0x100 to 0x1FF (10_state.md R46). -/
theorem freqWindow_of_freqIndex {a : RegAddr} {b : Byte} (h : freqIndex a = some b) :
    0x100 ≤ a.toNat ∧ a.toNat ≤ 0x1FF := by
  unfold freqIndex at h
  split at h
  · assumption
  · cases h

/-- Settles O52, from the frames of the commands and the inversion of a step. -/
theorem freqHasFewWriters : Obligations.FreqHasFewWriters := by
  refine ⟨fun i s t hh hi h => exec_sameFreq hh hi h, fun s t h hreset hwrite => ?_⟩
  cases stepTo_of_step h with
  | reset ms hm ht => exact absurd (by rw [hm]; rfl) hreset
  | command ms i hm hexec =>
    obtain ⟨h1, h2⟩ := (hwrite cmdAddr (encode i) (by rw [hm]; rfl)).2 rfl
    refine exec_sameFreq (s := { s with moves := ms }) ?_ ?_ hexec <;> rintro rfl
    · exact h2 rfl
    · exact h1 rfl
  | freqWrite ms a v b w d hm ha ht =>
    exact absurd (freqWindow_of_freqIndex ha) (hwrite a v (by rw [hm]; rfl)).1
  | idle ht | read _ _ _ ht | ignored _ ht | illegal _ _ _ ht | supply _ _ _ ht | discard _ ht | take _ _ _ ht =>
    subst ht
    rfl

/-! ### The tree invariant and the code table invariant -/

/-- The tree depends on the node words, their number and `ROOT` alone. -/
theorem State.Holds.congr {s u : State} {t : CodeTree} (h : s.Holds t) (hnode : u.node = s.node)
    (hn : u.nnodes = s.nnodes) (hroot : u.root = s.root) : u.Holds t := by
  obtain ⟨hwf, idx, hs, hp⟩ := h
  exact ⟨hwf, idx, hroot ▸ nodeAt_congr hnode hn ▸ hs, hn ▸ hp⟩

/-- The code table invariant over the tree of `Holds`. -/
theorem codesOf_of_codeInv {s : State} {t : CodeTree} (h : s.CodeInv) (hv : s.treeValid = true) (ht : s.Holds t) :
    CodesOf s.code t := by
  obtain ⟨u, hu, hcodes⟩ := h.1 hv
  exact Option.some.inj (hu.symm.trans ht.tree) ▸ hcodes

/-- Both invariants hold of a state with a good tree and its table. -/
theorem invariants_of_tree {s : State} {t : CodeTree} (hv : s.treeValid = true) (ht : s.Holds t)
    (hc : CodesOf s.code t) : s.TreeInv ∧ s.CodeInv :=
  ⟨(treeInv_iff s).mpr fun _ => ⟨t, ht⟩, fun _ => ⟨t, ht.tree, hc⟩, fun hf => by simp [hv] at hf⟩

/-- Both invariants hold of a state without a tree and with an empty table. -/
theorem invariants_of_noTree {s : State} (hv : s.treeValid = false)
    (hc : ∀ (y : Nat) (h : y < 257), s.code[y].present = false) : s.TreeInv ∧ s.CodeInv :=
  ⟨fun ht => by simp [hv] at ht, fun ht => by simp [hv] at ht, fun _ => hc⟩

theorem clearPresent_present (c : Vector CodeEntry 257) (y : Nat) (h : y < 257) :
    (clearPresent c)[y].present = false := by
  rw [clearPresent_getElem]

theorem SameTree.invariants {s t : State} (h : SameTree s t) (ht : s.TreeInv) (hc : s.CodeInv) :
    t.TreeInv ∧ t.CodeInv := by
  obtain ⟨hnode, hn, hroot, hv, hcode⟩ := h
  cases hvs : s.treeValid with
  | true =>
    obtain ⟨u, hu⟩ := (treeInv_iff s).mp ht hvs
    exact invariants_of_tree (hv.trans hvs) (hu.congr hnode hn hroot) (hcode ▸ codesOf_of_codeInv hc hvs hu)
  | false => exact invariants_of_noTree (hv.trans hvs) (hcode ▸ hc.2 hvs)

theorem clearEngine_invariants (s : State) : (clearEngine s).TreeInv ∧ (clearEngine s).CodeInv :=
  invariants_of_noTree rfl (clearPresent_present s.code)

/-- BUILD establishes both invariants, whatever the state before (40_tree_builder.md R143). -/
theorem execBuild_invariants {s t : State} (hf : s.fault = 0) (h : execBuild s = .next t) :
    t.TreeInv ∧ t.CodeInv := by
  obtain ⟨u, v, hbody, hholds, hcodes, _, hframe⟩ := buildBody_establishes { s with busy := true }
  rw [execBuild, command_ok hf hbody] at h
  cases h
  exact invariants_of_tree (by rw [hframe]) (hholds.congr rfl rfl rfl) hcodes

/-- After a call of `rd` that found EOS, the code computation ends with the table of the tree read. -/
theorem fillCodes_after_rd {fuel : Nat} {s u : State} {i : Idx} {k : ReadTemps}
    (h : rd fuel ⟨0, []⟩ (dropTree s) = .ok (i, k) u) (heos : Config.eos ∈ k.seen) :
    ∃ t v, fillCodes { u with root := i } = .ok () v ∧ v.Holds t ∧ CodesOf v.code t := by
  have hstart : ReaderInv ⟨0, []⟩ (dropTree s) := ⟨rfl, Nat.zero_le _, by simp, List.nodup_nil⟩
  obtain ⟨rfl, t, ht⟩ := rd_reads hstart h
  have hseen : k.seen = t.symbols.reverse := by simpa using ht.seen
  have hinv := ht.inv
  have hwf : t.wellFormed = true := t.wellFormed_iff.mpr
    ⟨fun y hy => hinv.bound y (by simpa [hseen] using hy), by simpa [hseen] using hinv.nodup,
      by simpa [hseen] using heos⟩
  have hn : u.nnodes.toNat = 2 * t.symbols.length - 1 := by
    have : u.nnodes.toNat + 1 = 0 + 2 * t.symbols.length := ht.nnodes
    omega
  have hholds : ({ u with root := (dropTree s).nnodes } : State).Holds t := by
    refine ⟨hwf, _, ht.spans, ?_⟩
    rw [hn, List.range_eq_range']
    exact .refl _
  obtain ⟨v, hv, hframe, hcodes⟩ := fillCodes_spans (s := { u with root := (dropTree s).nnodes }) ht.spans hwf
  unfold sameButCode at hframe
  exact ⟨t, v, hv, hholds.congr (by rw [hframe]) (by rw [hframe]) (by rw [hframe]), hcodes⟩

/-- What TREE_RD leaves: a good tree with its table, or, when it raises, no tree and an empty table
(41_tree_codec.md R154, R155). -/
theorem treeRdBody_invariants (s : State) : (treeRdBody s).endsIn fun u => u.TreeInv ∧ u.CodeInv := by
  have raised : ∀ u : State, sameButReader (dropTree s) u →
      ({ u with nnodes := 0, root := 0 } : State).TreeInv ∧ ({ u with nnodes := 0, root := 0 } : State).CodeInv := by
    intro u hu
    unfold sameButReader at hu
    rw [hu]
    exact invariants_of_noTree rfl (clearPresent_present s.code)
  have hframe := rd_frame (Config.maxInternal + 1) ⟨0, []⟩ (dropTree s)
  unfold treeRdBody treeRdSteps
  cases hrd : rd (Config.maxInternal + 1) ⟨0, []⟩ (dropTree s) with
  | stuck r => trivial
  | raised f info u =>
    rw [hrd] at hframe
    exact raised u hframe
  | ok p u =>
    obtain ⟨i, k⟩ := p
    rw [hrd] at hframe
    by_cases heos : Config.eos ∈ k.seen
    · obtain ⟨t, v, hv, hholds, hcodes⟩ := fillCodes_after_rd hrd heos
      simp only [bind_ok, if_pos heos, hv]
      exact invariants_of_tree rfl (hholds.congr rfl rfl rfl) hcodes
    · simp only [bind_ok, if_neg heos]
      exact raised u hframe

theorem execTreeRd_invariants {s t : State} (hf : s.fault = 0) (h : execTreeRd s = .next t) :
    t.TreeInv ∧ t.CodeInv := by
  have hbody := treeRdBody_invariants { s with busy := true }
  rcases command_cases h with ⟨h0, _⟩ | ⟨_, u, hu, rfl⟩ | ⟨_, f, info, u, hu, rfl⟩
  · exact absurd hf h0
  · rw [hu] at hbody
    exact SameTree.invariants (s := u) ⟨rfl, rfl, rfl, rfl, rfl⟩ hbody.1 hbody.2
  · rw [hu] at hbody
    exact SameTree.invariants (s := u) ⟨rfl, rfl, rfl, rfl, rfl⟩ hbody.1 hbody.2

/-- Every command keeps both invariants: three of them write the tree, and each of these establishes them anew. -/
theorem exec_invariants {i : Instr} {s t : State} (ht : s.TreeInv) (hc : s.CodeInv) (h : exec i s = .next t) :
    t.TreeInv ∧ t.CodeInv := by
  by_cases hi : i = .init
  · subst hi
    cases h
    exact clearEngine_invariants s
  by_cases hf : s.fault = 0
  · by_cases hb : i = .build
    · subst hb; exact execBuild_invariants hf h
    by_cases hr : i = .treeRd
    · subst hr; exact execTreeRd_invariants hf h
    exact (exec_sameTree hb hr hi h).invariants ht hc
  · obtain ⟨body, _, hbody⟩ := exec_eq_command i hi
    rw [hbody, command_faulted hf] at h
    cases h
    exact ⟨ht, hc⟩

/-- Settles O54: a step keeps the tree and its table, or clears them, or runs a command that keeps both invariants. -/
theorem stepKeepsTreeAndCodes : Obligations.StepKeepsTreeAndCodes := by
  intro s t ht hc h
  rcases step_sameTree h with hsame | ⟨ms, _, rfl⟩ | ⟨ms, i, _, hexec⟩
  · exact hsame.invariants ht hc
  · exact clearEngine_invariants _
  · obtain ⟨ht', hc'⟩ := SameTree.invariants (s := s) (t := { s with moves := ms }) ⟨rfl, rfl, rfl, rfl, rfl⟩ ht hc
    exact exec_invariants ht' hc' hexec

end Sys2Proof.Machine
end

section
/-! PROOF. What the registers read (10_state.md R39 to R50). -/

namespace Sys2Proof.Machine

/-! ### The single registers -/

/-- A word made of two fields, as a number. -/
theorem toNat_append_add {m n : Nat} (x : BitVec m) (y : BitVec n) : (x ++ y).toNat = 2 ^ n * x.toNat + y.toNat := by
  rw [BitVec.toNat_append, ← Nat.shiftLeft_add_eq_or_of_lt y.isLt, Nat.shiftLeft_eq, Nat.mul_comm]

theorem statusWord_toNat (s : State) :
    (statusWord s).toNat =
      s.busy.toNat + 2 * s.treeValid.toNat + 4 * s.faulted.toNat + 16 * s.ocnt.toNat + 256 * s.icnt.toNat := by
  simp only [statusWord, toNat_append_add, BitVec.toNat_ofBool, BitVec.toNat_ofNat]
  omega

theorem treeInfoWord_toNat (s : State) : (treeInfoWord s).toNat = s.root.toNat + 65536 * s.nnodes.toNat := by
  simp only [treeInfoWord, toNat_append_add, BitVec.toNat_ofNat]
  omega

theorem faulted_eq_decide (s : State) : s.faulted = decide (s.fault ≠ 0) := by
  rw [State.faulted, decide_not]
  rfl

/-- Settles O41, from the values of the status words. -/
theorem registerReads : Obligations.RegisterReads := by
  intro s
  refine ⟨rfl, rfl, ?_, ?_, rfl, treeInfoWord_toNat s⟩
  · rw [← faulted_eq_decide]
    exact statusWord_toNat s
  · have := s.fault.isLt
    simp [readReg, faultWord]
    omega

/-! ### The windows -/

theorem readReg_freq (s : State) {a : RegAddr} {b : Byte} (h : a.toNat = 0x100 + b.toNat) :
    readReg a s = s.freqAt b := by
  have hb := b.isLt
  have hwin : 0x100 ≤ a.toNat ∧ a.toNat ≤ 0x1FF := by omega
  simp only [readReg]
  iterate 6 rw [if_neg (by omega)]
  rw [dif_pos hwin]
  simp [State.freqAt, h]

theorem readReg_codeLen (s : State) {a : RegAddr} {y : Nat} (hy : y < 257) (h : a.toNat = 0x200 + y) :
    readReg a s = codeLenWord s.code[y] := by
  have hwin : 0x200 ≤ a.toNat ∧ a.toNat ≤ 0x300 := by omega
  simp only [readReg]
  iterate 6 rw [if_neg (by omega)]
  rw [dif_neg (by omega), dif_pos hwin]
  simp [h]

theorem readReg_node (s : State) {a : RegAddr} {i : Nat} (hi : i < 513) (h : a.toNat = 0x400 + i) :
    readReg a s = nodeWindowWord s i hi := by
  have hwin : 0x400 ≤ a.toNat ∧ a.toNat ≤ 0x600 := by omega
  simp only [readReg]
  iterate 6 rw [if_neg (by omega)]
  rw [dif_neg (by omega), dif_neg (by omega), dif_pos hwin]
  simp [h]

theorem readReg_reserved (s : State) {a : RegAddr}
    (h : (0x006 ≤ a.toNat ∧ a.toNat ≤ 0x0FF) ∨ (0x301 ≤ a.toNat ∧ a.toNat ≤ 0x3FF) ∨ 0x601 ≤ a.toNat) :
    readReg a s = 0 := by
  simp only [readReg]
  iterate 6 rw [if_neg (by omega)]
  iterate 3 rw [dif_neg (by omega)]

theorem codeLenWord_toNat {e : CodeEntry} (h : e.present = true) : (codeLenWord e).toNat = 2 ^ 31 + e.len.toNat := by
  simp only [codeLenWord, h, if_true, toNat_append_add, BitVec.toNat_ofNat]
  omega

/-- Settles O42, one clause for each window and one for the reserved addresses. -/
theorem windowReads : Obligations.WindowReads := by
  intro s a
  refine ⟨fun b h => readReg_freq s h, fun y hy h => ?_, fun i hi h => readReg_node s hi h, readReg_reserved s⟩
  rw [readReg_codeLen s hy h]
  exact ⟨codeLenWord_toNat, fun hp => by simp [codeLenWord, hp]⟩

/-! ### Reset -/

theorem reset_freqAt (b : Byte) : State.reset.freqAt b = 0 := Vector.getElem_replicate _

theorem reset_present (y : Nat) (h : y < 257) : State.reset.code[y].present = false := by
  have : State.reset.code[y] = ⟨false, 0, []⟩ := Vector.getElem_replicate _
  rw [this]

/-- Every address names a single register, a word of a window, or nothing (10_state.md R39). -/
theorem addr_cases (a : RegAddr) :
    (a.toNat ≤ 0x005) ∨ (∃ b : Byte, a.toNat = 0x100 + b.toNat) ∨ (∃ y < 257, a.toNat = 0x200 + y) ∨
      (∃ i < 513, a.toNat = 0x400 + i) ∨
      ((0x006 ≤ a.toNat ∧ a.toNat ≤ 0x0FF) ∨ (0x301 ≤ a.toNat ∧ a.toNat ≤ 0x3FF) ∨ 0x601 ≤ a.toNat) := by
  by_cases hf : 0x100 ≤ a.toNat ∧ a.toNat ≤ 0x1FF
  · refine .inr (.inl ⟨BitVec.ofNat 8 (a.toNat - 0x100), ?_⟩)
    rw [BitVec.toNat_ofNat]
    omega
  by_cases hc : 0x200 ≤ a.toNat ∧ a.toNat ≤ 0x300
  · exact .inr (.inr (.inl ⟨a.toNat - 0x200, by omega, by omega⟩))
  by_cases hn : 0x400 ≤ a.toNat ∧ a.toNat ≤ 0x600
  · exact .inr (.inr (.inr (.inl ⟨a.toNat - 0x400, by omega, by omega⟩)))
  omega

/-- At power-on every register but ID reads 0 (10_state.md R50). -/
theorem readReg_reset {a : RegAddr} (h : a ≠ 0x000) : readReg a State.reset = 0 := by
  rcases addr_cases a with ha | ⟨b, ha⟩ | ⟨y, hy, ha⟩ | ⟨i, hi, ha⟩ | ha
  · have single : ∀ k : Fin 6, k ≠ 0 → readReg (BitVec.ofNat 12 k) State.reset = 0 := by decide
    have hk : a = BitVec.ofNat 12 (⟨a.toNat, by omega⟩ : Fin 6) := by simp
    rw [hk]
    exact single _ fun e => h (BitVec.eq_of_toNat_eq (by simpa using congrArg Fin.val e))
  · rw [readReg_freq _ ha, reset_freqAt]
  · rw [readReg_codeLen _ hy ha, codeLenWord, reset_present y hy]
    rfl
  · rw [readReg_node _ hi ha]
    rfl
  · exact readReg_reserved _ ha

/-- Settles O47, field by field. -/
theorem resetValues : Obligations.ResetValues :=
  ⟨reset_freqAt, rfl, rfl, rfl, reset_present, rfl, rfl, rfl, rfl, rfl, rfl, rfl, rfl, rfl, rfl, rfl, rfl, rfl,
    fun _ => readReg_reset⟩

/-- Settles O55: no tree, an empty table, and every other field at 0. -/
theorem resetMeetsTheInvariant : Obligations.ResetMeetsTheInvariant := by
  obtain ⟨htree, hcode⟩ := invariants_of_noTree (s := State.reset) rfl reset_present
  exact ⟨htree, hcode, rfl, ⟨rfl, rfl, rfl⟩, ⟨Nat.zero_le _, fun _ => rfl⟩, Nat.le_refl _⟩

end Sys2Proof.Machine
end

section
/-! PROOF. What every piece of pseudocode keeps on its way (10_state.md R27 to R36): `OUT` grows at its end, `IN` shrinks
at its front, the packer keeps its form, and the fault registers, `PQ` and `STACK` wait for the end of the command. -/

namespace Sys2Proof.Machine

/-- From `s` to `t` the byte streams move on as 10_state.md R31, R33, R34 say, and the host takes nothing. -/
structure StreamsKept (s t : State) : Prop where
  out : s.out <+: t.out
  inp : t.inp <:+ s.inp
  packer : s.PackerInv → t.PackerInv
  taken : t.taken = s.taken

/-- And between the two no fault is recorded, and empty transient structures stay empty. -/
structure BodyKept (s t : State) : Prop extends StreamsKept s t where
  fault : t.fault = s.fault
  finfo : t.finfo = s.finfo
  pq : s.pq = [] → t.pq = []
  stack : s.stack = [] → t.stack = []

theorem StreamsKept.trans {s t u : State} (h : StreamsKept s t) (k : StreamsKept t u) : StreamsKept s u :=
  ⟨h.out.trans k.out, k.inp.trans h.inp, fun hp => k.packer (h.packer hp), k.taken.trans h.taken⟩

theorem BodyKept.trans {s t u : State} (h : BodyKept s t) (k : BodyKept t u) : BodyKept s u :=
  ⟨h.toStreamsKept.trans k.toStreamsKept, k.fault.trans h.fault, k.finfo.trans h.finfo, fun hp => k.pq (h.pq hp),
    fun hp => k.stack (h.stack hp)⟩

/-- What `BodyKept` speaks of, but for the bytes of `IN`. -/
def State.kept (s : State) : List Byte × Byte × BitVec 3 × Nat × BitVec 4 × Word × List PqEntry × List Idx :=
  (s.out, s.oacc, s.ocnt, s.taken, s.fault, s.finfo, s.pq, s.stack)

/-- A change of `IN` and of other elements only. -/
theorem BodyKept.of_kept {s t : State} (h : t.kept = s.kept) (hin : t.inp <:+ s.inp) : BodyKept s t := by
  simp only [State.kept, Prod.mk.injEq] at h
  obtain ⟨hout, hacc, hcnt, htaken, hfault, hfinfo, hpq, hstack⟩ := h
  exact ⟨⟨hout ▸ List.prefix_rfl, hin, by simp only [State.PackerInv, hacc, hcnt, imp_self], htaken⟩, hfault, hfinfo,
    fun hp => hpq.trans hp, fun hp => hstack.trans hp⟩

theorem BodyKept.refl (s : State) : BodyKept s s := .of_kept rfl List.suffix_rfl

/-! ### The primitives -/

theorem writeBit_kept (b : Bool) (s : State) : BodyKept s (writeBit b s) := by
  have hframe := writeBit_frame b s
  have hout : s.out <+: (writeBit b s).out := by
    unfold writeBit
    dsimp only
    split
    · exact List.prefix_append _ _
    · exact List.prefix_rfl
  have hpacker : s.PackerInv → (writeBit b s).PackerInv := fun hp => (writeBit_appends b hp).2.1
  generalize writeBit b s = t at *
  unfold sameButOutput at hframe
  exact ⟨⟨hout, by rw [hframe], hpacker, by rw [hframe]⟩, by rw [hframe], by rw [hframe], fun hp => by rw [hframe, hp],
    fun hp => by rw [hframe, hp]⟩

theorem writeSeq_kept (bs : Bits) (s : State) : BodyKept s (writeSeq bs s) := by
  induction bs generalizing s with
  | nil => exact .refl s
  | cons b bs ih => exact (writeBit_kept b s).trans (ih _)

theorem writeBits_kept {n : Nat} (v : BitVec n) (s : State) : BodyKept s (writeBits v s) := writeSeq_kept _ s

theorem flushBits_kept (s : State) : BodyKept s (flushBits s) := by
  unfold flushBits
  split
  · refine ⟨⟨List.prefix_append _ _, List.suffix_rfl, fun _ => ?_, rfl⟩, rfl, rfl, id, id⟩
    rfl
  · exact .refl s

theorem readBit_kept (f : FaultCode) (s : State) : (readBit f s).endsIn (BodyKept s) := by
  unfold readBit
  split
  · split
    · exact .refl s
    next b rest hinp => exact .of_kept rfl (hinp ▸ List.suffix_cons b rest)
  · exact .of_kept rfl List.suffix_rfl

theorem readBitsFrom_kept (n v : Nat) (f : FaultCode) (s : State) : (readBitsFrom n v f s).endsIn (BodyKept s) := by
  induction n generalizing v s with
  | zero => exact .refl s
  | succ n ih =>
    exact endsIn_bind (readBit_kept f s) (fun _ h => h) fun b t h =>
      endsIn_mono (ih (2 * v + b.toNat) t) fun _ k => h.trans k

theorem readBits_kept (n : Nat) (f : FaultCode) (s : State) : (readBits n f s).endsIn (BodyKept s) :=
  endsIn_bind (readBitsFrom_kept n 0 f s) (fun _ h => h) fun _ _ h => h

theorem readByte_kept {b : Byte} {rest : List Byte} {s : State} (h : s.inp = b :: rest) : BodyKept s (readByte rest s) :=
  .of_kept rfl (h ▸ List.suffix_cons b rest)

/-! ### The loops -/

theorem histLoop_kept {bs : List Byte} {s : State} (h : s.inp = bs) : (histLoop bs s).endsIn (BodyKept s) := by
  induction bs generalizing s with
  | nil => exact .refl s
  | cons b rest ih =>
    have hbyte := readByte_kept h
    unfold histLoop
    split
    · exact hbyte
    · have hset : BodyKept s ((readByte rest s).setFreq b (s.freqAt b + 1)) :=
        hbyte.trans (.of_kept rfl List.suffix_rfl)
      exact endsIn_mono (ih rfl) fun _ k => hset.trans k

theorem encLoop_kept {bs : List Byte} {s : State} (h : s.inp = bs) : (encLoop bs s).endsIn (BodyKept s) := by
  induction bs generalizing s with
  | nil => exact writeSeq_kept _ s
  | cons b rest ih =>
    have hbyte := readByte_kept h
    unfold encLoop
    split
    · exact hbyte
    · have hframe := writeSeq_frame (s.codeOfByte b).bits (readByte rest s)
      have hinp : (writeSeq (s.codeOfByte b).bits (readByte rest s)).inp = rest := by
        unfold sameButOutput at hframe
        rw [hframe]
        rfl
      exact endsIn_mono (ih hinp) fun _ k => (hbyte.trans (writeSeq_kept _ _)).trans k

theorem decLoop_kept (fuel : Nat) (s : State) : (decLoop fuel s).endsIn (BodyKept s) := by
  induction fuel generalizing s with
  | zero => trivial
  | succ fuel ih =>
    have move : ∀ (t : State) (i : Idx), BodyKept t { t with cur := i } := fun t i => .of_kept rfl List.suffix_rfl
    unfold decLoop
    split
    · trivial
    next w _ =>
      split
      · exact endsIn_bind (readBit_kept _ s) (fun _ h => h) fun b t h =>
          endsIn_mono (ih _) fun _ k => (h.trans (move t _)).trans k
      split
      · exact .refl s
      split
      · trivial
      · exact endsIn_mono (ih _) fun _ k => ((writeBits_kept _ s).trans (move _ s.root)).trans k

theorem emit_kept (fuel : Nat) (i : Idx) (s : State) : (emit fuel i s).endsIn (BodyKept s) := by
  induction fuel generalizing i s with
  | zero => trivial
  | succ fuel ih =>
    unfold emit
    split
    · trivial
    split
    · refine endsIn_bind (ih _ _) (fun _ h => (writeBit_kept true s).trans h) fun _ t h => ?_
      exact endsIn_mono (ih _ t) fun _ k => ((writeBit_kept true s).trans h).trans k
    · exact (writeBit_kept false s).trans (writeBits_kept _ _)

theorem setNodeLeft_kept (s : State) (i l : Idx) : BodyKept s (s.setNodeLeft i l) := by
  unfold State.setNodeLeft
  split
  · exact .of_kept rfl List.suffix_rfl
  · exact .refl s

theorem setNodeRight_kept (s : State) (i r : Idx) : BodyKept s (s.setNodeRight i r) := by
  unfold State.setNodeRight
  split
  · exact .of_kept rfl List.suffix_rfl
  · exact .refl s

theorem alloc_kept (w : Word) (s : State) : BodyKept s (alloc w s).2 := .of_kept rfl List.suffix_rfl

theorem rd_kept (fuel : Nat) (k : ReadTemps) (s : State) : (rd fuel k s).endsIn (BodyKept s) := by
  induction fuel generalizing k s with
  | zero => trivial
  | succ fuel ih =>
    unfold rd
    refine endsIn_bind (readBit_kept _ s) (fun _ h => h) fun b t h => ?_
    split
    · split
      · exact h
      · refine endsIn_bind (ih _ _) (fun u k1 => (h.trans (alloc_kept _ t)).trans k1) fun a u k1 => ?_
        have k2 := ((h.trans (alloc_kept _ t)).trans k1).trans (setNodeLeft_kept u t.nnodes a.1)
        exact endsIn_bind (ih _ _) (fun v k3 => k2.trans k3) fun c v k3 =>
          (k2.trans k3).trans (setNodeRight_kept v _ c.1)
    · refine endsIn_bind (readBits_kept 9 _ t) (fun _ k1 => h.trans k1) fun v u k1 => ?_
      split
      · exact h.trans k1
      split
      · exact h.trans k1
      · exact (h.trans k1).trans (alloc_kept _ u)

theorem fillCodes_kept (s : State) : (fillCodes s).endsIn (BodyKept s) := by
  refine endsIn_mono (fillCodes_frame s) fun t h => ?_
  unfold sameButCode at h
  rw [h]
  exact .of_kept rfl List.suffix_rfl

/-! ### The commands -/

theorem emptyStack_kept (s : State) (valid : Bool) : BodyKept s { s with treeValid := valid, stack := [] } :=
  ⟨⟨List.prefix_rfl, List.suffix_rfl, id, rfl⟩, rfl, rfl, id, fun _ => rfl⟩

theorem buildBody_kept (s : State) : ∃ u, buildBody s = .ok () u ∧ BodyKept s u := by
  obtain ⟨_, u, hbody, _, _, _, hframe⟩ := buildBody_establishes s
  refine ⟨u, hbody, ?_⟩
  rw [hframe]
  exact ⟨⟨List.prefix_rfl, List.suffix_rfl, id, rfl⟩, rfl, rfl, fun _ => rfl, fun _ => rfl⟩

theorem treeWrBody_kept (s : State) : (treeWrBody s).endsIn (BodyKept s) := by
  unfold treeWrBody
  split
  · exact .refl s
  · exact endsIn_bind (emit_kept _ _ s) (fun _ h => h) fun _ t h => h.trans (emptyStack_kept t t.treeValid)

theorem treeRdBody_kept (s : State) : (treeRdBody s).endsIn (BodyKept s) := by
  have hdrop : BodyKept s (dropTree s) := .of_kept rfl List.suffix_rfl
  have hsteps : (treeRdSteps s).endsIn (BodyKept s) := by
    refine endsIn_bind (rd_kept _ _ _) (fun _ h => hdrop.trans h) fun r t h => ?_
    have hroot : BodyKept s { t with root := r.1 } := (hdrop.trans h).trans (.of_kept rfl List.suffix_rfl)
    split
    · refine endsIn_bind (fillCodes_kept _) (fun _ k => hroot.trans k) fun _ u k => ?_
      exact (hroot.trans k).trans (emptyStack_kept u true)
    · exact hdrop.trans h
  unfold treeRdBody
  cases hb : treeRdSteps s with
  | ok a t => rwa [hb] at hsteps
  | raised f i t =>
    rw [hb] at hsteps
    exact BodyKept.trans hsteps (.of_kept rfl List.suffix_rfl)
  | stuck r => trivial

theorem histBody_kept (s : State) : (histBody s).endsIn (BodyKept s) := by
  unfold histBody
  split
  · exact .refl s
  · exact histLoop_kept rfl

theorem encBody_kept (s : State) : (encBody s).endsIn (BodyKept s) := by
  unfold encBody
  split
  · exact .refl s
  split
  · exact .refl s
  · exact encLoop_kept rfl

theorem decBody_kept (s : State) : (decBody s).endsIn (BodyKept s) := by
  have hstart : BodyKept s { s with cur := s.root } := .of_kept rfl List.suffix_rfl
  unfold decBody
  split
  · exact .refl s
  · exact endsIn_mono (decLoop_kept _ _) fun _ k => hstart.trans k

theorem hdrRdBody_kept (s : State) : (hdrRdBody s).endsIn (BodyKept s) := by
  refine endsIn_bind (readBits_kept 32 .invalidFormat s) (fun _ h => h) fun v t h => ?_
  split
  · exact h
  · exact h

theorem body_kept {i : Instr} {body : State → Cmd Unit} (h : bodyOf i = some body) (s : State) :
    (body s).endsIn (BodyKept s) := by
  cases i with
  | init => cases h
  | nop => cases h; exact .refl s
  | hist => cases h; exact histBody_kept s
  | build =>
    obtain ⟨u, hu, hkept⟩ := buildBody_kept s
    rw [← Option.some.inj h, hu]
    exact hkept
  | hdrWr => cases h; exact writeBits_kept Config.magic s
  | treeWr => cases h; exact treeWrBody_kept s
  | enc => cases h; exact encBody_kept s
  | flush => cases h; exact flushBits_kept s
  | hdrRd => cases h; exact hdrRdBody_kept s
  | treeRd => cases h; exact treeRdBody_kept s
  | dec => cases h; exact decBody_kept s

/-- What a whole command keeps of the streams: `BUSY` and a raise do not touch them. -/
theorem exec_streamsKept {i : Instr} {s t : State} (h : exec i s = .next t) : StreamsKept s t := by
  by_cases hi : i = .init
  · subst hi
    cases h
    exact ⟨List.prefix_rfl, List.suffix_rfl, fun _ => rfl, rfl⟩
  obtain ⟨body, hbody, hexec⟩ := exec_eq_command i hi
  have hkept := body_kept hbody { s with busy := true }
  rcases command_cases (hexec s ▸ h) with ⟨_, rfl⟩ | ⟨_, u, hu, rfl⟩ | ⟨_, f, info, u, hu, rfl⟩
  · exact (BodyKept.refl t).toStreamsKept
  · rw [hu] at hkept
    exact ⟨hkept.out, hkept.inp, hkept.packer, hkept.taken⟩
  · rw [hu] at hkept
    exact ⟨hkept.out, hkept.inp, hkept.packer, hkept.taken⟩

/-- A raise leaves the engine idle, with the number of its fault (60_exceptions.md R221, R231). -/
theorem raise_idle (f : FaultCode) (info : Word) (s : State) : (raise f info s).IdleInv ∧ (raise f info s).FaultInv := by
  have hnum : (faultNumber f).toNat ≤ 11 ∧ faultNumber f ≠ 0 := by cases f <;> decide
  exact ⟨⟨rfl, rfl, rfl⟩, hnum.1, fun h0 => absurd h0 hnum.2⟩

/-- A command ends idle, and with a legal fault code (10_state.md R27, R29, R35, R36). -/
theorem exec_idle {i : Instr} {s t : State} (hs : s.IdleInv) (hf : s.FaultInv) (h : exec i s = .next t) :
    t.IdleInv ∧ t.FaultInv := by
  by_cases hi : i = .init
  · subst hi
    cases h
    exact ⟨⟨rfl, rfl, rfl⟩, Nat.zero_le _, fun _ => rfl⟩
  obtain ⟨body, hbody, hexec⟩ := exec_eq_command i hi
  have hkept := body_kept hbody { s with busy := true }
  rcases command_cases (hexec s ▸ h) with ⟨_, rfl⟩ | ⟨_, u, hu, rfl⟩ | ⟨_, f, info, u, _, rfl⟩
  · exact ⟨hs, hf⟩
  · rw [hu] at hkept
    obtain ⟨_, hpq, hstack⟩ := hs
    obtain ⟨hmax, hzero⟩ := hf
    exact ⟨⟨rfl, hkept.pq hpq, hkept.stack hstack⟩, hkept.fault ▸ hmax,
      fun h0 => hkept.finfo.trans (hzero (hkept.fault.symm.trans h0))⟩
  · exact raise_idle f info u

/-! ### The steps -/

/-- Settles O49: commands append to `OUT`, and no other move writes it. -/
theorem outOnlyGrows : Obligations.OutOnlyGrows := by
  intro s t h
  have hgrows : s.out <+: t.out := by
    cases stepTo_of_step h with
    | command ms i _ hexec => exact (exec_streamsKept hexec).out
    | idle ht | reset _ _ ht | read _ _ _ ht | ignored _ ht | freqWrite _ _ _ _ _ _ _ _ ht | illegal _ _ _ ht
    | supply _ _ _ ht | discard _ ht | take _ _ _ ht =>
      subst ht
      exact List.prefix_rfl
  obtain ⟨more, hmore⟩ := hgrows
  exact ⟨more, hmore.symm⟩

/-- Settles O50: commands take bytes from the front of `IN`, `Discard` takes all, and only `Supply` adds some. -/
theorem inputIsConsumedFromTheFront : Obligations.InputIsConsumedFromTheFront := by
  refine ⟨fun i s t h => ?_, fun s t h => ?_⟩
  · obtain ⟨used, hused⟩ := (exec_streamsKept h).inp
    exact ⟨used, hused.symm⟩
  cases stepTo_of_step h with
  | command ms i _ hexec =>
    obtain ⟨used, hused⟩ := (exec_streamsKept hexec).inp
    exact .inl ⟨used, hused.symm⟩
  | supply ms bs hm ht => exact .inr ⟨bs, by rw [hm]; rfl, by rw [ht]⟩
  | discard ms ht => exact .inl ⟨s.inp, by rw [ht, List.append_nil]⟩
  | idle ht | reset _ _ ht | read _ _ _ ht | ignored _ ht | freqWrite _ _ _ _ _ _ _ _ ht | illegal _ _ _ ht
  | take _ _ _ ht =>
    subst ht
    exact .inl ⟨[], rfl⟩

/-- Settles O53, from what a command keeps and the inversion of a step. -/
theorem stepKeepsPackerAndIdle : Obligations.StepKeepsPackerAndIdle := by
  intro s t hp hi hf ht h
  cases stepTo_of_step h with
  | command ms i _ hexec =>
    have hkept := exec_streamsKept hexec
    obtain ⟨hi', hf'⟩ := exec_idle (s := { s with moves := ms }) hi hf hexec
    exact ⟨hkept.packer hp, hi', hf', hkept.taken.trans_le (ht.trans hkept.out.length_le)⟩
  | reset ms _ heq =>
    subst heq
    exact ⟨rfl, ⟨rfl, rfl, rfl⟩, ⟨Nat.zero_le _, fun _ => rfl⟩, ht⟩
  | illegal ms v _ heq =>
    subst heq
    obtain ⟨hi', hf'⟩ := raise_idle .illegalCommand v { s with moves := ms }
    exact ⟨hp, hi', hf', ht⟩
  | take ms n hn heq =>
    subst heq
    exact ⟨hp, hi, hf, hn.elim (fun e => e ▸ ht) id⟩
  | idle heq | read _ _ _ heq | ignored _ heq | freqWrite _ _ _ _ _ _ _ _ heq | supply _ _ _ heq | discard _ heq =>
    subst heq
    exact ⟨hp, hi, hf, ht⟩

end Sys2Proof.Machine
end

section
/-! PROOF. Two layouts of one tree (10_state.md R25). TREE_WR and ENC are functions of the tree and the table that both
states hold; DEC walks the two node memories in step, always on the same subtree. -/

namespace Sys2Proof.Machine

/-! ### Results that differ in the layout only -/

/-- `r` is `s` but for how the tree is laid out, the counts and `CUR`. -/
def sameButLayout (s r : State) : Prop :=
  r = { s with node := r.node, nnodes := r.nnodes, root := r.root, code := r.code, freq := r.freq, cur := r.cur }

/-- Two pieces of pseudocode end in the same way, neither in a stop of the model, and in states that differ in the layout
only. -/
inductive Alike {α : Type} : Cmd α → Cmd α → Prop
  | ok (a : α) {s r : State} (h : sameButLayout s r) : Alike (.ok a s) (.ok a r)
  | raised (f : FaultCode) (info : Word) {s r : State} (h : sameButLayout s r) :
      Alike (.raised f info s) (.raised f info r)

theorem sameButLayout.raise {s r : State} (h : sameButLayout s r) (f : FaultCode) (info : Word) :
    sameButLayout (raise f info s) (raise f info r) := by
  unfold sameButLayout at *
  rw [h]
  rfl

theorem sameButLayout.setBusy {s r : State} (h : sameButLayout s r) (b : Bool) :
    sameButLayout { s with busy := b } { r with busy := b } := by
  unfold sameButLayout at *
  rw [h]

theorem sameButLayout.setCur {s r : State} (h : sameButLayout s r) (i j : Idx) :
    sameButLayout { s with cur := i } { r with cur := j } := by
  unfold sameButLayout at *
  rw [h]

theorem sameButLayout.emptyStack {s r : State} (h : sameButLayout s r) :
    sameButLayout { s with stack := [] } { r with stack := [] } := by
  unfold sameButLayout at *
  rw [h]

theorem sameButLayout.readByte {s r : State} (h : sameButLayout s r) (rest : List Byte) :
    sameButLayout (readByte rest s) (readByte rest r) := by
  unfold sameButLayout at *
  rw [h]
  rfl

/-- Bodies that end alike make commands that end alike. -/
theorem command_alike {body : State → Cmd Unit} {s r : State} (h : sameButLayout s r)
    (hb : Alike (body { s with busy := true }) (body { r with busy := true })) :
    ∃ t u, command body s = .next t ∧ command body r = .next u ∧ sameButLayout t u := by
  have hfault : r.fault = s.fault := by
    unfold sameButLayout at h
    rw [h]
  by_cases hf : s.fault = 0
  · generalize hs : body { s with busy := true } = c at hb
    generalize hr : body { r with busy := true } = d at hb
    cases hb with
    | ok _ hlay => exact ⟨_, _, command_ok hf hs, command_ok (hfault.trans hf) hr, hlay.setBusy false⟩
    | raised f info hlay => exact ⟨_, _, command_raised hf hs, command_raised (hfault.trans hf) hr, hlay.raise f info⟩
  · exact ⟨s, r, command_faulted hf, command_faulted (hfault ▸ hf), h⟩

/-! ### The bit primitives do not see the layout -/

theorem writeBit_alike {s r : State} (h : sameButLayout s r) (b : Bool) :
    sameButLayout (writeBit b s) (writeBit b r) := by
  unfold sameButLayout at *
  rw [h]
  unfold writeBit
  dsimp only
  split <;> rfl

theorem writeSeq_cons (b : Bool) (bs : Bits) (s : State) : writeSeq (b :: bs) s = writeSeq bs (writeBit b s) := rfl

theorem writeSeq_alike {s r : State} (h : sameButLayout s r) (bs : Bits) :
    sameButLayout (writeSeq bs s) (writeSeq bs r) := by
  induction bs generalizing s r with
  | nil => exact h
  | cons b bs ih => exact ih (writeBit_alike h b)

theorem readBit_alike {s r : State} (h : sameButLayout s r) (f : FaultCode) : Alike (readBit f s) (readBit f r) := by
  unfold sameButLayout at h
  rw [h]
  unfold readBit
  dsimp only
  split
  · split
    · exact .raised f 0 rfl
    · exact .ok _ rfl
  · exact .ok _ rfl

/-! ### TREE_WR -/

theorem sameButOutput.nodeAt {s t : State} (h : sameButOutput s t) : t.nodeAt = s.nodeAt := by
  unfold sameButOutput at h
  rw [h]
  rfl

/-- `emit` writes the serialization of the tree in node memory (41_tree_codec.md R152). -/
theorem emit_spans {mem : Idx → Option Word} {i : Idx} {t : CodeTree} {idx : List Nat} (h : Spans mem i t idx)
    {fuel : Nat} {s : State} (hm : s.nodeAt = mem) (hd : t.depth < fuel) :
    emit fuel i s = .ok () (writeSeq t.ser s) := by
  obtain ⟨n, rfl⟩ := Nat.exists_eq_succ_of_ne_zero (Nat.ne_zero_of_lt hd)
  induction h generalizing n s with
  | leaf hw hk =>
    rw [emit, hm, hw]
    simp only [hk, Bool.false_eq_true, if_false, CodeTree.ser, writeSeq_cons, writeBits]
  | @internal i w l r li ri hw hk _ _ ihl ihr =>
    obtain ⟨hdl, hdr⟩ := CodeTree.depth_internal_lt.mp hd
    obtain ⟨m, rfl⟩ := Nat.exists_eq_succ_of_ne_zero (Nat.ne_zero_of_lt hdl)
    have hbit := (writeBit_frame true s).nodeAt.trans hm
    have hl := ihl hbit m hdl
    have hr := ihr ((writeSeq_frame l.ser (writeBit true s)).nodeAt.trans hbit) m hdr
    rw [emit, hm, hw]
    simp only [hk, if_true, hl, bind_ok, hr, CodeTree.ser, writeSeq_cons, writeSeq_append]

/-- The body of TREE_WR on a good tree. -/
theorem treeWrBody_holds {s : State} {t : CodeTree} (hv : s.treeValid = true) (ht : s.Holds t) :
    treeWrBody s = .ok () { writeSeq t.ser s with stack := [] } := by
  obtain ⟨hwf, idx, hs, _⟩ := ht
  have hd := CodeTree.wellFormed_depth hwf
  simp only [treeWrBody, hv, Bool.not_true, Bool.false_eq_true, if_false]
  rw [emit_spans hs rfl (by simp only [Config.nodeN]; omega)]
  rfl

/-! ### ENC -/

/-- Two tables with the same entries present, and equal where they are. -/
def SameCodes (m m' : Vector CodeEntry 257) : Prop :=
  ∀ (y : Nat) (h : y < 257), m[y].present = m'[y].present ∧ (m[y].present = true → m[y] = m'[y])

/-- The tables of one tree. -/
theorem sameCodes_of_codesOf {m m' : Vector CodeEntry 257} {t : CodeTree} (hc : CodesOf m t) (hd : CodesOf m' t) :
    SameCodes m m' := by
  intro y hy
  have h1 := hc y hy
  have h2 := hd y hy
  cases ht : t.codeOf (BitVec.ofNat 9 y) with
  | none =>
    simp only [ht, CodeEntry.agrees] at h1 h2
    simp [h1, h2]
  | some e =>
    simp only [ht, CodeEntry.agrees] at h1 h2
    simp [h1, h2]

/-- EOS has a code in the table of a good tree. -/
theorem CodesOf.eos_present {m : Vector CodeEntry 257} {t : CodeTree} (h : CodesOf m t) (hwf : t.wellFormed = true) :
    m[256].present = true := by
  obtain ⟨_, _, heos⟩ := t.wellFormed_iff.mp hwf
  obtain ⟨p, hp⟩ := CodeTree.exists_path heos
  have hcode : t.codeOf (BitVec.ofNat 9 256) = some (BitVec.ofNat 9 p.length, p) := congrArg (Option.map _) hp
  have := h 256 (by omega)
  rw [hcode] at this
  rw [this]

theorem sameButOutput.code {s t : State} (h : sameButOutput s t) : t.code = s.code := by
  unfold sameButOutput at h
  rw [h]

theorem encLoop_alike (bs : List Byte) {s r : State} (h : sameButLayout s r) (hc : SameCodes s.code r.code)
    (heos : s.code[256].present = true) : Alike (encLoop bs s) (encLoop bs r) := by
  induction bs generalizing s r with
  | nil =>
    have : r.code[256] = s.code[256] := ((hc 256 (by omega)).2 heos).symm
    simp only [encLoop, this]
    exact .ok () (writeSeq_alike h _)
  | cons b rest ih =>
    obtain ⟨hpres, heq⟩ : _ ∧ (_ → s.codeOfByte b = r.codeOfByte b) := hc b.toNat (Nat.lt_trans b.isLt (by omega))
    have hpres : (r.codeOfByte b).present = (s.codeOfByte b).present := hpres.symm
    cases hp : (s.codeOfByte b).present with
    | false =>
      simp only [encLoop, hpres, hp, Bool.not_false, if_true]
      exact .raised _ _ (h.readByte rest)
    | true =>
      have hb := heq hp
      have hpr := hpres.trans hp
      have hs := (writeSeq_frame (r.codeOfByte b).bits (readByte rest s)).code
      have hr := (writeSeq_frame (r.codeOfByte b).bits (readByte rest r)).code
      rw [readByte_code] at hs hr
      simp only [encLoop, hb, hpr, Bool.not_true, Bool.false_eq_true, if_false]
      exact ih (writeSeq_alike (h.readByte rest) _) (by rw [hs, hr]; exact hc) (by rw [hs]; exact heos)

/-! ### DEC -/

/-- Node memory holds `t` at index `i`. -/
def State.At (s : State) (i : Idx) (t : CodeTree) : Prop := ∃ idx, Spans s.nodeAt i t idx

/-- A turn of DEC on a Leaf (43_symbol_decoder.md R185). -/
theorem decLoop_leaf {s : State} {y : Sym} (h : s.At s.cur (.leaf y)) (hle : y ≤ Config.eos) (fuel : Nat) :
    decLoop (fuel + 1) s =
      if y = Config.eos then .ok () s else decLoop fuel { writeBits (y.setWidth 8) s with cur := s.root } := by
  obtain ⟨idx, hs⟩ := h
  generalize hc : CodeTree.leaf y = c at hs
  cases hs with
  | leaf hw hk =>
    cases hc
    simp only [decLoop, hw, hk, Bool.false_eq_true, if_false, if_neg (BitVec.not_lt.mpr hle)]
  | internal => cases hc

/-- A turn of DEC on an Internal node: the next bit chooses the child. -/
theorem decLoop_internal {s : State} {l r : CodeTree} (h : s.At s.cur (.internal l r)) :
    ∃ i j, s.At i l ∧ s.At j r ∧ ∀ fuel, decLoop (fuel + 1) s =
      (readBit .malformedStream s).bind fun b t => decLoop fuel { t with cur := if b then j else i } := by
  obtain ⟨idx, hs⟩ := h
  cases hs with
  | @internal _ w _ _ li ri hw hk hl hr =>
    exact ⟨nodeLeft w, nodeRight w, ⟨li, hl⟩, ⟨ri, hr⟩, fun fuel => by simp only [decLoop, hw, hk, if_true]⟩

/-- How many turns DEC takes at most from a node with `n` input bits left (43_symbol_decoder.md R188). -/
def CodeTree.turns : CodeTree → Nat → Nat
  | .leaf _, n => 2 * n + 2
  | .internal _ _, n => 2 * n + 1

theorem CodeTree.turns_le (c : CodeTree) (n : Nat) : c.turns n ≤ 2 * n + 2 := by
  cases c <;> simp [turns]

/-- A good tree with a Leaf that is not EOS is not a lone Leaf. -/
theorem CodeTree.turns_of_other_leaf {t : CodeTree} {y : Sym} (hwf : t.wellFormed = true) (hy : y ∈ t.symbols)
    (hne : y ≠ Config.eos) (n : Nat) : t.turns n = 2 * n + 1 := by
  cases t with
  | internal l r => rfl
  | leaf z =>
    obtain ⟨_, _, heos⟩ := (leaf z).wellFormed_iff.mp hwf
    exact absurd ((List.mem_singleton.mp hy).trans (List.mem_singleton.mp heos).symm) hne

/-- DEC on two engines that hold `t`, both at the subtree `c`. -/
structure DecodersAt (t c : CodeTree) (s r : State) : Prop where
  layout : sameButLayout s r
  rootS : s.At s.root t
  rootR : r.At r.root t
  curS : s.At s.cur c
  curR : r.At r.cur c
  within : c.symbols ⊆ t.symbols

theorem State.At.of_eq {s u : State} {i : Idx} {t : CodeTree} (h : s.At i t) (hm : u.nodeAt = s.nodeAt) : u.At i t := by
  unfold State.At
  rw [hm]
  exact h

/-- Moving `CUR` on both engines to the same subtree, in states that still hold the two layouts. -/
theorem DecodersAt.move {t c d : CodeTree} {s r s' r' : State} {i j : Idx} (h : DecodersAt t c s r)
    (hlay : sameButLayout s' r') (hs : s'.nodeAt = s.nodeAt ∧ s'.root = s.root)
    (hr : r'.nodeAt = r.nodeAt ∧ r'.root = r.root) (hi : s.At i d) (hj : r.At j d) (hd : d.symbols ⊆ t.symbols) :
    DecodersAt t d { s' with cur := i } { r' with cur := j } where
  layout := hlay.setCur i j
  rootS := hs.2 ▸ h.rootS.of_eq hs.1
  rootR := hr.2 ▸ h.rootR.of_eq hr.1
  curS := hi.of_eq hs.1
  curR := hj.of_eq hr.1
  within := hd

theorem sameButInput.node_root {s t : State} (h : sameButInput s t) : t.nodeAt = s.nodeAt ∧ t.root = s.root := by
  refine ⟨h.nodeAt, ?_⟩
  unfold sameButInput at h
  rw [h]

theorem sameButOutput.node_root {s t : State} (h : sameButOutput s t) : t.nodeAt = s.nodeAt ∧ t.root = s.root := by
  refine ⟨h.nodeAt, ?_⟩
  unfold sameButOutput at h
  rw [h]

theorem sameButOutput.inputBitCount {s t : State} (h : sameButOutput s t) : inputBitCount t = inputBitCount s := by
  unfold sameButOutput at h
  rw [h]
  rfl

/-- The two engines decode in step, and within the turns R188 counts. -/
theorem decLoop_alike {t : CodeTree} (hwf : t.wellFormed = true) {fuel : Nat} {c : CodeTree} {s r : State}
    (h : DecodersAt t c s r) (hfuel : c.turns (inputBitCount s) ≤ fuel) : Alike (decLoop fuel s) (decLoop fuel r) := by
  induction fuel generalizing c s r with
  | zero => cases c <;> simp [CodeTree.turns] at hfuel
  | succ fuel ih =>
    cases c with
    | leaf y =>
      have hy : y ∈ t.symbols := h.within (List.mem_singleton.mpr rfl)
      have hle := (t.wellFormed_iff.mp hwf).1 y hy
      rw [decLoop_leaf h.curS hle, decLoop_leaf h.curR hle]
      by_cases hne : y = Config.eos
      · rw [if_pos hne, if_pos hne]
        exact .ok () h.layout
      · rw [if_neg hne, if_neg hne]
        have hws := writeBits_frame (y.setWidth 8 : Byte) s
        have hwr := writeBits_frame (y.setWidth 8 : Byte) r
        have hlay : sameButLayout (writeBits (y.setWidth 8 : Byte) s) (writeBits (y.setWidth 8 : Byte) r) :=
          writeSeq_alike h.layout _
        generalize writeBits (y.setWidth 8 : Byte) s = s' at *
        generalize writeBits (y.setWidth 8 : Byte) r = r' at *
        refine ih (h.move hlay hws.node_root hwr.node_root h.rootS h.rootR (List.Subset.refl _)) ?_
        have hcount : inputBitCount { s' with cur := s.root } = inputBitCount s := hws.inputBitCount
        rw [CodeTree.turns_of_other_leaf hwf hy hne, hcount]
        exact Nat.le_of_succ_le_succ hfuel
    | internal a b =>
      obtain ⟨i, j, hsi, hsj, hstep⟩ := decLoop_internal h.curS
      obtain ⟨i', j', hri, hrj, hstep'⟩ := decLoop_internal h.curR
      rw [hstep, hstep']
      have hbit := readBit_alike h.layout .malformedStream
      have hframe := readBit_frame .malformedStream r
      generalize readBit .malformedStream r = x at *
      rcases readBit_cases .malformedStream s with ⟨_, hs⟩ | ⟨bit, s', hbits, hs, hs', _⟩
      · rw [hs] at hbit ⊢
        cases hbit with
        | raised _ _ hlay => exact .raised _ _ hlay
      · rw [hs] at hbit ⊢
        cases hbit with
        | @ok _ _ r' hlay =>
          have hr' : sameButInput r r' := hframe
          have hcount : inputBitCount s = inputBitCount s' + 1 := by
            rw [← inBits_length, hbits, List.length_cons, inBits_length]
          have hsub : (CodeTree.internal a b).symbols ⊆ t.symbols := h.within
          rw [CodeTree.symbols, List.append_subset] at hsub
          have hleft : 2 * inputBitCount s' + 2 ≤ fuel := by
            rw [hcount, CodeTree.turns] at hfuel
            omega
          cases bit with
          | true =>
            exact ih (h.move hlay hs'.node_root hr'.node_root hsj hrj hsub.2)
              ((b.turns_le _).trans hleft)
          | false =>
            exact ih (h.move hlay hs'.node_root hr'.node_root hsi hri hsub.1)
              ((a.turns_le _).trans hleft)

/-! ### The three commands -/

/-- Two engines with valid trees that hold `t` in two layouts, each with the table of `t`. -/
structure TwoLayouts (t : CodeTree) (s r : State) : Prop where
  layout : sameButLayout s r
  validS : s.treeValid = true
  validR : r.treeValid = true
  holdsS : s.Holds t
  holdsR : r.Holds t
  codesS : CodesOf s.code t
  codesR : CodesOf r.code t

/-- A running command sees the same two layouts. -/
theorem TwoLayouts.setBusy {t : CodeTree} {s r : State} (h : TwoLayouts t s r) :
    TwoLayouts t { s with busy := true } { r with busy := true } where
  layout := h.layout.setBusy true
  validS := h.validS
  validR := h.validR
  holdsS := h.holdsS.congr rfl rfl rfl
  holdsR := h.holdsR.congr rfl rfl rfl
  codesS := h.codesS
  codesR := h.codesR

theorem TwoLayouts.treeWr {t : CodeTree} {s r : State} (h : TwoLayouts t s r) :
    Alike (treeWrBody s) (treeWrBody r) := by
  rw [treeWrBody_holds h.validS h.holdsS, treeWrBody_holds h.validR h.holdsR]
  exact .ok () (writeSeq_alike h.layout _).emptyStack

theorem TwoLayouts.enc {t : CodeTree} {s r : State} (h : TwoLayouts t s r) : Alike (encBody s) (encBody r) := by
  have hlay := h.layout
  unfold sameButLayout at hlay
  have hinp : r.inp = s.inp := by rw [hlay]
  have hicnt : r.icnt = s.icnt := by rw [hlay]
  simp only [encBody, h.validS, h.validR, hinp, hicnt, Bool.not_true, Bool.false_eq_true, if_false]
  split
  · exact .raised _ _ h.layout
  · exact encLoop_alike _ h.layout (sameCodes_of_codesOf h.codesS h.codesR) (h.codesS.eos_present h.holdsS.1)

theorem decBody_valid {s : State} (h : s.treeValid = true) :
    decBody s = decLoop (2 * inputBitCount s + 2) { s with cur := s.root } := if_neg (by simp [h])

theorem TwoLayouts.dec {t : CodeTree} {s r : State} (h : TwoLayouts t s r) : Alike (decBody s) (decBody r) := by
  have hlay := h.layout
  unfold sameButLayout at hlay
  have hcount : inputBitCount r = inputBitCount s := by rw [hlay]; rfl
  obtain ⟨hwf, is, hs, _⟩ := h.holdsS
  obtain ⟨_, ir, hr, _⟩ := h.holdsR
  rw [decBody_valid h.validS, decBody_valid h.validR, hcount]
  exact decLoop_alike hwf ⟨h.layout.setCur _ _, ⟨is, hs⟩, ⟨ir, hr⟩, ⟨is, hs⟩, ⟨ir, hr⟩, List.Subset.refl _⟩
    (t.turns_le _)

/-- Entries that agree where they are present read alike in the CODELEN window. -/
theorem SameCodes.codeLenWord {m m' : Vector CodeEntry 257} (h : SameCodes m m') (y : Nat) (hy : y < 257) :
    codeLenWord m'[y] = codeLenWord m[y] := by
  obtain ⟨hpres, heq⟩ := h y hy
  cases hp : m[y].present with
  | true => rw [heq hp]
  | false => simp [Machine.codeLenWord, hp, ← hpres]

/-- Settles O58: TREE_WR and ENC are functions of what the two states share, and DEC walks both layouts in step. -/
theorem equalTreesGiveEqualResults : Obligations.EqualTreesGiveEqualResults := by
  intro s r hs hr hv htree hlay
  obtain ⟨hsTree, hsCode, -⟩ := hs
  obtain ⟨hrTree, hrCode, -⟩ := hr
  have hvr : r.treeValid = true := by rw [hlay, hv]
  obtain ⟨t, ht⟩ := (treeInv_iff s).mp hsTree hv
  have htr := holds_of_tree hrTree hvr (htree ▸ ht.tree)
  have htwo : TwoLayouts t s r :=
    ⟨hlay, hv, hvr, ht, htr, codesOf_of_codeInv hsCode hv ht, codesOf_of_codeInv hrCode hvr htr⟩
  refine ⟨fun i hi => ?_, fun a hlo hhi => ?_⟩
  · simp only [List.mem_cons, List.not_mem_nil, or_false] at hi
    rcases hi with rfl | rfl | rfl
    · exact command_alike hlay htwo.setBusy.treeWr
    · exact command_alike hlay htwo.setBusy.enc
    · exact command_alike hlay htwo.setBusy.dec
  · obtain ⟨y, ha⟩ := Nat.exists_eq_add_of_le hlo
    have hy : y < 257 := by omega
    rw [readReg_codeLen r hy ha, readReg_codeLen s hy ha]
    exact (sameCodes_of_codesOf htwo.codesS htwo.codesR).codeLenWord y hy

end Sys2Proof.Machine
end

section
/-! PROOF. The host's register accesses and stream moves (20_memory.md R62, R63, R78 to R82), and the alignment that the
raw byte readers ask for (R73). -/

namespace Sys2Proof.Machine

/-! ### The FREQ window (10_state.md R46) -/

theorem freqIndex_of_window {a : RegAddr} {b : Byte} (h : a.toNat = 0x100 + b.toNat) : freqIndex a = some b := by
  have hb := b.isLt
  rw [freqIndex, if_pos (by omega), h, Nat.add_sub_cancel_left, BitVec.ofNat_toNat, BitVec.setWidth_eq]

theorem freqIndex_outside {a : RegAddr} (h : ¬ (0x100 ≤ a.toNat ∧ a.toNat ≤ 0x1FF)) : freqIndex a = none :=
  if_neg h

/-- No counter shares the address of CMD. -/
theorem ne_cmdAddr_of_window {a : RegAddr} {b : Byte} (h : a.toNat = 0x100 + b.toNat) : a ≠ cmdAddr := by
  rintro rfl
  have hcmd : cmdAddr.toNat = 1 := rfl
  omega

theorem freqAddr_toNat (b : Byte) : (BitVec.ofNat 12 (0x100 + b.toNat)).toNat = 0x100 + b.toNat := by
  have hb := b.isLt
  exact Nat.mod_eq_of_lt (by omega)

/-! ### Register writes, one case each (20_memory.md R63, R78) -/

theorem memWrite_freq_idle {s : State} {a : RegAddr} {b : Byte} (v : Word) (hb : s.busy = false)
    (ha : a.toNat = 0x100 + b.toNat) : memWrite a v s = .next (s.setFreq b v) := by
  simp [memWrite, ne_cmdAddr_of_window ha, freqIndex_of_window ha, hb]

/-- While `BUSY` = 1 the counter is left with a free value (log entry 6). -/
theorem memWrite_freq_busy {s : State} {a : RegAddr} {b : Byte} (v : Word) (hb : s.busy = true)
    (ha : a.toNat = 0x100 + b.toNat) :
    memWrite a v s = .next ((drawWord s).2.setFreq b (drawWord s).1) := by
  simp [memWrite, ne_cmdAddr_of_window ha, freqIndex_of_window ha, hb]

theorem memWrite_ignored {s : State} {a : RegAddr} (v : Word) (hcmd : a ≠ cmdAddr)
    (ha : ¬ (0x100 ≤ a.toNat ∧ a.toNat ≤ 0x1FF)) : memWrite a v s = .next s := by
  simp [memWrite, hcmd, freqIndex_outside ha]

theorem memWrite_cmd_busy {s : State} (v : Word) (hb : s.busy = true) : memWrite cmdAddr v s = .next s := by
  simp [memWrite, hb]

/-! ### Register reads while busy (20_memory.md R78) -/

theorem memRead_status (s : State) :
    memRead statusAddr s = { s with replies := s.replies ++ [readReg statusAddr s] } := by
  simp [memRead]

/-- Any read gives the host one value, and draws at most a free one. -/
theorem memRead_replies (a : RegAddr) (s : State) :
    ∃ v, memRead a s = { s with replies := s.replies ++ [v], draws := (memRead a s).draws } := by
  unfold memRead
  split
  · exact ⟨(drawWord s).1, rfl⟩
  · exact ⟨readReg a s, rfl⟩

/-! ### Stream moves (20_memory.md R81, R82) -/

theorem discard_idle {s : State} (hb : s.busy = false) : discard s = .next { s with inp := [] } := by
  simp [discard, hb]

theorem takeByte_eq (s : State) :
    takeByte s = { s with taken := if s.taken < s.out.length then s.taken + 1 else s.taken } := by
  unfold takeByte
  split <;> rfl

/-! ### Alignment of the raw byte readers (20_memory.md R73) -/

theorem histBody_misaligned {s : State} (h : s.icnt ≠ 0) : histBody s = .raised .streamMisaligned 0 s :=
  if_pos h

/-- The check for a tree comes before the check for alignment (42_symbol_encoder.md R172). -/
theorem encBody_misaligned {s : State} (hv : s.treeValid = true) (h : s.icnt ≠ 0) :
    encBody s = .raised .streamMisaligned 0 s := by
  rw [encBody, hv, Bool.not_true, if_neg Bool.false_ne_true, if_pos h]

/-! ### The statements -/

/-- Settles O44: the write is `setFreq` in the window, and is ignored outside it and CMD. -/
theorem registerWrites : Obligations.RegisterWrites := by
  intro s a v ms hm hb
  rw [step_move hm]
  refine ⟨fun b ha => ?_, fun hcmd ha => memWrite_ignored v hcmd ha⟩
  refine ⟨_, memWrite_freq_idle v hb ha, rfl, ?_, fun c hc => freqAt_setFreq_other _ v hc⟩
  rw [readReg_freq _ ha, freqAt_setFreq_same]

/-- Settles O48, one rule of a busy engine for each clause. -/
theorem hostAccessWhileBusy : Obligations.HostAccessWhileBusy := by
  intro s ms hb
  refine ⟨fun hm => ?_, fun a hm => ?_, fun v hm => ?_, fun b v hm => ?_⟩ <;> rw [step_move hm]
  · exact congrArg Host.Outcome.next (memRead_status { s with moves := ms })
  · obtain ⟨v, hv⟩ := memRead_replies a { s with moves := ms }
    exact ⟨_, v, rfl, hv⟩
  · exact memWrite_cmd_busy v hb
  · exact ⟨_, memWrite_freq_busy v hb (freqAddr_toNat b), rfl, fun c hc => freqAt_setFreq_other _ _ hc⟩

/-- Settles O4: the move is taken off, and the dispatch of a legal word is its command. -/
theorem stepRunsTheDecodedCommand : Obligations.StepRunsTheDecodedCommand := by
  intro s v i ms hm hb hv
  calc step s
      = memWrite cmdAddr v { s with moves := ms } := step_move hm
    _ = dispatch v { s with moves := ms } := memWrite_cmd v hb
    _ = exec i { s with moves := ms } := dispatch_legal hv _

/-- Settles O16: both bodies raise before they read a byte, and the frame of a command records the raise. -/
theorem rawBytesNeedAlignment : Obligations.RawBytesNeedAlignment := fun _ hf hi =>
  ⟨command_raised hf (histBody_misaligned hi), fun hv => command_raised hf (encBody_misaligned hv hi)⟩

/-- Settles O43: an idle engine's read is the register's value, added to the replies. -/
theorem readsHaveNoEffect : Obligations.ReadsHaveNoEffect := by
  intro s a ms hm hb
  rw [step_move hm]
  exact congrArg Host.Outcome.next (memRead_idle (s := { s with moves := ms }) a hb)

/-- Settles O45, one clause for each move and one for the empty list. -/
theorem streamMoves : Obligations.StreamMoves := by
  intro s ms
  refine ⟨fun bs hm => step_move hm, fun hm hb => ?_, fun hm => ?_, step_idle⟩ <;> rw [step_move hm]
  · exact discard_idle hb
  · exact congrArg Host.Outcome.next (takeByte_eq { s with moves := ms })

end Sys2Proof.Machine
end

section
/-! PROOF. Command words: the decoder and the encoder are inverse on the legal words, which are 0x0 to 0xA, and any other
word raises IllegalCommand (30_encoding.md R100 to R104). -/

namespace Sys2Proof.Machine

/-- No command has an operand that could be out of range (30_encoding.md R105). -/
theorem wellFormed_eq_true (i : Instr) : i.wellFormed = true := by
  cases i <;> rfl

/-- Each command's word decodes to it (30_encoding.md R102). -/
@[simp] theorem decode_encode (i : Instr) : decode (encode i) = .ok i := by
  cases i <;> rfl

theorem decode_eq_ok_iff {v : Word} {i : Instr} : decode v = .ok i ↔ encode i = v :=
  ⟨encode_of_decode, fun h => h ▸ decode_encode i⟩

/-- The table's numbering of a 32-bit word is its value. -/
theorem decodeTableWord_toNat {v : Word} {i : Instr} (h : decode v = .ok i) : decodeTableWord 32 v.toNat = some i := by
  have hv : BitVec.ofNat 32 (v.toNat % 2 ^ 32) = v := by
    rw [Nat.mod_eq_of_lt v.isLt, BitVec.ofNat_toNat, BitVec.setWidth_eq]
  rw [decodeTableWord, hv, h]

theorem encode_toNat_le (i : Instr) : (encode i).toNat ≤ 0x0A := by
  cases i <;> decide

/-- No opcode from 0x0 to 0xA is reserved (30_encoding.md R102). -/
theorem exists_opcodeMap {n : Nat} (h : n ≤ 0x0A) : ∃ i, opcodeMap n = some i := by
  have hall : ∀ k : Fin 11, (opcodeMap k).isSome = true := by decide
  exact Option.isSome_iff_exists.mp (hall ⟨n, by omega⟩)

theorem exists_encode {v : Word} (h : v.toNat ≤ 0x0A) : ∃ i, encode i = v := by
  obtain ⟨i, hi⟩ := exists_opcodeMap h
  exact ⟨i, by rw [encode_of_opcodeMap hi, BitVec.ofNat_toNat, BitVec.setWidth_eq]⟩

/-- The two field checks together: bits 31:8 are 0 and the rest is at most 0xA, so the word is (30_encoding.md R101). -/
theorem wordWellFormed_iff {v : Word} : wordWellFormed v = true ↔ v.toNat ≤ 0x0A := by
  have hv := v.isLt
  have hzero : zeroFieldOk v = true ↔ v.toNat / 256 = 0 := by
    rw [zeroFieldOk, beq_iff_eq, BitVec.toNat_eq, BitVec.extractLsb'_toNat, Nat.shiftRight_eq_div_pow,
      show (0 : BitVec 24).toNat = 0 from rfl]
    omega
  have hopc : opcodeOk v = true ↔ v.toNat % 256 ≤ 0x0A := by
    rw [opcodeOk, decide_eq_true_iff, BitVec.extractLsb'_toNat, Nat.shiftRight_zero]
  rw [wordWellFormed, Bool.and_eq_true, hzero, hopc]
  omega

/-- A word above 0xA is the word of no command, so the decoder rejects it. -/
theorem decode_error_of_lt {v : Word} (h : 0x0A < v.toNat) : ∃ e, decode v = .error e := by
  cases hd : decode v with
  | error e => exact ⟨e, rfl⟩
  | ok i => exact absurd (encode_of_decode hd ▸ encode_toNat_le i) (by omega)

/-- A raise on an engine between commands writes `FAULT` and `FINFO` alone (60_exceptions.md R231). -/
theorem raise_of_idle {s : State} (h : s.IdleInv) (f : FaultCode) (info : Word) :
    raise f info { s with busy := true } = { s with fault := faultNumber f, finfo := info } := by
  obtain ⟨hbusy, hpq, hstack⟩ := h
  simp only [raise, hbusy, hpq, hstack]

/-- Settles O2: up to 0xA every word is some command's, above it none is. -/
theorem legalWordsAreZeroToTen : Obligations.LegalWordsAreZeroToTen := by
  refine fun v => ⟨fun hle => ?_, fun hlt => ?_⟩
  · obtain ⟨i, hi⟩ := exists_encode hle
    exact ⟨wordWellFormed_iff.mpr hle, i, decode_eq_ok_iff.mpr hi, hi⟩
  · have hwf : ¬ wordWellFormed v = true := fun h => absurd (wordWellFormed_iff.mp h) (by omega)
    exact ⟨Bool.eq_false_of_not_eq_true hwf, decode_error_of_lt hlt⟩

/-- Settles O6: the write dispatches the word, the dispatch raises, and a raise between commands writes two registers. -/
theorem illegalWordRaisesIllegalCommand : Obligations.IllegalWordRaisesIllegalCommand := by
  intro s v ms hm hidle hf hv
  obtain ⟨e, he⟩ := decode_error_of_lt hv
  calc step s
      = memWrite cmdAddr v { s with moves := ms } := step_move hm
    _ = dispatch v { s with moves := ms } := memWrite_cmd v hidle.1
    _ = command (illegalBody v) { s with moves := ms } := dispatch_illegal he _
    _ = .next (raise .illegalCommand v { s with moves := ms, busy := true }) := command_raised hf rfl
    _ = .next { s with moves := ms, fault := 10, finfo := v } :=
        congrArg Host.Outcome.next (raise_of_idle (s := { s with moves := ms }) hidle .illegalCommand v)

/-- Settles O1: the decoder undoes the encoder, in the table's numbering too. -/
theorem decodeEncodeRoundTrip : Obligations.DecodeEncodeRoundTrip := fun i =>
  ⟨wellFormed_eq_true i, decode_encode i, decodeTableWord_toNat (decode_encode i)⟩

/-- Settles O3: six words are those of commands, the last two fail one check each. -/
theorem wordsFromTheTableDecode : Obligations.WordsFromTheTableDecode :=
  ⟨decode_encode .hist, decode_encode .build, decode_encode .treeWr, decode_encode .enc, decode_encode .dec,
    decode_encode .hdrRd, rfl, rfl⟩

end Sys2Proof.Machine
end

section
/-! PROOF. The serialization of a Code Tree (30_encoding.md R108 to R113): its length, and that `des` and `ser` are
inverse to each other. -/

namespace Sys2Proof.Machine

namespace CodeTree

/-- A Leaf takes 10 bits and an Internal node one (30_encoding.md R113). -/
theorem ser_length_add_one (t : CodeTree) : t.ser.length + 1 = 11 * t.symbols.length := by
  induction t with
  | leaf y => simp [ser, symbols]
  | internal l r ihl ihr =>
    simp only [ser, symbols, List.length_cons, List.length_append]
    omega

/-- A turn of `des` at tag 0 reads the symbol that `ser` wrote. -/
theorem desFrom_leaf (fuel : Nat) (y : Sym) (x : Bits) :
    desFrom (fuel + 1) ((leaf y).ser ++ x) = some (leaf y, x) := by
  have hlen : ¬ (msb y ++ x).length < 9 := by simp
  have htake : (msb y ++ x).take 9 = msb y := List.take_left' (msb_length y)
  have hdrop : (msb y ++ x).drop 9 = x := List.drop_left' (msb_length y)
  rw [ser, List.cons_append, desFrom, if_neg hlen, htake, hdrop, bitsValue_msb, BitVec.ofNat_toNat, BitVec.setWidth_eq]

/-- `des` reads back what `ser` wrote and leaves the rest (30_encoding.md R112). -/
theorem desFrom_ser {t : CodeTree} {fuel : Nat} (h : t.ser.length ≤ fuel) (x : Bits) :
    desFrom fuel (t.ser ++ x) = some (t, x) := by
  induction t generalizing fuel x with
  | leaf y =>
    obtain ⟨n, rfl⟩ : ∃ n, fuel = n + 1 := Nat.exists_eq_succ_of_ne_zero (by rintro rfl; simp [ser] at h)
    exact desFrom_leaf n y x
  | internal l r ihl ihr =>
    simp only [ser, List.length_cons, List.length_append] at h
    obtain ⟨n, rfl⟩ : ∃ n, fuel = n + 1 := Nat.exists_eq_succ_of_ne_zero (by omega)
    have hl := ihl (fuel := n) (by omega) (r.ser ++ x)
    have hr := ihr (fuel := n) (by omega) x
    simp [ser, desFrom, hl, hr]

theorem des_ser (t : CodeTree) (x : Bits) : des (t.ser ++ x) = some (t, x) :=
  desFrom_ser (by rw [List.length_append]; omega) x

/-- `des` gives a tree only for bits that begin with the serialization of that tree (30_encoding.md R112). -/
theorem eq_ser_of_desFrom {fuel : Nat} {b x : Bits} {t : CodeTree} (h : desFrom fuel b = some (t, x)) :
    b = t.ser ++ x := by
  induction fuel generalizing b t x with
  | zero => cases h
  | succ fuel ih =>
    match b with
    | [] => cases h
    | true :: b =>
      cases hl : desFrom fuel b with
      | none => simp [desFrom, hl] at h
      | some dl =>
        obtain ⟨l, b1⟩ := dl
        cases hr : desFrom fuel b1 with
        | none => simp [desFrom, hl, hr] at h
        | some dr =>
          obtain ⟨r, b2⟩ := dr
          obtain ⟨rfl, rfl⟩ : internal l r = t ∧ b2 = x := by simpa [desFrom, hl, hr] using h
          simp [ser, ih hl, ih hr]
    | false :: b =>
      by_cases hb : b.length < 9
      · simp [desFrom, hb] at h
      · obtain ⟨y, hy⟩ := exists_msb 9 (b.take 9) (by simp; omega)
        have hs : false :: b = (leaf y).ser ++ b.drop 9 := by simp [ser, hy]
        rw [hs, desFrom_leaf] at h
        cases h
        exact hs

theorem eq_ser_of_des {b x : Bits} {t : CodeTree} (h : des b = some (t, x)) : b = t.ser ++ x :=
  eq_ser_of_desFrom h

/-- A serialization that begins with a shorter one is that one: nothing follows it (30_encoding.md R112). -/
theorem ser_append_inj {t u : CodeTree} {x y : Bits} (h : t.ser ++ x = u.ser ++ y) : t = u ∧ x = y := by
  have hsome : some (t, x) = some (u, y) := by rw [← des_ser t x, h, des_ser u y]
  simpa using hsome

/-- Bits that end before the tree is complete begin with no serialization. -/
theorem des_proper_prefix {t : CodeTree} {p q : Bits} (h : t.ser = p ++ q) (hq : q ≠ []) : des p = none := by
  cases hd : des p with
  | none => rfl
  | some d =>
    obtain ⟨u, x⟩ := d
    have hser : t.ser ++ [] = u.ser ++ (x ++ q) := by
      rw [List.append_nil, h, eq_ser_of_des hd, List.append_assoc]
    obtain ⟨-, hnil⟩ := ser_append_inj hser
    exact absurd (List.append_eq_nil_iff.mp hnil.symm).2 hq

end CodeTree

/-- Settles O25: the two counts, each by induction over the tree. -/
theorem serializationLength : Obligations.SerializationLength := fun t =>
  ⟨t.ser_length_add_one, t.internalCount_add_one⟩

/-- Settles O26: `des` undoes `ser`, and no serialization begins with another. -/
theorem desInvertsSer : Obligations.DesInvertsSer :=
  ⟨CodeTree.des_ser, fun _ _ _ => CodeTree.des_proper_prefix⟩

end Sys2Proof.Machine
end

section
/-! PROOF. No code of a tree begins another (30_encoding.md R115). -/

namespace Sys2Proof.Machine

namespace CodeTree

/-- A path in an Internal node begins with the branch to the subtree that has the symbol (42_symbol_encoder.md R170). -/
theorem path_internal_cases {l r : CodeTree} {y : Sym} {p : Bits} (h : (internal l r).path y = some p) :
    (∃ q, l.path y = some q ∧ p = false :: q) ∨ (∃ q, r.path y = some q ∧ p = true :: q) := by
  cases hl : l.path y with
  | some q => exact .inl ⟨q, rfl, by simpa [path, hl] using h.symm⟩
  | none =>
    obtain ⟨q, hq, hp⟩ := Option.map_eq_some_iff.mp (by simpa only [path, hl] using h)
    exact .inr ⟨q, hq, hp.symm⟩

/-- A Leaf has one symbol, at the empty path. -/
theorem eq_of_path_leaf {x y : Sym} {p : Bits} (h : (leaf x).path y = some p) : x = y := by
  by_contra hne
  simp [path, hne] at h

/-- A path that begins another leads to the same Leaf. -/
theorem eq_of_path_prefix {t : CodeTree} {a b : Sym} {p q : Bits} (ha : t.path a = some p) (hb : t.path b = some q)
    (hpq : p <+: q) : a = b := by
  induction t generalizing p q with
  | leaf x => exact (eq_of_path_leaf ha).symm.trans (eq_of_path_leaf hb)
  | internal l r ihl ihr =>
    obtain ⟨p', ha', rfl⟩ | ⟨p', ha', rfl⟩ := path_internal_cases ha <;>
      obtain ⟨q', hb', rfl⟩ | ⟨q', hb', rfl⟩ := path_internal_cases hb
    · exact ihl ha' hb' (List.cons_prefix_cons.mp hpq).2
    · cases (List.cons_prefix_cons.mp hpq).1
    · cases (List.cons_prefix_cons.mp hpq).1
    · exact ihr ha' hb' (List.cons_prefix_cons.mp hpq).2

end CodeTree

/-- Settles O37: two codes, one of which begins the other, lead to the same Leaf. -/
theorem noCodeBeginsAnother : Obligations.NoCodeBeginsAnother := fun _ _ _ _ _ ha hb hne hpq =>
  hne (CodeTree.eq_of_path_prefix ha hb hpq)

end Sys2Proof.Machine
end

section
/-! PROOF. HIST counts the bytes of `IN` up to the first one whose counter is at its top (40_tree_builder.md R132,
R138). -/

namespace Sys2Proof.Machine

/-- A counter below its top is counted on by one, the others stay (40_tree_builder.md R138). -/
theorem counts_setFreq_succ {s : State} {b : Byte} (h : s.counts b < 2 ^ 32 - 1) (c : Byte) :
    (s.setFreq b (s.freqAt b + 1)).counts c = s.counts c + [b].count c := by
  have hsucc : (s.freqAt b + 1).toNat = (s.freqAt b).toNat + 1 :=
    BitVec.toNat_add_of_lt (Nat.add_lt_of_lt_sub h)
  rw [State.counts, freqAt_setFreq, List.count_singleton]
  by_cases hc : c = b
  · rw [if_pos hc, hsucc, hc, if_pos (beq_self_eq_true b)]
    rfl
  · rw [if_neg hc, if_neg (by simpa using Ne.symm hc)]
    rfl

/-- A counter stands at its top when its count is 2^32 - 1. -/
theorem freqAt_eq_cntMax_iff {s : State} {b : Byte} : s.freqAt b = Config.cntMax ↔ s.counts b = 2 ^ 32 - 1 :=
  BitVec.toNat_eq

/-- HIST's loop runs through bytes whose counters have room, counting each one (40_tree_builder.md R132). -/
theorem histLoop_append {pre post : List Byte} {s : State} (hinp : s.inp = pre ++ post)
    (hroom : ∀ c, s.counts c + pre.count c ≤ 2 ^ 32 - 1) :
    ∃ u, histLoop (pre ++ post) s = histLoop post u ∧ u = { s with freq := u.freq, inp := post } ∧
      ∀ c, u.counts c = s.counts c + pre.count c := by
  induction pre generalizing s with
  | nil => exact ⟨s, rfl, by rw [← List.nil_append post, ← hinp], fun _ => rfl⟩
  | cons b pre ih =>
    have hcount : ∀ c, (b :: pre).count c = [b].count c + pre.count c := fun _ => List.count_append (l₁ := [b])
    have hb : s.counts b < 2 ^ 32 - 1 := by
      have := hroom b
      rw [List.count_cons_self] at this
      omega
    have hnext : ∀ c, ((readByte (pre ++ post) s).setFreq b (s.freqAt b + 1)).counts c = s.counts c + [b].count c :=
      counts_setFreq_succ (s := readByte (pre ++ post) s) hb
    obtain ⟨u, hloop, hu, hcounts⟩ := ih (s := (readByte (pre ++ post) s).setFreq b (s.freqAt b + 1)) rfl
      (fun c => by rw [hnext, Nat.add_assoc, ← hcount]; exact hroom c)
    refine ⟨u, ?_, hu, fun c => ?_⟩
    · rw [List.cons_append, histLoop, if_neg (mt freqAt_eq_cntMax_iff.mp (Nat.ne_of_lt hb)), hloop]
    · rw [hcounts, hnext, hcount, Nat.add_assoc]

/-- HIST at a byte boundary, run through the bytes that can be counted. -/
theorem histBody_append {pre post : List Byte} {s : State} (hi : s.icnt = 0) (hinp : s.inp = pre ++ post)
    (hroom : ∀ c, s.counts c + pre.count c ≤ 2 ^ 32 - 1) :
    ∃ u, histBody s = histLoop post u ∧ u = { s with freq := u.freq, inp := post } ∧
      ∀ c, u.counts c = s.counts c + pre.count c := by
  rw [histBody, if_neg (not_not_intro hi), hinp]
  exact histLoop_append hinp hroom

/-- Settles O14: the loop runs through the whole message. -/
theorem histCountsTheBytes : Obligations.HistCountsTheBytes := by
  intro s hf hi hroom
  obtain ⟨u, hbody, hu, hcounts⟩ :=
    histBody_append (s := { s with busy := true }) (post := []) hi (List.append_nil _).symm hroom
  refine ⟨_, command_ok hf hbody, ?_, hcounts⟩
  rw [hu]

/-- Settles O15: the loop runs through the bytes before `b` and raises at `b`. -/
theorem histStopsAtAFullCounter : Obligations.HistStopsAtAFullCounter := by
  intro s pre post b hf hi hinp hroom hfull
  obtain ⟨u, hbody, hu, hcounts⟩ := histBody_append (s := { s with busy := true }) hi hinp hroom
  have hb : u.freqAt b = Config.cntMax := freqAt_eq_cntMax_iff.mpr ((hcounts b).trans hfull)
  rw [histLoop, if_pos hb] at hbody
  refine ⟨_, command_raised hf hbody, ?_, hcounts⟩
  rw [hu]
  rfl

end Sys2Proof.Machine
end

section
/-! PROOF. The abstract `build` (40_tree_builder.md R130): its merge loop as a relation, free of the bound and of the
sequence numbers, and what follows from it for the tree built: its leaves and its weight (R137, R143). -/

namespace Sys2Proof.Machine

/-! ### The least element -/

theorem takeLeast_eq_none {q : List Weighted} : takeLeast q = none ↔ q = [] := by
  cases q with
  | nil => simp [takeLeast]
  | cons e es =>
    cases h : takeLeast es with
    | none => simp [takeLeast, h]
    | some r => by_cases hb : e.before r.1 <;> simp [takeLeast, h, hb]

/-- The order of the queue is by weight first (40_tree_builder.md R134). -/
theorem Weighted.le_of_before {x y : Weighted} (h : x.before y = true) : x.w ≤ y.w := by
  simp only [before, Bool.or_eq_true, decide_eq_true_iff, Bool.and_eq_true, beq_iff_eq] at h
  omega

theorem Weighted.le_of_not_before {x y : Weighted} (h : ¬ x.before y = true) : y.w ≤ x.w := by
  simp only [before, Bool.or_eq_true, decide_eq_true_iff, Bool.and_eq_true, beq_iff_eq] at h
  omega

/-- Taking the least element out reorders the queue, and none of the rest weighs less. -/
theorem takeLeast_cases {q rest : List Weighted} {m : Weighted} (h : takeLeast q = some (m, rest)) :
    q.Perm (m :: rest) ∧ ∀ x ∈ rest, m.w ≤ x.w := by
  induction q generalizing m rest with
  | nil => cases h
  | cons e es ih =>
    cases he : takeLeast es with
    | none =>
      obtain rfl := takeLeast_eq_none.mp he
      obtain ⟨rfl, rfl⟩ : e = m ∧ [] = rest := by simpa [takeLeast] using h
      exact ⟨.refl _, by simp⟩
    | some r =>
      obtain ⟨k, es'⟩ := r
      obtain ⟨hperm, hmin⟩ := ih he
      by_cases hb : e.before k
      · obtain ⟨rfl, rfl⟩ : e = m ∧ es = rest := by simpa [takeLeast, he, hb] using h
        have hek := Weighted.le_of_before hb
        refine ⟨.refl _, fun x hx => ?_⟩
        rcases List.mem_cons.mp (hperm.mem_iff.mp hx) with rfl | hx
        · exact hek
        · exact hek.trans (hmin x hx)
      · obtain ⟨rfl, rfl⟩ : k = m ∧ e :: es' = rest := by simpa [takeLeast, he, hb] using h
        refine ⟨(hperm.cons e).trans (.swap _ _ _), fun x hx => ?_⟩
        rcases List.mem_cons.mp hx with rfl | hx
        · exact Weighted.le_of_not_before hb
        · exact hmin x hx

/-! ### The merge loop -/

/-- The merges of R130 from a queue to the tree left: each joins the two least elements, the least one on the left. -/
inductive Merges : List Weighted → CodeTree → Prop
  | done (a : Weighted) : Merges [a] a.t
  | merge {q rest : List Weighted} {a b : Weighted} {n : Nat} {t : CodeTree} (hperm : q.Perm (a :: b :: rest))
      (hab : a.w ≤ b.w) (hmin : ∀ x ∈ rest, b.w ≤ x.w)
      (h : Merges (rest ++ [⟨a.w + b.w, n, .internal a.t b.t⟩]) t) : Merges q t

/-- The merge loop ends with one tree, by merges (40_tree_builder.md R137). -/
theorem mergeTrees_merges {fuel n : Nat} {q : List Weighted} (hne : q ≠ []) (hfuel : q.length ≤ fuel) :
    ∃ t, mergeTrees fuel n q = some t ∧ Merges q t := by
  induction fuel generalizing n q with
  | zero => exact absurd (List.length_eq_zero_iff.mp (Nat.le_zero.mp hfuel)) hne
  | succ fuel ih =>
    cases h1 : takeLeast q with
    | none => exact absurd (takeLeast_eq_none.mp h1) hne
    | some r1 =>
      obtain ⟨a, q1⟩ := r1
      obtain ⟨hq1, hmin1⟩ := takeLeast_cases h1
      cases h2 : takeLeast q1 with
      | none =>
        obtain rfl := takeLeast_eq_none.mp h2
        obtain rfl := List.perm_singleton.mp hq1
        exact ⟨a.t, by simp [mergeTrees, h1, h2], .done a⟩
      | some r2 =>
        obtain ⟨b, q2⟩ := r2
        obtain ⟨hq2, hmin2⟩ := takeLeast_cases h2
        have hq := hq1.trans (hq2.cons a)
        have hlen := hq.length_eq
        obtain ⟨t, ht, hm⟩ := ih (n := n + 1) (q := q2 ++ [⟨a.w + b.w, n, .internal a.t b.t⟩]) (by simp)
          (by simp at hlen ⊢; omega)
        exact ⟨t, by simp [mergeTrees, h1, h2, ht], .merge hq (hmin1 b (hq2.mem_iff.mpr (by simp))) hmin2 hm⟩

/-- Merging keeps the leaves (40_tree_builder.md R136). -/
theorem Merges.symbols_perm {q : List Weighted} {t : CodeTree} (h : Merges q t) :
    t.symbols.Perm (q.flatMap fun x => x.t.symbols) := by
  induction h with
  | done a => simp
  | @merge q rest a b n t hperm _ _ _ ih =>
    have hsum : (q.flatMap fun x => x.t.symbols).Perm
        ((a.t.symbols ++ b.t.symbols) ++ rest.flatMap fun x => x.t.symbols) := by
      simpa using hperm.flatMap_right fun x => x.t.symbols
    have hnew : t.symbols.Perm ((rest.flatMap fun x => x.t.symbols) ++ (a.t.symbols ++ b.t.symbols)) := by
      simpa [CodeTree.symbols] using ih
    exact hnew.trans (List.perm_append_comm.trans hsum.symm)

/-! ### The queue before the first merge -/

/-- What the queue holds, seen through a function that does not look at the sequence numbers: the bytes present,
ascending, then EOS (40_tree_builder.md R135). -/
theorem startQueue_map {β : Type} (f : Byte → Nat) (g : Weighted → β) (h : Byte → β) (e : β)
    (hbyte : ∀ b k, g ⟨f b, k, .leaf (byteSym b)⟩ = h b) (heos : ∀ k, g ⟨1, k, .leaf Config.eos⟩ = e) :
    (startQueue f).map g = (presentBytes f).map h ++ [e] := by
  have hmap : ((presentBytes f).mapIdx fun k b => (⟨f b, k, .leaf (byteSym b)⟩ : Weighted)).map g =
      (presentBytes f).map h :=
    List.ext_getElem (by simp) (by simp [hbyte])
  simp only [startQueue, List.map_append, hmap, List.map_cons, heos, List.map_nil]

theorem startQueue_symbols (f : Byte → Nat) :
    ((startQueue f).flatMap fun x => x.t.symbols) = (presentBytes f).map byteSym ++ [Config.eos] := by
  rw [List.flatMap_def, startQueue_map f _ (fun b => [byteSym b]) [Config.eos] (fun _ _ => rfl) (fun _ => rfl),
    List.flatten_append, ← List.flatMap_def, ← List.map_eq_flatMap]
  rfl

theorem startQueue_weights (f : Byte → Nat) : (startQueue f).map Weighted.w = (presentBytes f).map f ++ [1] :=
  startQueue_map f _ f 1 (fun _ _ => rfl) (fun _ => rfl)

theorem startQueue_ne_nil (f : Byte → Nat) : startQueue f ≠ [] := by simp [startQueue]

theorem buildTree_merges (f : Byte → Nat) : ∃ t, buildTree f = some t ∧ Merges (startQueue f) t :=
  mergeTrees_merges (startQueue_ne_nil f) (Nat.le_refl _)

/-! ### Weights -/

theorem CodeTree.weight_eq_sum (f : Sym → Nat) (t : CodeTree) : t.weight f = (t.symbols.map f).sum := by
  induction t with
  | leaf y => simp [weight, symbols]
  | internal l r ihl ihr => simp [weight, symbols, ihl, ihr]

theorem byteSym_ne_eos (b : Byte) : byteSym b ≠ Config.eos := by
  intro h
  have : b.toNat % 2 ^ 9 = 256 := by simpa [byteSym] using congrArg BitVec.toNat h
  have := b.isLt
  omega

@[simp] theorem symbolWeight_byteSym (f : Byte → Nat) (b : Byte) : symbolWeight f (byteSym b) = f b := by
  have hb : (byteSym b).setWidth 8 = b := BitVec.eq_of_toNat_eq (by
    have := b.isLt
    simp [byteSym])
  rw [symbolWeight, if_neg (byteSym_ne_eos b), hb]

@[simp] theorem symbolWeight_eos (f : Byte → Nat) : symbolWeight f 256#9 = 1 := if_pos rfl

/-- The weights of the leaves are the counts of the bytes present, then the 1 of EOS. -/
theorem map_symbolWeight (f : Byte → Nat) :
    ((presentBytes f).map byteSym ++ [Config.eos]).map (symbolWeight f) = (presentBytes f).map f ++ [1] := by
  simp [Function.comp_def]

/-- Absent bytes count 0 (40_tree_builder.md R130). -/
theorem sum_map_filter_pos (f : Byte → Nat) (bs : List Byte) :
    ((bs.filter fun b => 0 < f b).map f).sum = (bs.map f).sum := by
  induction bs with
  | nil => rfl
  | cons b bs ih =>
    by_cases hb : 0 < f b
    · simp [hb, ih]
    · simp [ih, Nat.eq_zero_of_not_pos hb]

/-- Settles O22: the merges keep the leaves, and the weight of a tree is the sum over its leaves. -/
theorem builtTreeHasTheSymbols : Obligations.BuiltTreeHasTheSymbols := by
  intro f
  obtain ⟨t, ht, hm⟩ := buildTree_merges f
  have hperm : t.symbols.Perm ((presentBytes f).map byteSym ++ [Config.eos]) := startQueue_symbols f ▸ hm.symbols_perm
  obtain ⟨hle, hnd⟩ := builtSymbols_wellFormed f
  refine ⟨t, ht, t.wellFormed_iff.mpr ⟨fun y hy => hle y (hperm.mem_iff.mp hy), hperm.nodup_iff.mpr hnd,
    hperm.mem_iff.mpr (by simp)⟩, hperm, ?_⟩
  calc t.weight (symbolWeight f)
      = (t.symbols.map (symbolWeight f)).sum := t.weight_eq_sum _
    _ = (((presentBytes f).map byteSym ++ [Config.eos]).map (symbolWeight f)).sum := (hperm.map _).sum_eq
    _ = ((presentBytes f).map f).sum + 1 := by rw [map_symbolWeight, List.sum_append, List.sum_singleton]
    _ = (allBytes.map f).sum + 1 := by rw [presentBytes, sum_map_filter_pos]
    _ = 1 + (allBytes.map f).sum := Nat.add_comm _ _

end Sys2Proof.Machine
end

section
/-! PROOF. `build` minimises the cost (40_tree_builder.md R143). A tree is compared through the depths and weights of its
leaves alone: its depths fill the code space (the sums of 2^-depth are 1), so two leaves are deepest; the two least weights
can be moved there without more cost, and joining them leaves depths that fill the code space with one leaf fewer. This is
the merge that the queue makes. -/

namespace Sys2Proof.Machine

/-! ### Depths that fill the code space -/

/-- `2^n` times the sum of `2^-d` over the depths `d`, which are at most `n`. -/
def codeSpace (n : Nat) (ds : List Nat) : Nat := (ds.map fun d => 2 ^ (n - d)).sum

@[simp] theorem codeSpace_nil (n : Nat) : codeSpace n [] = 0 := rfl

@[simp] theorem codeSpace_cons (n d : Nat) (ds : List Nat) : codeSpace n (d :: ds) = 2 ^ (n - d) + codeSpace n ds := by
  simp [codeSpace]

@[simp] theorem codeSpace_append (n : Nat) (ds es : List Nat) :
    codeSpace n (ds ++ es) = codeSpace n ds + codeSpace n es := by
  simp [codeSpace]

theorem codeSpace_perm {n : Nat} {ds es : List Nat} (h : ds.Perm es) : codeSpace n ds = codeSpace n es :=
  (h.map _).sum_eq

/-- Measured one level deeper the code space doubles. -/
theorem codeSpace_succ {n : Nat} {ds : List Nat} (h : ∀ d ∈ ds, d ≤ n) : codeSpace (n + 1) ds = 2 * codeSpace n ds := by
  induction ds with
  | nil => rfl
  | cons d ds ih =>
    have hd : n + 1 - d = n - d + 1 := Nat.succ_sub (h d (by simp))
    rw [codeSpace_cons, codeSpace_cons, ih fun e he => h e (by simp [he]), hd, Nat.pow_succ]
    omega

theorem le_of_not_mem_succ {n : Nat} {ds : List Nat} (hle : ∀ d ∈ ds, d ≤ n + 1) (hn : n + 1 ∉ ds) :
    ∀ d ∈ ds, d ≤ n := fun d hd => by
  have := hle d hd
  have : d ≠ n + 1 := by rintro rfl; exact hn hd
  omega

/-- The depths of the leaves of a full binary tree: the sum of `2^-d` is 1. -/
def FillsCodeSpace (ds : List Nat) : Prop := ∃ n, (∀ d ∈ ds, d ≤ n) ∧ codeSpace n ds = 2 ^ n

/-- Of two or more depths that fill the code space two are deepest, and their leaves can be joined. -/
theorem FillsCodeSpace.join_deepest {ds : List Nat} (h : FillsCodeSpace ds) (h2 : 2 ≤ ds.length) :
    ∃ n es, ds.Perm ((n + 1) :: (n + 1) :: es) ∧ (∀ d ∈ ds, d ≤ n + 1) ∧ FillsCodeSpace (n :: es) := by
  obtain ⟨n, hle, hsum⟩ := h
  induction n with
  | zero =>
    have hlen : codeSpace 0 ds = ds.length := by simp [codeSpace]
    omega
  | succ n ih =>
    by_cases hn : n + 1 ∈ ds
    · obtain ⟨es, hes⟩ : ∃ es, ds.Perm ((n + 1) :: es) := ⟨_, List.perm_cons_erase hn⟩
      have hlees : ∀ d ∈ es, d ≤ n + 1 := fun d hd => hle d (hes.mem_iff.mpr (by simp [hd]))
      rw [codeSpace_perm hes, codeSpace_cons, Nat.sub_self, Nat.pow_succ] at hsum
      by_cases hn2 : n + 1 ∈ es
      · obtain ⟨rest, hrest⟩ : ∃ rest, es.Perm ((n + 1) :: rest) := ⟨_, List.perm_cons_erase hn2⟩
        rw [codeSpace_perm hrest, codeSpace_cons, Nat.sub_self] at hsum
        refine ⟨n, rest, hes.trans (hrest.cons _), hle, n + 1, fun d hd => ?_, ?_⟩
        · rcases List.mem_cons.mp hd with rfl | hd
          · omega
          · exact hlees d (hrest.mem_iff.mpr (by simp [hd]))
        · rw [codeSpace_cons, Nat.add_sub_cancel_left, Nat.pow_succ]
          omega
      · rw [codeSpace_succ (le_of_not_mem_succ hlees hn2)] at hsum
        omega
    · have hle := le_of_not_mem_succ hle hn
      rw [codeSpace_succ hle, Nat.pow_succ] at hsum
      exact ih hle (by omega)

/-! ### Leaves by depth and weight -/

/-- The sum of depth times weight. -/
def depthCost (ps : List (Nat × Nat)) : Nat := (ps.map fun p => p.1 * p.2).sum

@[simp] theorem depthCost_cons (p : Nat × Nat) (ps : List (Nat × Nat)) :
    depthCost (p :: ps) = p.1 * p.2 + depthCost ps := by
  simp [depthCost]

@[simp] theorem depthCost_append (ps qs : List (Nat × Nat)) : depthCost (ps ++ qs) = depthCost ps + depthCost qs := by
  simp [depthCost]

theorem depthCost_perm {ps qs : List (Nat × Nat)} (h : ps.Perm qs) : depthCost ps = depthCost qs :=
  (h.map _).sum_eq

/-- The least weight changes places with that of a deepest leaf: the depths stay and the cost does not grow. -/
theorem exchange_deepest {n x a : Nat} {ps : List (Nat × Nat)} (hdeep : ∀ d ∈ ps.map Prod.fst, d ≤ n)
    (hmem : a ∈ x :: ps.map Prod.snd) (hmin : a ≤ x) :
    ∃ qs : List (Nat × Nat), qs.map Prod.fst = ps.map Prod.fst ∧
      (a :: qs.map Prod.snd).Perm (x :: ps.map Prod.snd) ∧ n * a + depthCost qs ≤ n * x + depthCost ps := by
  rcases List.mem_cons.mp hmem with rfl | hmem
  · exact ⟨ps, rfl, .refl _, Nat.le_refl _⟩
  · obtain ⟨⟨d, a'⟩, hp, rfl⟩ := List.mem_map.mp hmem
    obtain ⟨l, r, rfl⟩ := List.append_of_mem hp
    have hcost : n * a' + d * x ≤ n * x + d * a' := by
      linarith [mul_add_mul_le_mul_add_mul (hdeep d (by simp)) hmin]
    refine ⟨l ++ (d, x) :: r, by simp, ?_, by simp; omega⟩
    simp only [List.map_append, List.map_cons]
    exact (List.perm_middle.cons a').trans ((List.Perm.swap _ _ _).trans (List.perm_middle.symm.cons x))

/-- Leaves whose depths fill the code space can be joined where their two least weights are, for the sum of these. -/
theorem join_least {a b : Nat} {ws : List Nat} {ps : List (Nat × Nat)} (hfill : FillsCodeSpace (ps.map Prod.fst))
    (hperm : (ps.map Prod.snd).Perm (a :: b :: ws)) (hab : a ≤ b) (hmin : ∀ w ∈ ws, b ≤ w) :
    ∃ qs : List (Nat × Nat), FillsCodeSpace (qs.map Prod.fst) ∧ (qs.map Prod.snd).Perm ((a + b) :: ws) ∧
      depthCost qs + (a + b) ≤ depthCost ps := by
  have hlen : 2 ≤ (ps.map Prod.fst).length := by
    rw [List.length_map, ← List.length_map Prod.snd, hperm.length_eq]
    exact Nat.le_add_left 2 _
  obtain ⟨n, es, hes, hdeep, hjoin⟩ := hfill.join_deepest hlen
  obtain ⟨ps', hps', hps⟩ : Relation.Comp (· = List.map Prod.fst ·) List.Perm ((n + 1) :: (n + 1) :: es) ps := by
    rw [List.eq_map_comp_perm]
    exact hes.symm
  obtain ⟨⟨_, x⟩, _, rfl, rfl, hps1⟩ := List.map_eq_cons_iff.mp hps'.symm
  obtain ⟨⟨_, y⟩, rest, rfl, rfl, rfl⟩ := List.map_eq_cons_iff.mp hps1
  have hdeep : ∀ d ∈ ((n + 1, y) :: rest).map Prod.fst, d ≤ n + 1 := fun d hd =>
    hdeep d (hes.mem_iff.mpr (List.mem_cons_of_mem _ hd))
  have hxy : (x :: y :: rest.map Prod.snd).Perm (a :: b :: ws) := (hps.map Prod.snd).trans hperm
  have ha : ∀ w ∈ a :: b :: ws, a ≤ w := by
    simp only [List.forall_mem_cons]
    exact ⟨Nat.le_refl a, hab, fun w hw => hab.trans (hmin w hw)⟩
  obtain ⟨qs, hfst, hsnd, hcost1⟩ := exchange_deepest (ps := (n + 1, y) :: rest) hdeep
    (hxy.mem_iff.mpr (by simp)) (ha x (hxy.mem_iff.mp (by simp)))
  obtain ⟨⟨_, z⟩, rest1, rfl, rfl, hfst1⟩ := List.map_eq_cons_iff.mp hfst
  have hz : (z :: rest1.map Prod.snd).Perm (b :: ws) := (hsnd.trans hxy).cons_inv
  have hb : ∀ w ∈ b :: ws, b ≤ w := List.forall_mem_cons.mpr ⟨Nat.le_refl b, hmin⟩
  obtain ⟨rest2, hfst2, hsnd2, hcost2⟩ := exchange_deepest (n := n + 1)
    (fun d hd => hdeep d (List.mem_cons_of_mem _ (hfst1 ▸ hd))) (hz.mem_iff.mpr (by simp)) (hb z (hz.mem_iff.mp (by simp)))
  refine ⟨(n, a + b) :: rest2, ?_, (hsnd2.trans hz).cons_inv.cons _, ?_⟩
  · rwa [List.map_cons, hfst2, hfst1]
  · rw [← depthCost_perm hps]
    simp only [depthCost_cons] at hcost1 ⊢
    linarith

/-! ### The leaves of a tree -/

namespace CodeTree

/-- The leaves of a tree, each with its depth, the root's being `d`, and its weight. -/
def leavesFrom (f : Sym → Nat) : Nat → CodeTree → List (Nat × Nat)
  | d, leaf y => [(d, f y)]
  | d, internal l r => leavesFrom f (d + 1) l ++ leavesFrom f (d + 1) r

theorem leavesFrom_weights (f : Sym → Nat) (d : Nat) (t : CodeTree) :
    (t.leavesFrom f d).map Prod.snd = t.symbols.map f := by
  induction t generalizing d with
  | leaf y => rfl
  | internal l r ihl ihr => simp [leavesFrom, symbols, ihl, ihr]

theorem leavesFrom_cost (f : Sym → Nat) (d : Nat) (t : CodeTree) : depthCost (t.leavesFrom f d) = t.costFrom f d := by
  induction t generalizing d with
  | leaf y => rfl
  | internal l r ihl ihr => simp [leavesFrom, costFrom, ihl, ihr]

/-- A subtree at depth `d` takes `2^-d` of the code space. -/
theorem leavesFrom_codeSpace (f : Sym → Nat) {d n : Nat} {t : CodeTree} (h : d + t.depth ≤ n) :
    (∀ e ∈ (t.leavesFrom f d).map Prod.fst, e ≤ n) ∧ codeSpace n ((t.leavesFrom f d).map Prod.fst) = 2 ^ (n - d) := by
  induction t generalizing d with
  | leaf y => exact ⟨by simpa [leavesFrom, depth] using h, by simp [leavesFrom]⟩
  | internal l r ihl ihr =>
    rw [depth] at h
    obtain ⟨hlel, hl⟩ := ihl (d := d + 1) (by omega)
    obtain ⟨hler, hr⟩ := ihr (d := d + 1) (by omega)
    rw [leavesFrom, List.map_append]
    refine ⟨fun e he => (List.mem_append.mp he).elim (hlel e) (hler e), ?_⟩
    have hd : n - d = n - (d + 1) + 1 := by omega
    rw [codeSpace_append, hl, hr, hd, Nat.pow_succ]
    omega

theorem leaves_fillCodeSpace (f : Sym → Nat) (t : CodeTree) : FillsCodeSpace ((t.leavesFrom f 0).map Prod.fst) :=
  ⟨t.depth, leavesFrom_codeSpace f (Nat.le_of_eq (Nat.zero_add _))⟩

/-- A tree that stands one level deeper costs its weight more. -/
theorem costFrom_succ (f : Sym → Nat) (d : Nat) (t : CodeTree) : t.costFrom f (d + 1) = t.costFrom f d + t.weight f := by
  induction t generalizing d with
  | leaf y => exact Nat.succ_mul d (f y)
  | internal l r ihl ihr => simp only [costFrom, weight, ihl, ihr]; omega

theorem cost_internal (f : Sym → Nat) (l r : CodeTree) :
    (internal l r).cost f = l.cost f + r.cost f + (l.weight f + r.weight f) := by
  rw [cost, costFrom, costFrom_succ, costFrom_succ]
  exact Nat.add_add_add_comm _ _ _ _

end CodeTree

/-- Merging the least is least: against leaves of the queue's weights whose depths fill the code space, the tree built costs
no more than the trees it began with and these leaves (40_tree_builder.md R143). -/
theorem Merges.cost_le {f : Sym → Nat} {q : List Weighted} {t : CodeTree} (h : Merges q t)
    (hw : ∀ x ∈ q, x.w = x.t.weight f) {ps : List (Nat × Nat)} (hfill : FillsCodeSpace (ps.map Prod.fst))
    (hps : (ps.map Prod.snd).Perm (q.map Weighted.w)) :
    t.cost f ≤ (q.map fun x => x.t.cost f).sum + depthCost ps := by
  induction h generalizing ps with
  | done a => simp
  | @merge q rest a b n t hperm hab hmin _ ih =>
    have hwq : ∀ x ∈ a :: b :: rest, x.w = x.t.weight f := fun x hx => hw x (hperm.mem_iff.mpr hx)
    simp only [List.forall_mem_cons] at hwq
    obtain ⟨hwa, hwb, hwrest⟩ := hwq
    obtain ⟨qs, hfill', hqs, hcost⟩ := join_least hfill (hps.trans (hperm.map _)) hab (by simpa using hmin)
    have hnew := ih (ps := qs) (by
        simp only [List.forall_mem_append, List.forall_mem_singleton]
        exact ⟨hwrest, by rw [hwa, hwb]; rfl⟩) hfill'
      (hqs.trans (by simpa using (List.perm_append_singleton _ _).symm))
    have hsum := (hperm.map fun x => x.t.cost f).sum_eq
    simp [CodeTree.cost_internal] at hnew hsum
    omega

/-- Settles O23: the queue's weights are those of the leaves of any tree with the same symbols. -/
theorem builtTreeIsOptimal : Obligations.BuiltTreeIsOptimal := by
  intro f t u ht hu
  obtain ⟨t', ht', hm⟩ := buildTree_merges f
  obtain rfl : t = t' := Option.some.inj (ht.symm.trans ht')
  have hweights : ((u.leavesFrom (symbolWeight f) 0).map Prod.snd).Perm ((startQueue f).map Weighted.w) := by
    rw [u.leavesFrom_weights, startQueue_weights, ← map_symbolWeight, ← startQueue_symbols]
    exact (hu.trans hm.symbols_perm).map _
  have hstart : ∀ x ∈ startQueue f, x.w = x.t.weight (symbolWeight f) := List.map_inj_left.mp <| by
    rw [startQueue_weights, startQueue_map f _ f 1 (fun b _ => symbolWeight_byteSym f b) fun _ => symbolWeight_eos f]
  have hzero : ((startQueue f).map fun x => x.t.cost (symbolWeight f)).sum = 0 := by
    rw [startQueue_map f _ (fun _ => 0) 0 (fun _ _ => Nat.zero_mul _) fun _ => Nat.zero_mul _]
    simp
  have hle := hm.cost_le hstart (u.leaves_fillCodeSpace _) hweights
  rwa [hzero, Nat.zero_add, u.leavesFrom_cost] at hle

end Sys2Proof.Machine
end

section
/-! PROOF. BUILD computes `build(FREQ)` (40_tree_builder.md R133, R139): its queue mirrors the queue of R130 entry by entry,
its 40-bit weights being exact and its trees standing in node memory, and each turn of its loops is a turn of R130's. -/

namespace Sys2Proof.Machine

/-! ### A turn of BUILD's loops -/

/-- A node word allocated, and a queue entry for it: what each turn of BUILD's loops does (40_tree_builder.md R133). -/
def enqueue (w : Weight) (word : Word) (s : State) : State := pqInsert w s.nnodes (alloc word s).2

@[simp] theorem enqueue_node (w : Weight) (word : Word) (s : State) :
    (enqueue w word s).node = s.node.setIfInBounds s.nnodes.toNat word := rfl

@[simp] theorem enqueue_nnodes (w : Weight) (word : Word) (s : State) : (enqueue w word s).nnodes = s.nnodes + 1 := rfl

@[simp] theorem enqueue_pq (w : Weight) (word : Word) (s : State) :
    (enqueue w word s).pq = s.pq ++ [⟨w, s.seq, s.nnodes⟩] := rfl

@[simp] theorem enqueue_seq (w : Weight) (word : Word) (s : State) : (enqueue w word s).seq = s.seq + 1 := rfl

theorem enqueue_nodeAt (w : Weight) (word : Word) (s : State) : (enqueue w word s).nodeAt = (alloc word s).2.nodeAt :=
  nodeAt_congr rfl rfl

theorem addLeaf_present {s : State} {b : Byte} (h : 0 < s.counts b) :
    addLeaf s b = enqueue ((s.freqAt b).setWidth 40) (leafWord (byteSym b)) s := if_pos h

theorem addLeaf_absent {s : State} {b : Byte} (h : ¬ 0 < s.counts b) : addLeaf s b = s := if_neg h

/-- A merge (40_tree_builder.md R136). -/
theorem mergeLoop_merge {fuel : Nat} {s : State} {a b : PqEntry} {q1 q2 : List PqEntry}
    (h1 : takeMin s.pq = some (a, q1)) (h2 : takeMin q1 = some (b, q2)) :
    mergeLoop (fuel + 1) s =
      mergeLoop fuel (enqueue (a.w + b.w) (internalWord a.node b.node) { s with pq := q2 }) := by
  simp [mergeLoop, removeMin, h1, h2, enqueue]

/-- With one entry left the loop ends (40_tree_builder.md R137). -/
theorem mergeLoop_single {s : State} {e : PqEntry} (h : s.pq = [e]) (fuel : Nat) : mergeLoop fuel s = s := by
  cases fuel with
  | zero => rfl
  | succ fuel => simp [mergeLoop, removeMin, h, takeMin]

theorem foldl_addLeaf_counts (bs : List Byte) (s : State) : (bs.foldl addLeaf s).counts = s.counts := by
  induction bs generalizing s with
  | nil => rfl
  | cons b bs ih => rw [List.foldl_cons, ih, addLeaf_counts]

/-! ### The entries of the two queues -/

/-- A queue entry of the engine and an element of the queue of R130: the same weight and sequence number, and the tree in
the node words `mem`. -/
structure Mirrors (mem : Idx → Option Word) (e : PqEntry) (x : Weighted) : Prop where
  weight : e.w.toNat = x.w
  seq : e.seq.toNat = x.n
  spans : ∃ idx, Spans mem e.node x.t idx

/-- The two orders are one (40_tree_builder.md R134). -/
theorem Mirrors.precedes {mem : Idx → Option Word} {e e' : PqEntry} {x x' : Weighted} (h : Mirrors mem e x) (h' : Mirrors mem e' x') :
    e.precedes e' = x.before x' := by
  simp only [PqEntry.precedes, Weighted.before, ← h.weight, ← h.seq, ← h'.weight, ← h'.seq, BitVec.lt_def,
    BitVec.toNat_eq, beq_eq_decide]

/-- Removing the least entry of mirrored queues removes mirrored entries. -/
theorem takeMin_mirrors {mem : Idx → Option Word} {es : List PqEntry} {xs : List Weighted} (h : List.Forall₂ (Mirrors mem) es xs) :
    Option.Rel (fun p r => Mirrors mem p.1 r.1 ∧ List.Forall₂ (Mirrors mem) p.2 r.2) (takeMin es) (takeLeast xs) := by
  induction h with
  | nil => exact .none
  | @cons e x es xs he hes ih =>
    rw [takeMin, takeLeast]
    generalize takeMin es = p, takeLeast xs = r at ih ⊢
    cases ih with
    | none => exact .some ⟨he, .nil⟩
    | @some p r hpr =>
      obtain ⟨hmin, hrest⟩ := hpr
      simp only [he.precedes hmin]
      split
      · exact .some ⟨he, hes⟩
      · exact .some ⟨hmin, .cons he hrest⟩

theorem takeMin_of_takeLeast {mem : Idx → Option Word} {es : List PqEntry} {xs xs' : List Weighted} {x : Weighted}
    (h : List.Forall₂ (Mirrors mem) es xs) (hx : takeLeast xs = some (x, xs')) :
    ∃ e es', takeMin es = some (e, es') ∧ Mirrors mem e x ∧ List.Forall₂ (Mirrors mem) es' xs' := by
  have hrel := takeMin_mirrors h
  rw [hx] at hrel
  generalize takeMin es = p at hrel ⊢
  cases hrel with
  | some hp => exact ⟨_, _, rfl, hp.1, hp.2⟩

/-- The nodes of a tree are allocated. -/
theorem Spans.allocated {s : State} {i : Idx} {t : CodeTree} {idx : List Nat} (h : Spans s.nodeAt i t idx) (j : Idx)
    (hj : j.toNat ∈ idx) : j < s.nnodes := by
  induction h with
  | leaf hw _ =>
    rw [BitVec.eq_of_toNat_eq (List.mem_singleton.mp hj)]
    exact (nodeAt_isSome_lt hw).1
  | internal hw _ _ _ ihl ihr =>
    rcases List.mem_cons.mp hj with hj | hj
    · rw [BitVec.eq_of_toNat_eq hj]
      exact (nodeAt_isSome_lt hw).1
    · exact (List.mem_append.mp hj).elim ihl ihr

theorem Spans.enqueue {s : State} {i : Idx} {t : CodeTree} {idx : List Nat} (h : Spans s.nodeAt i t idx)
    (hn : s.nnodes.toNat < 513) (w : Weight) (word : Word) : Spans (enqueue w word s).nodeAt i t idx := by
  rw [enqueue_nodeAt]
  exact h.congr fun j hj => nodeAt_alloc_old word hn (h.allocated j hj)

/-! ### The simulation -/

/-- The engine's queue mirrors `q`, and `n` is the next sequence number and the next free index. -/
structure Simulates (s : State) (n : Nat) (q : List Weighted) : Prop where
  queue : List.Forall₂ (Mirrors s.nodeAt) s.pq q
  seq : s.seq.toNat = n
  nodes : s.nnodes.toNat = n

/-- A turn of BUILD's loops adds one element to the queue of R130. -/
theorem Simulates.enqueue {s : State} {n : Nat} {q : List Weighted} (h : Simulates s n q) (hn : n < 513) {w : Weight}
    {word : Word} {t : CodeTree} {idx : List Nat} (hroot : Spans (enqueue w word s).nodeAt s.nnodes t idx) :
    Simulates (enqueue w word s) (n + 1) (q ++ [⟨w.toNat, n, t⟩]) := by
  obtain ⟨hqueue, hseq, hnodes⟩ := h
  have hold : List.Forall₂ (Mirrors (Machine.enqueue w word s).nodeAt) s.pq q := hqueue.imp fun _ _ hm =>
    ⟨hm.weight, hm.seq, hm.spans.imp fun _ hs => hs.enqueue (hnodes ▸ hn) w word⟩
  refine ⟨List.rel_append hold (.cons ⟨rfl, hseq, _, hroot⟩ .nil), ?_, ?_⟩
  · rw [enqueue_seq, BitVec.toNat_add_of_lt (by simp; omega), hseq]
    rfl
  · rw [enqueue_nnodes, nnodes_succ (hnodes ▸ hn), hnodes]

/-- A Leaf added. -/
theorem Simulates.addLeaf {s : State} {n : Nat} {q : List Weighted} (h : Simulates s n q) (hn : n < 513) (w : Weight)
    (y : Sym) : Simulates (Machine.enqueue w (leafWord y) s) (n + 1) (q ++ [⟨w.toNat, n, .leaf y⟩]) := by
  have hleaf := Spans.leaf (nodeAt_alloc_new (leafWord y) (h.nodes ▸ hn)) (nodeKind_leafWord y)
  rw [nodeSym_leafWord, ← enqueue_nodeAt w] at hleaf
  exact h.enqueue hn hleaf

/-- Two mirrored entries merged, with an exact sum of their weights (40_tree_builder.md R139). -/
theorem Simulates.merge {s : State} {n : Nat} {q : List Weighted} {a b : PqEntry} {x y : Weighted}
    (h : Simulates s n q) (hn : n < 513) (ha : Mirrors s.nodeAt a x) (hb : Mirrors s.nodeAt b y) (hw : x.w + y.w < 2 ^ 40) :
    Simulates (Machine.enqueue (a.w + b.w) (internalWord a.node b.node) s) (n + 1)
      (q ++ [⟨x.w + y.w, n, .internal x.t y.t⟩]) := by
  obtain ⟨xi, hx⟩ := ha.spans
  obtain ⟨yi, hy⟩ := hb.spans
  have hs := h.nodes ▸ hn
  have hroot := Spans.internal (nodeAt_alloc_new (internalWord a.node b.node) hs) (nodeKind_internalWord _ _)
    (by rw [nodeLeft_internalWord, ← enqueue_nodeAt (a.w + b.w)]; exact hx.enqueue hs _ _)
    (by rw [nodeRight_internalWord, ← enqueue_nodeAt (a.w + b.w)]; exact hy.enqueue hs _ _)
  rw [← enqueue_nodeAt (a.w + b.w)] at hroot
  have hsum : (a.w + b.w).toNat = x.w + y.w := by
    rw [BitVec.toNat_add_of_lt (by rwa [ha.weight, hb.weight]), ha.weight, hb.weight]
  exact hsum ▸ h.enqueue hn hroot

/-- The merge loop ends with one entry, for the tree that R130's loop returns. -/
theorem mergeLoop_simulates {fuel : Nat} {s : State} {n : Nat} {q : List Weighted} (h : Simulates s n q) (hne : q ≠ [])
    (hfuel : q.length ≤ fuel) (hroom : n + q.length ≤ 514) (hsum : (q.map Weighted.w).sum < 2 ^ 40) :
    ∃ e t idx, mergeTrees fuel n q = some t ∧ (mergeLoop fuel s).pq = [e] ∧
      Spans (mergeLoop fuel s).nodeAt e.node t idx := by
  induction fuel generalizing s n q with
  | zero => exact absurd (List.length_eq_zero_iff.mp (Nat.le_zero.mp hfuel)) hne
  | succ fuel ih =>
    cases hx : takeLeast q with
    | none => exact absurd (takeLeast_eq_none.mp hx) hne
    | some r =>
      obtain ⟨x, q1⟩ := r
      obtain ⟨a, es1, ha, hax, h1⟩ := takeMin_of_takeLeast h.queue hx
      obtain ⟨hq1, -⟩ := takeLeast_cases hx
      cases hy : takeLeast q1 with
      | none =>
        obtain rfl := takeLeast_eq_none.mp hy
        obtain rfl := List.forall₂_nil_right_iff.mp h1
        have hpq : s.pq = [a] := List.perm_singleton.mp (takeMin_perm ha)
        obtain ⟨idx, hidx⟩ := hax.spans
        rw [mergeLoop_single hpq]
        exact ⟨a, x.t, idx, by simp [mergeTrees, hx, hy], hpq, hidx⟩
      | some r2 =>
        obtain ⟨y, q2⟩ := r2
        obtain ⟨b, es2, hb, hby, h2⟩ := takeMin_of_takeLeast h1 hy
        obtain ⟨hq2, -⟩ := takeLeast_cases hy
        have hq := hq1.trans (hq2.cons x)
        have hlen := hq.length_eq
        rw [List.length_cons, List.length_cons] at hlen
        have hweights := (hq.map Weighted.w).sum_eq
        simp only [List.map_cons, List.sum_cons] at hweights
        have hrest : Simulates { s with pq := es2 } n q2 := ⟨h2, h.seq, h.nodes⟩
        have hmerge := hrest.merge (by omega) hax hby (by omega)
        obtain ⟨e, t, idx, ht, hend⟩ := ih hmerge (by simp) (by simp; omega) (by simp; omega) (by simp; omega)
        rw [mergeLoop_merge ha hb]
        exact ⟨e, t, idx, by simp [mergeTrees, hx, hy, ht], hend⟩

/-! ### The leaves -/

/-- BUILD's first loop makes the elements of the bytes that occur (40_tree_builder.md R135). -/
theorem foldl_addLeaf_simulates {bs : List Byte} {s : State} (h : Simulates s 0 []) (hlen : bs.length ≤ 256) :
    Simulates (bs.foldl addLeaf s) (bs.filter fun b => 0 < s.counts b).length
      ((bs.filter fun b => 0 < s.counts b).mapIdx fun k b => ⟨s.counts b, k, .leaf (byteSym b)⟩) := by
  induction bs using List.reverseRecOn with
  | nil => exact h
  | append_singleton bs b ih =>
    rw [List.length_append, List.length_singleton] at hlen
    have ih := ih (by omega)
    have hcounts := foldl_addLeaf_counts bs s
    have hfew : (bs.filter fun b => 0 < s.counts b).length ≤ bs.length := List.length_filter_le _ _
    rw [List.foldl_append, List.foldl_cons, List.foldl_nil, List.filter_append]
    by_cases hb : 0 < s.counts b
    · rw [addLeaf_present (hcounts ▸ hb)]
      have hnew := ih.addLeaf (by omega) (((bs.foldl addLeaf s).freqAt b).setWidth 40) (byteSym b)
      have hw : (((bs.foldl addLeaf s).freqAt b).setWidth 40).toNat = s.counts b := by
        rw [BitVec.toNat_setWidth_of_le (by decide)]
        exact congrFun hcounts b
      rw [hw] at hnew
      simpa [hb, List.mapIdx_append] using hnew
    · rw [addLeaf_absent (hcounts ▸ hb)]
      simpa [hb] using ih

theorem presentBytes_length_le (f : Byte → Nat) : (presentBytes f).length ≤ 256 :=
  allBytes_length ▸ List.length_filter_le _ _

theorem startQueue_length (f : Byte → Nat) : (startQueue f).length = (presentBytes f).length + 1 := by
  simp [startQueue]

/-- Before the first merge the engine's queue mirrors that of R130. -/
theorem buildStart_simulates (s : State) :
    Simulates (buildStart s) (startQueue s.counts).length (startQueue s.counts) := by
  have hleaves := foldl_addLeaf_simulates (s := { dropTree s with pq := [], seq := 0 }) ⟨.nil, rfl, rfl⟩
    (Nat.le_of_eq allBytes_length)
  rw [startQueue_length]
  exact hleaves.addLeaf (Nat.lt_of_le_of_lt (presentBytes_length_le _) (by decide)) 1 Config.eos

/-- All the counts and the 1 of EOS fit in 40 bits (40_tree_builder.md R139). -/
theorem startQueue_sum_lt (s : State) : ((startQueue s.counts).map Weighted.w).sum < 2 ^ 40 := by
  have hcount : ∀ n ∈ (presentBytes s.counts).map s.counts, n ≤ 2 ^ 32 - 1 := fun n hn => by
    obtain ⟨b, _, rfl⟩ := List.mem_map.mp hn
    exact Nat.le_of_lt_succ (s.freqAt b).isLt
  have hsum := List.sum_le_card_nsmul _ _ hcount
  have hfew := presentBytes_length_le s.counts
  rw [List.length_map, smul_eq_mul] at hsum
  rw [startQueue_weights, List.sum_append, List.sum_singleton]
  omega

/-! ### The whole command -/

/-- All merges done, one entry is left, for the tree `build` returns (40_tree_builder.md R137). -/
theorem mergeAll_simulates (s : State) :
    ∃ e t idx, buildTree s.counts = some t ∧ (mergeAll (buildStart s)).pq = [e] ∧
      Spans (mergeAll (buildStart s)).nodeAt e.node t idx := by
  have h := buildStart_simulates s
  have hfew := presentBytes_length_le s.counts
  have hlen := startQueue_length s.counts
  rw [mergeAll, h.queue.length_eq]
  exact mergeLoop_simulates h (startQueue_ne_nil _) (Nat.le_refl _) (by omega) (startQueue_sum_lt s)

theorem removeMin_single {s : State} {e : PqEntry} (h : s.pq = [e]) :
    removeMin s = some (e, { s with pq := [] }) := by
  simp [removeMin, h, takeMin]

/-- The end of BUILD sets `ROOT` and leaves the node words (40_tree_builder.md R133). -/
theorem buildFinish_end {e : PqEntry} {s u : State} (h : buildFinish e s = .ok () u) :
    u.root = e.node ∧ u.node = s.node ∧ u.nnodes = s.nnodes := by
  obtain ⟨_, v, hv, hu⟩ := bind_eq_ok.mp h
  have hframe := fillCodes_frame { s with root := e.node }
  rw [hv] at hframe
  unfold sameButCode at hframe
  cases hu
  rw [hframe]
  exact ⟨rfl, rfl, rfl⟩

/-- BUILD ends with the last entry as the root, and with the node words that the merges left. -/
theorem buildBody_end {s u : State} {e : PqEntry} (hpq : (mergeAll (buildStart s)).pq = [e])
    (h : buildBody s = .ok () u) :
    u.root = e.node ∧ u.node = (mergeAll (buildStart s)).node ∧ u.nnodes = (mergeAll (buildStart s)).nnodes := by
  unfold buildBody at h
  generalize mergeAll (buildStart s) = m at *
  rw [removeMin_single hpq] at h
  exact buildFinish_end (s := { m with pq := [] }) h

/-- A well-formed tree in node memory from `ROOT` is the one of 10_state.md R25. -/
theorem tree_of_spans {s : State} {t : CodeTree} {idx : List Nat} (h : Spans s.nodeAt s.root t idx)
    (hwf : t.wellFormed = true) : s.tree = some t := by
  have := CodeTree.wellFormed_depth hwf
  exact (h.found (by simp only [Config.nodeN]; omega)).1

/-- BUILD ends with the tree of its table in node memory (40_tree_builder.md R133). -/
theorem buildBody_tree {s u : State} (h : buildBody s = .ok () u) :
    ∃ t idx, buildTree s.counts = some t ∧ t.wellFormed = true ∧ Spans u.nodeAt u.root t idx := by
  obtain ⟨e, t, idx, ht, hpq, hspans⟩ := mergeAll_simulates s
  obtain ⟨t', ht', hwf, -⟩ := builtTreeHasTheSymbols s.counts
  obtain rfl : t = t' := Option.some.inj (ht.symm.trans ht')
  obtain ⟨hroot, hnode, hn⟩ := buildBody_end hpq h
  refine ⟨t, idx, ht, hwf, ?_⟩
  rw [hroot, nodeAt_congr hnode hn]
  exact hspans

theorem execBuild_of_body {s u : State} (hf : s.fault = 0) (h : buildBody { s with busy := true } = .ok () u) :
    exec .build s = .next { u with busy := false } := by
  rw [exec, execBuild, command_ok hf h]

/-- What a completed BUILD did: its body ran to its end. -/
theorem execBuild_next {s t : State} (hf : s.fault = 0) (h : exec .build s = .next t) :
    ∃ u, buildBody { s with busy := true } = .ok () u ∧ t = { u with busy := false } := by
  obtain ⟨_, u, hbody, -⟩ := buildBody_establishes { s with busy := true }
  exact ⟨u, hbody, Host.Outcome.next.inj (h.symm.trans (execBuild_of_body hf hbody))⟩

/-- After BUILD `TREE` is `build(FREQ)` of the table it was given. -/
theorem execBuild_tree {s t : State} (hf : s.fault = 0) (h : exec .build s = .next t) :
    ∃ u, buildTree s.counts = some u ∧ t.tree = some u := by
  obtain ⟨v, hbody, rfl⟩ := execBuild_next hf h
  obtain ⟨u, idx, hu, hwf, hspans⟩ := buildBody_tree hbody
  exact ⟨u, hu, tree_of_spans (s := { v with busy := false }) hspans hwf⟩

/-- Settles O18: BUILD completes in its frame, with the tree of its table. -/
theorem buildMakesTheTreeOfTheTable : Obligations.BuildMakesTheTreeOfTheTable := by
  intro s hf
  obtain ⟨_, v, hbody, _, _, _, hframe⟩ := buildBody_establishes { s with busy := true }
  have hexec : exec .build s = .next { v with busy := false } := execBuild_of_body hf hbody
  obtain ⟨u, hu, htree⟩ := execBuild_tree hf hexec
  refine ⟨_, u, hexec, hu, htree, ?_⟩
  rw [hframe]

/-- Settles O21: the body of BUILD sets `TREE_VALID`, and BUILD establishes both invariants. -/
theorem buildEstablishesTheTree : Obligations.BuildEstablishesTheTree := by
  intro s t hf h
  obtain ⟨_, v, hbody, _, _, _, hframe⟩ := buildBody_establishes { s with busy := true }
  have hexec : exec .build s = .next { v with busy := false } := execBuild_of_body hf hbody
  obtain rfl := Host.Outcome.next.inj (hexec.symm.trans h)
  exact ⟨by rw [hframe], execBuild_invariants hf h⟩

end Sys2Proof.Machine
end

section
/-! PROOF. `build` on few symbols (40_tree_builder.md R142). -/

namespace Sys2Proof.Machine

theorem mem_presentBytes {f : Byte → Nat} {b : Byte} : b ∈ presentBytes f ↔ 0 < f b := by
  have hb : b ∈ allBytes := List.mem_map.mpr ⟨b.toNat, List.mem_range.mpr b.isLt, by simp⟩
  simp [presentBytes, hb]

theorem presentBytes_nodup (f : Byte → Nat) : (presentBytes f).Nodup :=
  (List.nodup_append.mp (builtSymbols_wellFormed f).2).1.of_map byteSym

theorem presentBytes_eq_nil {f : Byte → Nat} (h : ∀ b, f b = 0) : presentBytes f = [] :=
  List.eq_nil_iff_forall_not_mem.mpr fun b hb => absurd (mem_presentBytes.mp hb) (by simp [h b])

theorem presentBytes_eq_singleton {f : Byte → Nat} {b : Byte} (hb : 0 < f b) (h : ∀ c, c ≠ b → f c = 0) :
    presentBytes f = [b] := by
  refine List.perm_singleton.mp ((List.perm_ext_iff_of_nodup (presentBytes_nodup f) (List.nodup_singleton b)).mpr
    fun c => ?_)
  rw [mem_presentBytes, List.mem_singleton]
  by_cases hc : c = b
  · simp [hc, hb]
  · simp [hc, h c hc]

/-- The empty table gives the lone EOS Leaf (40_tree_builder.md R142 item 1). -/
theorem buildTree_empty {f : Byte → Nat} (h : ∀ b, f b = 0) : buildTree f = some (.leaf Config.eos) := by
  simp [buildTree, startQueue, presentBytes_eq_nil h, mergeTrees, takeLeast]

/-- With one byte value the two leaves are merged in the order of the queue (40_tree_builder.md R142 item 2). -/
theorem buildTree_single {f : Byte → Nat} {b : Byte} (hb : 0 < f b) (h : ∀ c, c ≠ b → f c = 0) :
    buildTree f = some (if f b = 1 then .internal (.leaf (byteSym b)) (.leaf Config.eos)
      else .internal (.leaf Config.eos) (.leaf (byteSym b))) := by
  have hqueue : startQueue f = [⟨f b, 0, .leaf (byteSym b)⟩, ⟨1, 1, .leaf Config.eos⟩] := by
    simp [startQueue, presentBytes_eq_singleton hb h]
  by_cases h1 : f b = 1
  · simp [buildTree, hqueue, mergeTrees, takeLeast, Weighted.before, h1]
  · simp [buildTree, hqueue, mergeTrees, takeLeast, Weighted.before, h1, Nat.ne_of_gt hb]

/-- Settles O20: BUILD's tree is `build(FREQ)`, which two leaves at most make by hand. -/
theorem buildOnFewSymbols : Obligations.BuildOnFewSymbols := by
  intro s t hf h
  obtain ⟨u, hu, htree⟩ := execBuild_tree hf h
  rw [htree, ← hu]
  refine ⟨buildTree_empty, fun b hothers => ⟨fun h1 => ?_, fun h2 => ?_⟩⟩
  · rw [buildTree_single (by omega) hothers, if_pos h1]
  · rw [buildTree_single (by omega) hothers, if_neg (by omega)]

end Sys2Proof.Machine
end

section
/-! PROOF. Where BUILD puts the nodes (40_tree_builder.md R141): node memory holds the Leaf words in the order of R135, then
an Internal word for each merge, and above them what it held before. -/

namespace Sys2Proof.Machine

/-! ### Words by index -/

/-- The words allocated so far are `ws`, from index 0 on; above them node memory is as in `old`. -/
structure Layout (old : Vector Word 513) (ws : List Word) (s : State) : Prop where
  count : s.nnodes.toNat = ws.length
  words : ∀ k : Nat, s.node[k]? = ws[k]?.or old[k]?

theorem Layout.word {old : Vector Word 513} {ws : List Word} {s : State} (h : Layout old ws s) {k : Nat} {w : Word}
    (hk : ws[k]? = some w) : s.node[k]? = some w := by
  rw [h.words, hk, Option.some_or]

theorem Layout.above {old : Vector Word 513} {ws : List Word} {s : State} (h : Layout old ws s) {k : Nat}
    (hk : ws.length ≤ k) : s.node[k]? = old[k]? := by
  rw [h.words, List.getElem?_eq_none hk, Option.none_or]

theorem Layout.enqueue {old : Vector Word 513} {ws : List Word} {s : State} (h : Layout old ws s)
    (hn : ws.length < 513) (w : Weight) (word : Word) : Layout old (ws ++ [word]) (enqueue w word s) := by
  obtain ⟨hcount, hwords⟩ := h
  have hs : s.nnodes.toNat < 513 := hcount ▸ hn
  refine ⟨by rw [enqueue_nnodes, nnodes_succ hs, hcount, List.length_append, List.length_singleton], fun k => ?_⟩
  rw [enqueue_node, hcount]
  rcases Nat.lt_trichotomy k ws.length with hk | rfl | hk
  · rw [Vector.getElem?_setIfInBounds_ne (Nat.ne_of_gt hk), hwords, List.getElem?_append_left hk]
  · simp [hn]
  · rw [Vector.getElem?_setIfInBounds_ne (Nat.ne_of_lt hk), hwords, List.getElem?_eq_none (Nat.le_of_lt hk),
      List.getElem?_eq_none (by simpa using hk)]

/-! ### The leaves -/

/-- The Leaf words of BUILD (40_tree_builder.md R135). -/
def leafWords (bs : List Byte) : List Word := bs.map fun b => leafWord (byteSym b)

/-- BUILD's first loop writes the Leaf words of the bytes that occur. -/
theorem foldl_addLeaf_layout {bs : List Byte} {s : State} {ws : List Word} {old : Vector Word 513} (h : Layout old ws s)
    (hlen : ws.length + bs.length ≤ 512) :
    Layout old (ws ++ leafWords (bs.filter fun b => 0 < s.counts b)) (bs.foldl addLeaf s) := by
  induction bs generalizing s ws with
  | nil => simpa [leafWords] using h
  | cons b bs ih =>
    rw [List.length_cons] at hlen
    by_cases hb : 0 < s.counts b
    · have hnew := ih (h.enqueue (by omega) ((s.freqAt b).setWidth 40) (leafWord (byteSym b))) (by simp; omega)
      rw [← addLeaf_present hb, addLeaf_counts] at hnew
      simpa [leafWords, hb] using hnew
    · have hnew := ih h (by omega)
      rw [List.foldl_cons, addLeaf_absent hb]
      simpa [hb] using hnew

/-- BUILD's state after its first loop, before the EOS entry. -/
def leavesPlaced (s : State) : State := allBytes.foldl addLeaf { dropTree s with pq := [], seq := 0 }

theorem buildStart_eq (s : State) : buildStart s = enqueue 1 (leafWord Config.eos) (leavesPlaced s) := rfl

theorem leavesPlaced_layout (s : State) : Layout s.node (leafWords (presentBytes s.counts)) (leavesPlaced s) :=
  foldl_addLeaf_layout (bs := allBytes) (s := { dropTree s with pq := [], seq := 0 }) (ws := []) ⟨rfl, fun k => by simp⟩
    (by simp [allBytes_length])

theorem leavesPlaced_nnodes_lt (s : State) : (leavesPlaced s).nnodes.toNat < 513 := by
  rw [(leavesPlaced_layout s).count, leafWords, List.length_map]
  exact Nat.lt_of_le_of_lt (presentBytes_length_le _) (by decide)

/-! ### The merges -/

/-- Everything a turn of the merge loop can do: end it, or merge two entries (40_tree_builder.md R136). -/
theorem mergeLoop_succ_cases (fuel : Nat) (s : State) :
    mergeLoop (fuel + 1) s = s ∨ ∃ a b rest, s.pq.Perm (a :: b :: rest) ∧ mergeLoop (fuel + 1) s =
      mergeLoop fuel (enqueue (a.w + b.w) (internalWord a.node b.node) { s with pq := rest }) := by
  cases h1 : takeMin s.pq with
  | none => exact .inl (by simp [mergeLoop, removeMin, h1])
  | some r1 =>
    obtain ⟨a, q1⟩ := r1
    cases h2 : takeMin q1 with
    | none =>
      obtain rfl := takeMin_eq_none.mp h2
      exact .inl (mergeLoop_single (List.perm_singleton.mp (takeMin_perm h1)) _)
    | some r2 =>
      obtain ⟨b, q2⟩ := r2
      exact .inr ⟨a, b, q2, (takeMin_perm h1).trans ((takeMin_perm h2).cons a), mergeLoop_merge h1 h2⟩

/-- `w` is an Internal word whose children have indices below `k`. -/
def InternalBelow (k : Nat) (w : Word) : Prop := ∃ l r : Idx, w = internalWord l r ∧ l.toNat < k ∧ r.toNat < k

/-- What BUILD's merges keep, `leaves` being the words before the first one and `ms` those added since: these are Internal
words with children below their own index, every entry names an allocated index, and the last one names the last. -/
structure MergedAbove (old : Vector Word 513) (leaves ms : List Word) (s : State) : Prop where
  layout : Layout old (leaves ++ ms) s
  merges : ∀ (k : Nat) (w : Word), ms[k]? = some w → InternalBelow (leaves.length + k) w
  entries : ∀ e ∈ s.pq, e.node.toNat < s.nnodes.toNat
  last : ∃ es e, s.pq = es ++ [e] ∧ e.node.toNat + 1 = s.nnodes.toNat

theorem MergedAbove.merge {old : Vector Word 513} {leaves ms : List Word} {s : State} {a b : PqEntry}
    {rest : List PqEntry} (h : MergedAbove old leaves ms s) (hq : s.pq.Perm (a :: b :: rest))
    (hn : s.nnodes.toNat < 513) :
    MergedAbove old leaves (ms ++ [internalWord a.node b.node])
      (enqueue (a.w + b.w) (internalWord a.node b.node) { s with pq := rest }) := by
  obtain ⟨hlayout, hmerges, hentries, -⟩ := h
  have hcount := hlayout.count
  rw [List.length_append] at hcount
  have hsucc := nnodes_succ hn
  have hall : ∀ e ∈ a :: b :: rest, e.node.toNat < s.nnodes.toNat := fun e he => hentries e (hq.mem_iff.mpr he)
  simp only [List.forall_mem_cons] at hall
  obtain ⟨ha, hb, hrest⟩ := hall
  refine ⟨?_, fun k w hk => ?_, fun e he => ?_, rest, _, rfl, hsucc.symm⟩
  · rw [← List.append_assoc]
    exact Layout.enqueue (s := { s with pq := rest }) ⟨hlayout.count, hlayout.words⟩ (hlayout.count ▸ hn) _ _
  · rcases Nat.lt_trichotomy k ms.length with hlt | rfl | hgt
    · exact hmerges k w (by rwa [List.getElem?_append_left hlt] at hk)
    · obtain rfl : internalWord a.node b.node = w := by simpa using hk
      exact ⟨_, _, rfl, hcount ▸ ha, hcount ▸ hb⟩
    · rw [List.getElem?_eq_none (by simpa using hgt)] at hk
      cases hk
  · rw [enqueue_nnodes, hsucc]
    rcases List.mem_append.mp he with he | he
    · exact Nat.lt_succ_of_lt (hrest e he)
    · rw [List.mem_singleton.mp he]
      exact Nat.lt_succ_self _

theorem mergeLoop_mergedAbove {old : Vector Word 513} {leaves ms : List Word} {s : State} (fuel : Nat)
    (h : MergedAbove old leaves ms s) (hroom : s.nnodes.toNat + s.pq.length ≤ 514) :
    ∃ ms', MergedAbove old leaves ms' (mergeLoop fuel s) := by
  induction fuel generalizing s ms with
  | zero => exact ⟨ms, h⟩
  | succ fuel ih =>
    rcases mergeLoop_succ_cases fuel s with hend | ⟨a, b, rest, hq, hturn⟩
    · exact ⟨ms, hend.symm ▸ h⟩
    · have hlen := hq.length_eq
      simp only [List.length_cons] at hlen
      have hn : s.nnodes.toNat < 513 := by omega
      have hsucc := nnodes_succ hn
      rw [hturn]
      exact ih (h.merge hq hn) (by simp; omega)

theorem Spans.root_mem {mem : Idx → Option Word} {i : Idx} {t : CodeTree} {idx : List Nat} (h : Spans mem i t idx) :
    i.toNat ∈ idx := by
  cases h <;> simp

/-- Every entry of a mirrored queue names an allocated index. -/
theorem Simulates.entries_allocated {s : State} {n : Nat} {q : List Weighted} (h : Simulates s n q) :
    ∀ e ∈ s.pq, e.node < s.nnodes :=
  ((List.forall₂_and_left _ _).mp (h.queue.imp fun _ _ hm =>
    ⟨hm.spans.elim fun _ hs => hs.allocated _ hs.root_mem, hm⟩)).1

/-- Before the first merge no word has been added to the leaves. -/
theorem buildStart_mergedAbove (s : State) :
    MergedAbove s.node (leafWords (presentBytes s.counts) ++ [leafWord Config.eos]) [] (buildStart s) := by
  have hn := leavesPlaced_nnodes_lt s
  have hlayout := leavesPlaced_layout s
  have hentries := (buildStart_simulates s).entries_allocated
  rw [buildStart_eq] at hentries ⊢
  generalize leavesPlaced s = v at *
  refine ⟨?_, by simp, fun e he => hentries e he, v.pq, _, rfl, (nnodes_succ hn).symm⟩
  rw [List.append_nil]
  exact hlayout.enqueue (hlayout.count ▸ hn) _ _

/-- Node memory after all merges (40_tree_builder.md R141). -/
theorem mergeAll_mergedAbove (s : State) :
    ∃ ms, MergedAbove s.node (leafWords (presentBytes s.counts) ++ [leafWord Config.eos]) ms (mergeAll (buildStart s)) := by
  have h := buildStart_simulates s
  have hfew := presentBytes_length_le s.counts
  have hlen := startQueue_length s.counts
  refine mergeLoop_mergedAbove _ (buildStart_mergedAbove s) ?_
  rw [h.nodes, h.queue.length_eq]
  omega

/-! ### The whole command -/

/-- Node memory after BUILD: the words of the leaves and of the merges, in this order, with the root last. -/
theorem buildBody_layout {s u : State} (h : buildBody s = .ok () u) :
    ∃ ms, Layout s.node (leafWords (presentBytes s.counts) ++ [leafWord Config.eos] ++ ms) u ∧
      (∀ (k : Nat) (w : Word), ms[k]? = some w → InternalBelow ((presentBytes s.counts).length + 1 + k) w) ∧
      u.root.toNat + 1 = u.nnodes.toNat := by
  obtain ⟨e, _, _, _, hpq, _⟩ := mergeAll_simulates s
  obtain ⟨hroot, hnode, hn⟩ := buildBody_end hpq h
  obtain ⟨ms, hlayout, hmerges, _, es, e', hlast, he'⟩ := mergeAll_mergedAbove s
  generalize mergeAll (buildStart s) = m at *
  obtain ⟨rfl, rfl⟩ : es = [] ∧ e' = e := by simpa using List.append_eq_singleton_iff.mp (hlast.symm.trans hpq)
  refine ⟨ms, ⟨hn ▸ hlayout.count, fun k => hnode ▸ hlayout.words k⟩, by simpa [leafWords] using hmerges, ?_⟩
  rw [hroot, hn, he']

/-- A tree over the symbols of BUILD has `2 L - 1` nodes (40_tree_builder.md R141). -/
theorem buildBody_nnodes {s u : State} (h : buildBody s = .ok () u) :
    u.nnodes.toNat + 1 = 2 * ((presentBytes s.counts).length + 1) := by
  obtain ⟨t, v, hv, hholds, _, hperm, _⟩ := buildBody_establishes s
  obtain rfl := ok_state_inj (h.symm.trans hv)
  rw [hholds.nnodes, hperm.length_eq]
  simp

/-- The counts do not depend on `BUSY`. -/
theorem counts_busy (s : State) (b : Bool) : ({ s with busy := b } : State).counts = s.counts := rfl

/-- Settles O19: the statement's clauses are the words of the layout, index by index. -/
theorem buildAllocatesLeavesThenMerges : Obligations.BuildAllocatesLeavesThenMerges := by
  intro s t leaves L hf h hleaves hL
  obtain ⟨v, hbody, rfl⟩ := execBuild_next hf h
  have hcount := buildBody_nnodes hbody
  obtain ⟨ms, hlayout, hmerges, hroot⟩ := buildBody_layout hbody
  rw [counts_busy, ← hleaves, ← hL] at hcount hmerges
  rw [counts_busy, ← hleaves] at hlayout
  have hfew : leaves.length ≤ 256 := hleaves ▸ presentBytes_length_le _
  have hwords : (leafWords leaves ++ [leafWord Config.eos]).length = L := by simp [leafWords, hL]
  have hlen := hlayout.count
  rw [List.length_append, hwords] at hlen
  refine ⟨by omega, Nat.eq_sub_of_add_eq hcount, by show v.root.toNat = _; omega, fun k hk => hlayout.word ?_,
    hlayout.word (by simp [leafWords]), fun k hk1 hk2 => ?_, fun k hk => hlayout.above ?_⟩
  · rw [List.append_assoc, List.getElem?_append_left (by simpa [leafWords] using hk)]
    simp [leafWords, hk]
  · obtain ⟨j, rfl⟩ := Nat.exists_eq_add_of_le hk1
    have hj : j < ms.length := by omega
    obtain ⟨l, r, hw, hl, hr⟩ := hmerges j ms[j] (List.getElem?_eq_getElem hj)
    refine ⟨l, r, hlayout.word ?_, hl, hr⟩
    rw [← hw, ← hwords, List.getElem?_append_right (Nat.le_add_right _ _), Nat.add_sub_cancel_left,
      List.getElem?_eq_getElem hj]
  · rw [List.length_append, hwords]
    omega

end Sys2Proof.Machine
end

section
/-! PROOF. What the checks of TREE_RD accept (41_tree_codec.md R155): `readChecks` on one node, and on a whole tree in
terms of its symbols. The trees without a fault are those of the tree invariant (10_state.md R24). -/

namespace Sys2Proof.Machine

namespace CodeTree

/-! ### The checks on one node -/

theorem readChecks_leaf_eq_ok {y : Sym} {n : Nat} {seen : List Sym} {k : Nat × List Sym} :
    (leaf y).readChecks (n, seen) = .ok k ↔ y ≤ Config.eos ∧ y ∉ seen ∧ k = (n, y :: seen) := by
  rw [readChecks, ← BitVec.not_lt]
  by_cases hle : Config.eos < y
  · rw [if_pos hle]
    exact iff_of_false nofun fun h => h.1 hle
  · rw [if_neg hle]
    by_cases hy : y ∈ seen
    · rw [if_pos hy]
      exact iff_of_false nofun fun h => h.2.1 hy
    · simp only [hle, hy, if_false, not_false_eq_true, true_and, Except.ok.injEq, eq_comm]

theorem readChecks_internal_eq_ok {l r : CodeTree} {n : Nat} {seen : List Sym} {k : Nat × List Sym} :
    (internal l r).readChecks (n, seen) = .ok k ↔
      n ≠ Config.maxInternal ∧ ∃ m, l.readChecks (n + 1, seen) = .ok m ∧ r.readChecks m = .ok k := by
  rw [readChecks]
  by_cases hn : n = Config.maxInternal
  · simp [hn]
  · cases hl : l.readChecks (n + 1, seen) <;> simp [hn]

theorem readChecks_leaf_eq_error {y : Sym} {n : Nat} {seen : List Sym} {e : FaultCode × Word} :
    (leaf y).readChecks (n, seen) = .error e ↔
      (Config.eos < y ∧ e = (.badSymbol, y.setWidth 32)) ∨
        (¬ Config.eos < y ∧ y ∈ seen ∧ e = (.duplicateSymbol, y.setWidth 32)) := by
  rw [readChecks]
  by_cases hle : Config.eos < y
  · simp only [hle, if_true, not_true, false_and, or_false, true_and, Except.error.injEq, eq_comm]
  · by_cases hy : y ∈ seen
    · simp only [hle, hy, if_true, if_false, not_false_eq_true, false_and, true_and, false_or, Except.error.injEq,
        eq_comm]
    · simp only [hle, hy, if_false, reduceCtorEq, false_and, and_false, or_false]

theorem readChecks_internal_eq_error {l r : CodeTree} {n : Nat} {seen : List Sym} {e : FaultCode × Word} :
    (internal l r).readChecks (n, seen) = .error e ↔
      (n = Config.maxInternal ∧ e = (.treeTooLarge, 0)) ∨
        (n ≠ Config.maxInternal ∧ l.readChecks (n + 1, seen) = .error e) ∨
        (n ≠ Config.maxInternal ∧ ∃ m, l.readChecks (n + 1, seen) = .ok m ∧ r.readChecks m = .error e) := by
  rw [readChecks]
  by_cases hn : n = Config.maxInternal
  · simp [hn, eq_comm]
  · cases hl : l.readChecks (n + 1, seen) <;> simp [hn]

/-! ### The bits read of one node -/

theorem checkedBits_internal_full {l r : CodeTree} {n : Nat} {seen : List Sym} (hn : n = Config.maxInternal) :
    (internal l r).checkedBits (n, seen) = [true] := by
  rw [checkedBits, if_pos hn]

/-- A check that fails in the left subtree ends the reading there. -/
theorem checkedBits_internal_left {l r : CodeTree} {n : Nat} {seen : List Sym} {e : FaultCode × Word}
    (hn : n ≠ Config.maxInternal) (hl : l.readChecks (n + 1, seen) = .error e) :
    (internal l r).checkedBits (n, seen) = true :: l.checkedBits (n + 1, seen) := by
  rw [checkedBits, if_neg hn, hl]

theorem checkedBits_internal_right {l r : CodeTree} {n : Nat} {seen : List Sym} {m : Nat × List Sym}
    (hn : n ≠ Config.maxInternal) (hl : l.readChecks (n + 1, seen) = .ok m) :
    (internal l r).checkedBits (n, seen) = true :: (l.ser ++ r.checkedBits m) := by
  rw [checkedBits, if_neg hn, hl]

/-! ### The checks on a tree -/

/-- The checks all pass when the Internal nodes stay within the bound and no symbol is above EOS or met twice; then they
have counted the former and collected the latter. -/
theorem readChecks_eq_ok {t : CodeTree} {n : Nat} {seen : List Sym} {k : Nat × List Sym} (hn : n ≤ Config.maxInternal)
    (hseen : seen.Nodup) :
    t.readChecks (n, seen) = .ok k ↔
      n + t.internalCount ≤ Config.maxInternal ∧ (∀ y ∈ t.symbols, y ≤ Config.eos) ∧
        (t.symbols.reverse ++ seen).Nodup ∧ k = (n + t.internalCount, t.symbols.reverse ++ seen) := by
  induction t generalizing n seen k with
  | leaf y => simp [readChecks_leaf_eq_ok, symbols, internalCount, hn, hseen]
  | internal l r ihl ihr =>
    rw [readChecks_internal_eq_ok]
    simp only [symbols, internalCount, List.forall_mem_append, List.reverse_append, List.append_assoc]
    constructor
    · rintro ⟨hne, m, hl, hr⟩
      obtain ⟨hln, hle, hnd, rfl⟩ := (ihl (by omega) hseen).mp hl
      obtain ⟨hrn, hre, hrd, rfl⟩ := (ihr hln hnd).mp hr
      exact ⟨by omega, ⟨hle, hre⟩, hrd, by congr 1; omega⟩
    · rintro ⟨hsum, ⟨hle, hre⟩, hnd, rfl⟩
      have hndl : (l.symbols.reverse ++ seen).Nodup := hnd.of_append_right
      refine ⟨by omega, _, (ihl (by omega) hseen).mpr ⟨by omega, hle, hndl, rfl⟩, ?_⟩
      exact (ihr (by omega) hndl).mpr ⟨by omega, hre, hnd, by congr 1; omega⟩

theorem readFault_eq_none {t : CodeTree} :
    t.readFault = none ↔ ∃ k, t.readChecks (0, []) = .ok k ∧ Config.eos ∈ k.2 := by
  rw [readFault]
  cases t.readChecks (0, []) <;> simp

theorem readFault_eq_some {t : CodeTree} {e : FaultCode × Word} :
    t.readFault = some e ↔ t.readChecks (0, []) = .error e ∨
      ∃ k, t.readChecks (0, []) = .ok k ∧ Config.eos ∉ k.2 ∧ e = (.noEosLeaf, 0) := by
  rw [readFault]
  cases t.readChecks (0, []) <;> simp [eq_comm]

/-- A tree of the invariant has at most 257 leaves, so the bound on Internal nodes never refuses it. -/
theorem readFault_eq_none_iff_wellFormed (t : CodeTree) : t.readFault = none ↔ t.wellFormed = true := by
  simp only [readFault_eq_none, readChecks_eq_ok (Nat.zero_le _) List.nodup_nil, Nat.zero_add, List.append_nil,
    List.nodup_reverse]
  constructor
  · rintro ⟨_, ⟨_, hle, hnd, rfl⟩, heos⟩
    exact t.wellFormed_iff.mpr ⟨hle, hnd, List.mem_reverse.mp heos⟩
  · intro h
    obtain ⟨hle, hnd, heos⟩ := t.wellFormed_iff.mp h
    have hsize := CodeTree.wellFormed_symbols_length h
    have hcount := t.internalCount_add_one
    exact ⟨_, ⟨by simp only [Config.maxInternal]; omega, hle, hnd, rfl⟩, List.mem_reverse.mpr heos⟩

end CodeTree

/-- Settles O30: what the checks count and collect is what the invariant bounds. -/
theorem acceptedTreesAreTheWellFormedOnes : Obligations.AcceptedTreesAreTheWellFormedOnes :=
  CodeTree.readFault_eq_none_iff_wellFormed

end Sys2Proof.Machine
end

section
/-! PROOF. What `rd` does on the bits of a tree (41_tree_codec.md R154, R155): it reads a tree whose checks pass, raises
the first check that fails, and raises MalformedStream on bits that end before either. -/

namespace Sys2Proof.Machine

/-! ### Patching a node reads no input -/

@[simp] theorem inBits_setNodeLeft (s : State) (i l : Idx) : (s.setNodeLeft i l).inBits = s.inBits := by
  unfold State.setNodeLeft
  split <;> rfl

@[simp] theorem inBits_setNodeRight (s : State) (i r : Idx) : (s.setNodeRight i r).inBits = s.inBits := by
  unfold State.setNodeRight
  split <;> rfl

/-! ### One call of `rd` -/

/-- At a Leaf `rd` reads the symbol and checks it. -/
theorem rd_leaf {y : Sym} {rest : Bits} {s : State} (hb : s.inBits = (CodeTree.leaf y).ser ++ rest) (fuel : Nat)
    (k : ReadTemps) :
    ∃ u, sameButInput s u ∧ u.inBits = rest ∧ rd (fuel + 1) k s =
      if Config.eos < y then .raised .badSymbol (y.setWidth 32) u
      else if y ∈ k.seen then .raised .duplicateSymbol (y.setWidth 32) u
      else .ok (u.nnodes, { k with seen := y :: k.seen }) (alloc (leafWord y) u).2 := by
  obtain ⟨t, ht, htb, hst, -⟩ := readBit_delivers .malformedStream hb
  obtain ⟨u, hu, hub, htu, -⟩ := readBits_delivers .malformedStream y htb
  refine ⟨u, hst.trans htu, hub, ?_⟩
  rw [rd, ht, bind_ok, if_neg Bool.false_ne_true, hu, bind_ok]

/-- At an Internal node within the bound `rd` reads the two subtrees and patches the fields of the node. -/
theorem rd_internal {x : Bits} {s : State} (hb : s.inBits = true :: x) (fuel : Nat) {k : ReadTemps}
    (hn : k.nint ≠ Config.maxInternal) :
    ∃ u, sameButInput s u ∧ u.inBits = x ∧ rd (fuel + 1) k s =
      (rd fuel { k with nint := k.nint + 1 } (alloc (internalWord 0 0) u).2).bind fun l v =>
      (rd fuel l.2 (v.setNodeLeft u.nnodes l.1)).bind fun r w =>
      .ok (u.nnodes, r.2) (w.setNodeRight u.nnodes r.1) := by
  obtain ⟨u, hu, hub, hsu, -⟩ := readBit_delivers .malformedStream hb
  refine ⟨u, hsu, hub, ?_⟩
  rw [rd, hu, bind_ok, if_pos rfl, if_neg hn]

/-! ### A tree whose checks pass -/

/-- The reader's invariant sees of the state only how many nodes are allocated. -/
theorem ReaderInv.congr {k : ReadTemps} {s u : State} (h : ReaderInv k s) (hn : u.nnodes = s.nnodes) : ReaderInv k u :=
  ⟨hn ▸ h.count, h.nint, h.bound, h.nodup⟩

/-- Where the reader's invariant holds, checks that pass have counted the Internal nodes. -/
theorem ReaderInv.readChecks_nint {k : ReadTemps} {s : State} (h : ReaderInv k s) {t : CodeTree} {n' : Nat}
    {seen' : List Sym} (ht : t.readChecks (k.nint, k.seen) = .ok (n', seen')) : n' = k.nint + t.internalCount := by
  obtain ⟨-, -, -, hk⟩ := (CodeTree.readChecks_eq_ok h.nint h.nodup).mp ht
  exact (Prod.mk.inj hk).1

/-- `rd` needs recursion left for the Internal nodes that the bound still allows. -/
theorem ReaderInv.fuel_pos {k : ReadTemps} {s : State} (h : ReaderInv k s) {fuel : Nat}
    (hfuel : Config.maxInternal < fuel + k.nint) : ∃ m, fuel = m + 1 :=
  Nat.exists_eq_succ_of_ne_zero fun h0 => absurd h.nint (by omega)

/-- A tree whose checks pass is read from the bits of its serialization, which are used up. -/
theorem rd_accepts {t : CodeTree} {fuel n' : Nat} {seen' : List Sym} {k : ReadTemps} {s : State} {rest : Bits}
    (hinv : ReaderInv k s) (hfuel : Config.maxInternal < fuel + k.nint)
    (ht : t.readChecks (k.nint, k.seen) = .ok (n', seen')) (hb : s.inBits = t.ser ++ rest) :
    ∃ u, rd fuel k s = .ok (s.nnodes, ⟨n', seen'⟩) u ∧ ReadsTree k s t ⟨n', seen'⟩ u ∧ u.inBits = rest := by
  induction t generalizing fuel n' seen' k s rest with
  | leaf y =>
    obtain ⟨m, rfl⟩ := hinv.fuel_pos hfuel
    obtain ⟨hle, hy, hk⟩ := CodeTree.readChecks_leaf_eq_ok.mp ht
    obtain ⟨rfl, rfl⟩ := Prod.mk.inj hk
    obtain ⟨u, hsu, hub, hrd⟩ := rd_leaf hb m k
    rw [if_neg (BitVec.not_lt.mpr hle), if_neg hy, hsu.nnodes] at hrd
    exact ⟨_, hrd, (ReadsTree.leaf (hinv.of_sameButInput hsu) hle hy).of_sameButInput hsu, hub⟩
  | internal l r ihl ihr =>
    obtain ⟨m, rfl⟩ := hinv.fuel_pos hfuel
    obtain ⟨hne, ⟨n1, seen1⟩, hl, hr⟩ := CodeTree.readChecks_internal_eq_ok.mp ht
    have hlt := Nat.lt_of_le_of_ne hinv.nint hne
    rw [CodeTree.ser, List.cons_append, List.append_assoc] at hb
    obtain ⟨u, hsu, hub, hrd⟩ := rd_internal hb m hne
    have hinvu := hinv.of_sameButInput hsu
    have hinvl := hinvu.alloc_internal hlt
    have hfuell : Config.maxInternal < m + (k.nint + 1) := by omega
    obtain ⟨v, hrdl, htl, hvb⟩ := ihl hinvl hfuell hl hub
    have hcount : n1 = k.nint + 1 + l.internalCount := hinvl.readChecks_nint hl
    obtain ⟨w, hrdr, htr, hwb⟩ := ihr (k := ⟨n1, seen1⟩) (fuel := m)
      (htl.inv.congr (setNodeLeft_nnodes v u.nnodes (u.nnodes + 1))) (by simp only; omega) hr
      ((inBits_setNodeLeft _ _ _).trans hvb)
    refine ⟨w.setNodeRight u.nnodes v.nnodes, ?_,
      (ReadsTree.internal (hinvu.room hlt) htl htr).of_sameButInput hsu, (inBits_setNodeRight _ _ _).trans hwb⟩
    rw [hrd, hrdl, bind_ok, alloc_nnodes, hrdr, bind_ok, setNodeLeft_nnodes, hsu.nnodes]

/-! ### Bits on which `rd` raises -/

/-- On every engine with the input bits `x`, `rd` from `k` raises `f` with `rest` left. -/
def RdRaises (k : ReadTemps) (x : Bits) (f : FaultCode) (info : Word) (rest : Bits) : Prop :=
  ∀ (fuel : Nat) (s : State), ReaderInv k s → Config.maxInternal < fuel + k.nint → s.inBits = x →
    ∃ u, rd fuel k s = .raised f info u ∧ u.inBits = rest

/-- A bound on Internal nodes that is used up refuses the next one. -/
theorem RdRaises.full {k : ReadTemps} (hn : k.nint = Config.maxInternal) (x : Bits) :
    RdRaises k (true :: x) .treeTooLarge 0 x := by
  intro fuel s hinv hfuel hb
  obtain ⟨m, rfl⟩ := hinv.fuel_pos hfuel
  obtain ⟨u, hu, hub, -⟩ := readBit_delivers .malformedStream hb
  exact ⟨u, by rw [rd, hu, bind_ok, if_pos rfl, if_pos hn], hub⟩

/-- Without a bit for a tag the stream is malformed. -/
theorem RdRaises.noTag (k : ReadTemps) : RdRaises k [] .malformedStream 0 [] := by
  intro fuel s hinv hfuel hb
  obtain ⟨m, rfl⟩ := hinv.fuel_pos hfuel
  exact ⟨s, by rw [rd, readBit_exhausted _ hb, bind_raised], hb⟩

/-- So is a Leaf's tag with fewer than nine bits after it. -/
theorem RdRaises.shortField (k : ReadTemps) {x : Bits} (hx : x.length < 9) :
    RdRaises k (false :: x) .malformedStream 0 [] := by
  intro fuel s hinv hfuel hb
  obtain ⟨m, rfl⟩ := hinv.fuel_pos hfuel
  obtain ⟨t, ht, htb, -⟩ := readBit_delivers .malformedStream hb
  obtain ⟨u, hu, hub, -⟩ := readBits_exhausted .malformedStream 9 (s := t) (by rw [htb]; exact hx)
  exact ⟨u, by rw [rd, ht, bind_ok, if_neg Bool.false_ne_true, hu, bind_raised], hub⟩

/-- A raise in the left subtree is one of the tree. -/
theorem RdRaises.left {k : ReadTemps} {x rest : Bits} {f : FaultCode} {info : Word} (hn : k.nint ≠ Config.maxInternal)
    (h : RdRaises { k with nint := k.nint + 1 } x f info rest) : RdRaises k (true :: x) f info rest := by
  intro fuel s hinv hfuel hb
  obtain ⟨m, rfl⟩ := hinv.fuel_pos hfuel
  obtain ⟨u, hsu, hub, hrd⟩ := rd_internal hb m hn
  have hinvl := (hinv.of_sameButInput hsu).alloc_internal (Nat.lt_of_le_of_ne hinv.nint hn)
  obtain ⟨v, hv, hvb⟩ := h m _ hinvl (by simp only; omega) hub
  exact ⟨v, by rw [hrd, hv, bind_raised], hvb⟩

/-- A raise in the right subtree, behind a left one whose checks pass, is one of the tree. -/
theorem RdRaises.right {k : ReadTemps} {l : CodeTree} {n1 : Nat} {seen1 : List Sym} {x rest : Bits} {f : FaultCode}
    {info : Word} (hn : k.nint ≠ Config.maxInternal) (hl : l.readChecks (k.nint + 1, k.seen) = .ok (n1, seen1))
    (h : RdRaises ⟨n1, seen1⟩ x f info rest) : RdRaises k (true :: (l.ser ++ x)) f info rest := by
  intro fuel s hinv hfuel hb
  obtain ⟨m, rfl⟩ := hinv.fuel_pos hfuel
  obtain ⟨u, hsu, hub, hrd⟩ := rd_internal hb m hn
  have hinvl := (hinv.of_sameButInput hsu).alloc_internal (Nat.lt_of_le_of_ne hinv.nint hn)
  have hfuell : Config.maxInternal < m + (k.nint + 1) := by omega
  obtain ⟨v, hv, htl, hvb⟩ := rd_accepts hinvl hfuell hl hub
  have hcount : n1 = k.nint + 1 + l.internalCount := hinvl.readChecks_nint hl
  obtain ⟨w, hw, hwb⟩ := h m (v.setNodeLeft u.nnodes (u.nnodes + 1)) (htl.inv.congr (setNodeLeft_nnodes _ _ _))
    (by simp only; omega) ((inBits_setNodeLeft _ _ _).trans hvb)
  exact ⟨w, by rw [hrd, hv, bind_ok, alloc_nnodes, hw, bind_raised], hwb⟩

/-- The first check that fails is raised once the bits up to it are read (41_tree_codec.md R155). -/
theorem rdRaises_failedCheck {t : CodeTree} {k : ReadTemps} {f : FaultCode} {info : Word}
    (ht : t.readChecks (k.nint, k.seen) = .error (f, info)) (rest : Bits) :
    RdRaises k (t.checkedBits (k.nint, k.seen) ++ rest) f info rest := by
  induction t generalizing k with
  | leaf y =>
    intro fuel s hinv hfuel hb
    obtain ⟨m, rfl⟩ := hinv.fuel_pos hfuel
    obtain ⟨u, -, hub, hrd⟩ := rd_leaf hb m k
    refine ⟨u, ?_, hub⟩
    rw [hrd]
    rcases CodeTree.readChecks_leaf_eq_error.mp ht with ⟨hlt, he⟩ | ⟨hle, hy, he⟩ <;> cases he
    · rw [if_pos hlt]
    · rw [if_neg hle, if_pos hy]
  | internal l r ihl ihr =>
    rcases CodeTree.readChecks_internal_eq_error.mp ht with ⟨hn, he⟩ | ⟨hn, hl⟩ | ⟨hn, ⟨n1, seen1⟩, hl, hr⟩
    · cases he
      rw [CodeTree.checkedBits_internal_full hn]
      exact .full hn rest
    · rw [CodeTree.checkedBits_internal_left hn hl]
      exact .left hn (ihl (k := ⟨k.nint + 1, k.seen⟩) hl)
    · rw [CodeTree.checkedBits_internal_right hn hl, List.cons_append, List.append_assoc]
      exact .right hn hl (ihr (k := ⟨n1, seen1⟩) hr)

/-- Bits that end before a check fails and before the tree is complete are malformed (41_tree_codec.md R155). -/
theorem rdRaises_exhausted {t : CodeTree} {k : ReadTemps} {x q : Bits} (hx : t.checkedBits (k.nint, k.seen) = x ++ q)
    (hq : q ≠ []) : RdRaises k x .malformedStream 0 [] := by
  induction t generalizing k x q with
  | leaf y =>
    match x with
    | [] => exact .noTag k
    | b :: x =>
      obtain ⟨rfl, hxq⟩ : false = b ∧ msb y = x ++ q := List.cons.inj hx
      refine .shortField k ?_
      have hlen := congrArg List.length hxq
      have hpos := List.length_pos_iff.mpr hq
      simp only [msb_length, List.length_append] at hlen
      omega
  | internal l r ihl ihr =>
    match x with
    | [] => exact .noTag k
    | b :: x =>
      by_cases hn : k.nint = Config.maxInternal
      · rw [CodeTree.checkedBits_internal_full hn] at hx
        exact absurd (List.append_eq_nil_iff.mp (List.cons.inj hx).2.symm).2 hq
      cases hl : l.readChecks (k.nint + 1, k.seen) with
      | error e =>
        rw [CodeTree.checkedBits_internal_left hn hl] at hx
        obtain ⟨rfl, hxq⟩ : true = b ∧ l.checkedBits (k.nint + 1, k.seen) = x ++ q := List.cons.inj hx
        exact .left hn (ihl (k := ⟨k.nint + 1, k.seen⟩) hxq hq)
      | ok m =>
        rw [CodeTree.checkedBits_internal_right hn hl] at hx
        obtain ⟨rfl, hxq⟩ : true = b ∧ l.ser ++ r.checkedBits m = x ++ q := List.cons.inj hx
        by_cases hlen : l.ser.length ≤ x.length
        · obtain ⟨a, rfl⟩ := List.prefix_of_prefix_length_le (List.prefix_append _ _) ⟨q, hxq.symm⟩ hlen
          rw [List.append_assoc] at hxq
          exact .right hn hl (ihr (k := ⟨m.1, m.2⟩) (List.append_cancel_left hxq) hq)
        · obtain ⟨c, hc⟩ := List.prefix_of_prefix_length_le ⟨q, hxq.symm⟩ (List.prefix_append _ _)
            (Nat.le_of_not_le hlen)
          have hne : c ≠ [] := by
            rintro rfl
            exact hlen (by rw [← hc, List.append_nil])
          exact .left hn (ihl (k := ⟨k.nint + 1, k.seen⟩) ((CodeTree.checkedBits_of_ok hl).trans hc.symm) hne)

end Sys2Proof.Machine
end

section
/-! PROOF. TREE_WR writes the serialization of the tree in node memory (41_tree_codec.md R152), and no command that needs
a tree goes on without one. -/

namespace Sys2Proof.Machine

/-- The body of TREE_WR on any tree in node memory. -/
theorem treeWrBody_spans {s : State} {t : CodeTree} {idx : List Nat} (hv : s.treeValid = true)
    (h : Spans s.nodeAt s.root t idx) (hd : t.depth < Config.nodeN) :
    treeWrBody s = .ok () { writeSeq t.ser s with stack := [] } := by
  rw [treeWrBody, hv, Bool.not_true, if_neg Bool.false_ne_true, emit_spans h rfl hd, bind_ok]

/-- Settles O24: `emit` writes the serialization bit by bit, and writing a bit appends it. -/
theorem treeWrWritesTheSerialization : Obligations.TreeWrWritesTheSerialization := by
  intro s t hf hv ht hp
  obtain ⟨idx, hs, hd⟩ := spans_of_treeAt ht
  have hbody := treeWrBody_spans (s := { s with busy := true }) hv hs hd
  have hframe := writeSeq_frame t.ser { s with busy := true }
  obtain ⟨hout, hpack, -⟩ := writeSeq_appends t.ser (s := { s with busy := true }) hp
  unfold sameButOutput at hframe
  refine ⟨_, command_ok hf hbody, hout, hpack, ?_⟩
  rw [hframe]

/-! ### Without a tree (41_tree_codec.md R152, 42_symbol_encoder.md R172, 43_symbol_decoder.md R185) -/

theorem treeWrBody_noTree {s : State} (hv : s.treeValid = false) : treeWrBody s = .raised .noTree 0 s := by
  rw [treeWrBody, hv, Bool.not_false, if_pos rfl]

theorem encBody_noTree {s : State} (hv : s.treeValid = false) : encBody s = .raised .noTree 0 s := by
  rw [encBody, hv, Bool.not_false, if_pos rfl]

theorem decBody_noTree {s : State} (hv : s.treeValid = false) : decBody s = .raised .noTree 0 s := by
  rw [decBody, hv, Bool.not_false, if_pos rfl]

/-- Settles O17: each of the three bodies raises at once, and the frame of a command records the raise. -/
theorem commandsNeedATree : Obligations.CommandsNeedATree := by
  intro s i hi hf hv
  simp only [List.mem_cons, List.not_mem_nil, or_false] at hi
  rcases hi with rfl | rfl | rfl
  · exact command_raised hf (treeWrBody_noTree hv)
  · exact command_raised hf (encBody_noTree hv)
  · exact command_raised hf (decBody_noTree hv)

end Sys2Proof.Machine
end

section
/-! PROOF. TREE_RD on every input (41_tree_codec.md R154 to R156): it reads an accepted tree, or reports the first
failed check, or an input that ends first. -/

namespace Sys2Proof.Machine

/-- TREE_RD's temporaries at its start (41_tree_codec.md R154). -/
theorem ReaderInv.start (s : State) : ReaderInv ⟨0, []⟩ (dropTree s) :=
  ⟨rfl, Nat.zero_le _, by simp, List.nodup_nil⟩

/-! ### An accepted tree -/

/-- The body of TREE_RD on the bits of a tree it accepts: the tree lies in preorder from index 0. -/
theorem treeRdBody_accepts {s : State} {t : CodeTree} {rest : Bits} (ht : t.readFault = none)
    (hb : s.inBits = t.ser ++ rest) :
    ∃ u, treeRdBody s = .ok () u ∧ u.inBits = rest ∧ u.nnodes.toNat = 2 * t.symbols.length - 1 ∧
      Spans u.nodeAt 0 t (List.range u.nnodes.toNat) ∧
      u = { s with
        node := u.node, nnodes := u.nnodes, root := 0, treeValid := true, code := u.code,
        iacc := u.iacc, icnt := u.icnt, inp := u.inp, stack := [] } := by
  have hwf := t.readFault_eq_none_iff_wellFormed.mp ht
  obtain ⟨⟨n, seen⟩, hchecks, heos⟩ := CodeTree.readFault_eq_none.mp ht
  obtain ⟨u, hrd, hread, hub⟩ := rd_accepts (.start s) (fuel := Config.maxInternal + 1) (Nat.lt_succ_self _) hchecks hb
  have hframe := rd_frame (Config.maxInternal + 1) ⟨0, []⟩ (dropTree s)
  rw [hrd, endsIn_ok] at hframe
  have hn : u.nnodes.toNat = 2 * t.symbols.length - 1 := by
    have : u.nnodes.toNat + 1 = 0 + 2 * t.symbols.length := hread.nnodes
    omega
  have hspan : Spans u.nodeAt 0 t (List.range u.nnodes.toNat) := by
    rw [hn, List.range_eq_range']
    exact hread.spans
  obtain ⟨v, hfill, hcode, -⟩ := fillCodes_spans (s := { u with root := 0 }) hspan hwf
  have hbody : treeRdBody s = .ok () { v with treeValid := true, stack := [] } := by
    rw [treeRdBody, treeRdSteps, hrd, bind_ok, if_pos heos, dropTree_nnodes, hfill, bind_ok]
  unfold sameButCode at hcode
  unfold sameButReader at hframe
  refine ⟨_, hbody, ?_, ?_, ?_, ?_⟩
  · rw [hcode]; exact hub
  · rw [hcode]; exact hn
  · rw [hcode]; exact hspan
  · rw [hcode, hframe]; rfl

/-- TREE_RD on the bits of a tree it accepts (41_tree_codec.md R154, R156). -/
theorem execTreeRd_accepts {s : State} {t : CodeTree} {rest : Bits} (hf : s.fault = 0) (ht : t.readFault = none)
    (hb : s.inBits = t.ser ++ rest) :
    ∃ u, exec .treeRd s = .next u ∧ u.inBits = rest ∧ u.nnodes.toNat = 2 * t.symbols.length - 1 ∧
      Spans u.nodeAt 0 t (List.range u.nnodes.toNat) ∧
      u = { s with
        node := u.node, nnodes := u.nnodes, root := 0, treeValid := true, code := u.code,
        iacc := u.iacc, icnt := u.icnt, inp := u.inp, stack := [], busy := false } := by
  obtain ⟨u, hbody, hub, hn, hspan, hframe⟩ := treeRdBody_accepts (s := { s with busy := true }) ht hb
  exact ⟨_, command_ok hf hbody, hub, hn, hspan, by rw [hframe]⟩

/-- Settles O27: the tree lies in node memory from index 0, and `tree(ROOT)` finds it there. -/
theorem treeRdReadsTheTree : Obligations.TreeRdReadsTheTree := by
  intro s t rest hf ht hb
  obtain ⟨u, hexec, hub, hn, hspan, hframe⟩ := execTreeRd_accepts hf ht hb
  have hroot : u.root = 0 := by rw [hframe]
  have htree := tree_of_spans (hroot ▸ hspan) (t.readFault_eq_none_iff_wellFormed.mp ht)
  exact ⟨u, hexec, htree, hub, hn, hframe⟩

/-! ### A raise -/

/-- TREE_RD ends with fault `f` and `rest` left on the input, and with no tree and an empty code table
(41_tree_codec.md R154, 60_exceptions.md R231). -/
def TreeRdFaults (s : State) (f : FaultCode) (info : Word) (rest : Bits) : Prop :=
  ∃ u, exec .treeRd s = .next u ∧ u.inBits = rest ∧
    u = { s with
      node := u.node, nnodes := 0, root := 0, treeValid := false, code := u.code,
      iacc := u.iacc, icnt := u.icnt, inp := u.inp,
      fault := faultNumber f, finfo := info, stack := [], pq := [], busy := false } ∧
    ∀ (y : Nat) (h : y < 257), u.code[y].present = false

theorem faultNumber_ne_zero (f : FaultCode) : faultNumber f ≠ 0 := by
  cases f <;> decide

theorem TreeRdFaults.fault_ne_zero {s u : State} {f : FaultCode} {info : Word} {rest : Bits}
    (h : TreeRdFaults s f info rest) (hu : exec .treeRd s = .next u) : u.fault ≠ 0 := by
  obtain ⟨v, hv, -, hframe, -⟩ := h
  obtain rfl := Host.Outcome.next.inj (hv.symm.trans hu)
  rw [hframe]
  exact faultNumber_ne_zero f

/-- A raise of TREE_RD's steps clears `NNODES` and `ROOT` and is recorded by the frame of a command. -/
theorem treeRdFaults_of_steps {s u : State} {f : FaultCode} {info : Word} (hf : s.fault = 0)
    (h : treeRdSteps { s with busy := true } = .raised f info u)
    (hframe : sameButReader (dropTree { s with busy := true }) u) : TreeRdFaults s f info u.inBits := by
  have hbody : treeRdBody { s with busy := true } = .raised f info { u with nnodes := 0, root := 0 } := by
    rw [treeRdBody, h]
  unfold sameButReader at hframe
  refine ⟨_, command_raised hf hbody, rfl, ?_, ?_⟩
  · rw [hframe]; rfl
  · rw [hframe]; exact clearPresent_present s.code

/-- A raise of `rd` is one of TREE_RD. -/
theorem treeRdFaults_of_rdRaises {s : State} {f : FaultCode} {info : Word} {rest : Bits} (hf : s.fault = 0)
    (h : RdRaises ⟨0, []⟩ s.inBits f info rest) : TreeRdFaults s f info rest := by
  obtain ⟨u, hrd, rfl⟩ := h (Config.maxInternal + 1) (dropTree { s with busy := true }) (.start _)
    (Nat.lt_succ_self _) rfl
  have hframe := rd_frame (Config.maxInternal + 1) ⟨0, []⟩ (dropTree { s with busy := true })
  rw [hrd, endsIn_raised] at hframe
  exact treeRdFaults_of_steps hf (by rw [treeRdSteps, hrd, bind_raised]) hframe

/-- A tree whose checks pass but for the missing EOS is read whole. -/
theorem treeRdFaults_noEos {s : State} {t : CodeTree} {k : Nat × List Sym} {rest : Bits} (hf : s.fault = 0)
    (ht : t.readChecks (0, []) = .ok k) (heos : Config.eos ∉ k.2) (hb : s.inBits = t.ser ++ rest) :
    TreeRdFaults s .noEosLeaf 0 rest := by
  obtain ⟨u, hrd, -, rfl⟩ := rd_accepts (.start { s with busy := true }) (fuel := Config.maxInternal + 1)
    (Nat.lt_succ_self _) ht hb
  have hframe := rd_frame (Config.maxInternal + 1) ⟨0, []⟩ (dropTree { s with busy := true })
  rw [hrd, endsIn_ok] at hframe
  exact treeRdFaults_of_steps hf (by rw [treeRdSteps, hrd, bind_ok, if_neg heos]) hframe

/-- Settles O28: a check fails in `rd`, or after it for want of EOS. -/
theorem treeRdReportsTheFirstFault : Obligations.TreeRdReportsTheFirstFault := by
  intro s t rest f info hf ht hb
  rcases CodeTree.readFault_eq_some.mp ht with hfail | ⟨k, hpass, heos, he⟩
  · have hraise := rdRaises_failedCheck (k := ⟨0, []⟩) hfail rest
    exact treeRdFaults_of_rdRaises hf (hb ▸ hraise)
  · cases he
    rw [CodeTree.bitsRead_of_ok hpass] at hb
    exact treeRdFaults_noEos hf hpass heos hb

/-- Before the bits of a tree that are read are complete, TREE_RD finds the input exhausted. -/
theorem treeRdFaults_exhausted {s : State} {t : CodeTree} {q : Bits} (hf : s.fault = 0)
    (hb : t.bitsRead = s.inBits ++ q) (hq : q ≠ []) : TreeRdFaults s .malformedStream 0 [] :=
  treeRdFaults_of_rdRaises hf (rdRaises_exhausted (k := ⟨0, []⟩) hb hq)

/-- Settles O29: the input is used up when `rd` raises. -/
theorem treeRdNeedsTheWholeTree : Obligations.TreeRdNeedsTheWholeTree := by
  intro s t q hf hb hq
  obtain ⟨u, hexec, hub, hframe, hpresent⟩ := treeRdFaults_exhausted hf hb hq
  obtain ⟨hicnt, hinp⟩ := (inBits_eq_nil_iff u).mp hub
  rw [hicnt, hinp] at hframe
  exact ⟨u, hexec, hframe, hpresent⟩

/-! ### A successful TREE_RD -/

/-- TREE_RD succeeds only on the bits of a tree it accepts: every other input makes it raise. -/
theorem input_of_treeRd {s u : State} (hf : s.fault = 0) (h : exec .treeRd s = .next u) (hu : u.fault = 0) :
    ∃ t rest, t.readFault = none ∧ s.inBits = CodeTree.ser t ++ rest := by
  obtain ⟨t, ⟨rest, ht, hb⟩ | ⟨f, info, rest, ht, hb⟩ | ⟨q, hq, hb⟩⟩ := CodeTree.inputs_of_treeRd s.inBits
  · exact ⟨t, rest, ht, hb⟩
  · exact absurd hu (TreeRdFaults.fault_ne_zero (treeRdReportsTheFirstFault s t rest f info hf ht hb) h)
  · exact absurd hu ((treeRdFaults_exhausted hf hb hq).fault_ne_zero h)

/-- A successful TREE_RD has read a tree that it accepts, and has laid it out from index 0. -/
theorem execTreeRd_success {s u : State} (hf : s.fault = 0) (h : exec .treeRd s = .next u) (hu : u.fault = 0) :
    ∃ t, t.wellFormed = true ∧ s.inBits = t.ser ++ u.inBits ∧ Spans u.nodeAt 0 t (List.range u.nnodes.toNat) ∧
      u = { s with
        node := u.node, nnodes := u.nnodes, root := 0, treeValid := true, code := u.code,
        iacc := u.iacc, icnt := u.icnt, inp := u.inp, stack := [], busy := false } := by
  obtain ⟨t, rest, ht, hb⟩ := input_of_treeRd hf h hu
  obtain ⟨v, hexec, rfl, -, hspan, hframe⟩ := execTreeRd_accepts hf ht hb
  obtain rfl := Host.Outcome.next.inj (hexec.symm.trans h)
  exact ⟨t, t.readFault_eq_none_iff_wellFormed.mp ht, hb, hspan, hframe⟩

/-- Settles O31: the indices of the tree read are those from 0 in preorder. -/
theorem treeRdLaysOutInPreorder : Obligations.TreeRdLaysOutInPreorder := by
  intro s u hf h hu
  obtain ⟨t, hwf, -, hspan, hframe⟩ := execTreeRd_success hf h hu
  have hroot : u.root = 0 := by rw [hframe]
  have hd : t.depth < Config.nodeN := Nat.lt_of_le_of_lt (CodeTree.wellFormed_depth hwf) (by decide)
  exact ⟨hroot, hroot ▸ (hspan.found hd).2⟩

/-- Settles O32: a TREE_RD without a fault sets `TREE_VALID`, and TREE_RD establishes both invariants. -/
theorem treeRdEstablishesTheTree : Obligations.TreeRdEstablishesTheTree := by
  intro s u hf h hu
  obtain ⟨_, -, -, -, hframe⟩ := execTreeRd_success hf h hu
  exact ⟨by rw [hframe], execTreeRd_invariants hf h⟩

/-! ### Writing and reading -/

/-- Settles O33: TREE_WR adds the serialization of a tree that TREE_RD accepts. -/
theorem treeRoundTrip : Obligations.TreeRoundTrip := by
  intro s w r rest hf hv hinv hp hw hr hb
  obtain ⟨t, ht⟩ := (treeInv_iff s).mp hinv hv
  obtain ⟨w', hw', hout, -⟩ := treeWrWritesTheSerialization s t hf hv ht.tree hp
  obtain rfl := Host.Outcome.next.inj (hw'.symm.trans hw)
  rw [hout, List.drop_left] at hb
  have haccept := t.readFault_eq_none_iff_wellFormed.mpr ht.1
  obtain ⟨u, hu, htree, hub, -, hframe⟩ := treeRdReadsTheTree r t rest hr haccept hb
  exact ⟨u, hu, by rw [hframe]; exact hr, by rw [hframe], htree.trans ht.tree.symm, hub⟩

/-- Settles O34: what TREE_RD consumed is the serialization of the tree it left in node memory. -/
theorem treeWrRepeatsWhatTreeRdRead : Obligations.TreeWrRepeatsWhatTreeRdRead := by
  intro s u hf hp h hu
  obtain ⟨t, hwf, hb, hspan, hframe⟩ := execTreeRd_success hf h hu
  have hroot : u.root = 0 := by rw [hframe]
  have hvalid : u.treeValid = true := by rw [hframe]
  have hpack : u.PackerInv := by rw [hframe]; exact hp
  have hsame : u.outBits = s.outBits := by rw [hframe]; rfl
  obtain ⟨v, hv, hout, -⟩ := treeWrWritesTheSerialization u t hu hvalid (tree_of_spans (hroot ▸ hspan) hwf) hpack
  exact ⟨v, t.ser, hv, hb, hsame ▸ hout⟩

end Sys2Proof.Machine
end

section
/-! PROOF. ENC writes the code of each byte of `IN` up to the first one without a Leaf, and the code of EOS after the
last one (42_symbol_encoder.md R172, R173). -/

namespace Sys2Proof.Machine

/-! ### The codes of a message -/

/-- A message with codes: its first byte has a path, the other bytes have codes (30_encoding.md R114). -/
theorem CodeTree.codesOf_cons {t : CodeTree} {b : Byte} {bs : List Byte} {x : Bits}
    (h : t.codesOf (b :: bs) = some x) :
    ∃ p q, t.path (byteSym b) = some p ∧ t.codesOf bs = some q ∧ p ++ q = x := by
  cases hp : t.path (byteSym b) with
  | none => simp [codesOf, hp] at h
  | some p =>
    cases hq : t.codesOf bs with
    | none => rw [codesOf, hp, hq] at h; cases h
    | some q =>
      rw [codesOf, hp, hq] at h
      exact ⟨p, q, rfl, rfl, Option.some.inj h⟩

/-- `encode(t, B)`: the codes of the bytes and the path of EOS (43_symbol_decoder.md R187). -/
theorem CodeTree.encodeBytes_cases {t : CodeTree} {bs : List Byte} {x : Bits} (h : t.encodeBytes bs = some x) :
    ∃ p q, t.codesOf bs = some p ∧ t.path Config.eos = some q ∧ p ++ q = x := by
  cases hp : t.codesOf bs with
  | none => simp [encodeBytes, hp] at h
  | some p =>
    cases hq : t.path Config.eos with
    | none => rw [encodeBytes, hp, hq] at h; cases h
    | some q =>
      rw [encodeBytes, hp, hq] at h
      exact ⟨p, q, rfl, rfl, Option.some.inj h⟩

/-! ### Reading the code table (10_state.md R26) -/

/-- The code table invariant over the tree that node memory holds, good or bad. -/
theorem codesOf_of_tree {s : State} {t : CodeTree} (h : s.CodeInv) (hv : s.treeValid = true) (ht : s.tree = some t) :
    CodesOf s.code t := by
  obtain ⟨u, hu, hcodes⟩ := h.1 hv
  exact Option.some.inj (hu.symm.trans ht) ▸ hcodes

theorem CodesOf.entry {code : Vector CodeEntry 257} {t : CodeTree} (h : CodesOf code t) {y : Nat} (hy : y < 257)
    {p : Bits} (hp : t.path (BitVec.ofNat 9 y) = some p) : code[y] = ⟨true, BitVec.ofNat 9 p.length, p⟩ := by
  simpa [CodeTree.codeOf, hp, CodeEntry.agrees] using h y hy

theorem CodesOf.absent {code : Vector CodeEntry 257} {t : CodeTree} (h : CodesOf code t) {y : Nat} (hy : y < 257)
    (hp : t.path (BitVec.ofNat 9 y) = none) : code[y].present = false := by
  simpa [CodeTree.codeOf, hp, CodeEntry.agrees] using h y hy

/-! ### The turns of the loop -/

/-- A byte with a Leaf: it is consumed and its path is written. -/
theorem encLoop_known {s : State} {t : CodeTree} {b : Byte} {p : Bits} (hc : CodesOf s.code t)
    (hp : t.path (byteSym b) = some p) (rest : List Byte) :
    encLoop (b :: rest) s = encLoop rest (writeSeq p (readByte rest s)) := by
  have hentry : s.codeOfByte b = ⟨true, BitVec.ofNat 9 p.length, p⟩ :=
    hc.entry (Nat.lt_trans b.isLt (by decide)) ((congrArg t.path (BitVec.ofNat_toNat 9 b)).trans hp)
  rw [encLoop, hentry, Bool.not_true, if_neg Bool.false_ne_true]

/-- A byte without a Leaf: it is consumed and the loop raises (42_symbol_encoder.md R173 item 2). -/
theorem encLoop_unknown {s : State} {t : CodeTree} {b : Byte} (hc : CodesOf s.code t)
    (hp : t.path (byteSym b) = none) (rest : List Byte) :
    encLoop (b :: rest) s = .raised .symbolNotInTree (b.setWidth 32) (readByte rest s) := by
  have habsent : (s.codeOfByte b).present = false :=
    hc.absent (Nat.lt_trans b.isLt (by decide)) ((congrArg t.path (BitVec.ofNat_toNat 9 b)).trans hp)
  rw [encLoop, habsent, Bool.not_false, if_pos rfl]

/-- After the last byte the path of EOS is written. -/
theorem encLoop_nil {s : State} {t : CodeTree} {p : Bits} (hc : CodesOf s.code t) (hp : t.path Config.eos = some p) :
    encLoop [] s = .ok () (writeSeq p s) := by
  rw [encLoop, hc.entry (by decide) hp]

/-! ### The loop on bytes that have codes -/

theorem writeBit_readByte (b : Bool) (rest : List Byte) (s : State) :
    writeBit b (readByte rest s) = readByte rest (writeBit b s) := by
  rw [writeBit, writeBit, apply_ite (readByte rest)]
  rfl

/-- The output primitives do not touch `IN`, and reading a byte does not touch the output side. -/
theorem writeSeq_readByte (bs : Bits) (rest : List Byte) (s : State) :
    writeSeq bs (readByte rest s) = readByte rest (writeSeq bs s) := by
  induction bs generalizing s with
  | nil => rfl
  | cons b bs ih => rw [writeSeq_cons, writeSeq_cons, writeBit_readByte, ih]

/-- ENC's loop runs through bytes that have codes, and writes these one after another. -/
theorem encLoop_append {t : CodeTree} {pre post : List Byte} {s : State} {x : Bits} (hinp : s.inp = pre ++ post)
    (hc : CodesOf s.code t) (hx : t.codesOf pre = some x) :
    encLoop (pre ++ post) s = encLoop post (readByte post (writeSeq x s)) := by
  induction pre generalizing s x with
  | nil =>
    obtain rfl : [] = x := Option.some.inj hx
    obtain rfl : s.inp = post := hinp
    rfl
  | cons b pre ih =>
    obtain ⟨p, q, hp, hq, rfl⟩ := CodeTree.codesOf_cons hx
    have hcode : (writeSeq p s).code = s.code := (writeSeq_frame p s).code
    calc encLoop (b :: (pre ++ post)) s
        = encLoop (pre ++ post) (writeSeq p (readByte (pre ++ post) s)) := encLoop_known hc hp _
      _ = encLoop (pre ++ post) (readByte (pre ++ post) (writeSeq p s)) := by rw [writeSeq_readByte]
      _ = encLoop post (readByte post (writeSeq q (readByte (pre ++ post) (writeSeq p s)))) :=
          ih rfl (by rw [readByte_code, hcode]; exact hc) hq
      _ = encLoop post (readByte post (writeSeq (p ++ q) s)) := by
          rw [writeSeq_readByte, writeSeq_append]; rfl

/-- ENC with a tree and at a byte boundary, run through the bytes that have codes. -/
theorem encBody_append {t : CodeTree} {pre post : List Byte} {s : State} {x : Bits} (hv : s.treeValid = true)
    (hi : s.icnt = 0) (hinp : s.inp = pre ++ post) (hc : CodesOf s.code t) (hx : t.codesOf pre = some x) :
    encBody s = encLoop post (readByte post (writeSeq x s)) := by
  rw [encBody, hv, Bool.not_true, if_neg Bool.false_ne_true, if_neg (not_not_intro hi), hinp]
  exact encLoop_append hinp hc hx

/-- The codes written before the loop goes on leave the code table as it was. -/
theorem CodesOf.written {t : CodeTree} {s : State} (hc : CodesOf s.code t) (rest : List Byte) (x : Bits) :
    CodesOf (readByte rest (writeSeq x s)).code t := by
  rw [readByte_code, (writeSeq_frame x s).code]
  exact hc

/-! ### The statements -/

/-- Settles O35: the loop runs through the whole message, and the path of EOS follows. -/
theorem encWritesTheCodes : Obligations.EncWritesTheCodes := by
  intro s t x hf hv hi ht hcode hp hx
  have hc := codesOf_of_tree hcode hv ht
  obtain ⟨p, q, hcodes, heos, rfl⟩ := CodeTree.encodeBytes_cases hx
  have hbody : encBody { s with busy := true } = .ok () (readByte [] (writeSeq (p ++ q) { s with busy := true })) := by
    rw [encBody_append (s := { s with busy := true }) hv hi (List.append_nil _).symm hc hcodes,
      encLoop_nil (hc.written (s := { s with busy := true }) [] p) heos, writeSeq_readByte, writeSeq_append]
  have hframe := writeSeq_frame (p ++ q) { s with busy := true }
  obtain ⟨hout, hpack, -⟩ := writeSeq_appends (p ++ q) (s := { s with busy := true }) hp
  unfold sameButOutput at hframe
  refine ⟨_, command_ok hf hbody, hout, hpack, ?_⟩
  rw [hframe]
  rfl

/-- Settles O36: the loop runs through the bytes before `b` and raises at `b`. -/
theorem encStopsAtAnUnknownByte : Obligations.EncStopsAtAnUnknownByte := by
  intro s t pre post b x hf hv hi ht hcode hp hinp hx hb
  have hc := codesOf_of_tree hcode hv ht
  have hbody : encBody { s with busy := true } =
      .raised .symbolNotInTree (b.setWidth 32) (readByte post (writeSeq x { s with busy := true })) := by
    rw [encBody_append (s := { s with busy := true }) hv hi hinp hc hx,
      encLoop_unknown (hc.written (s := { s with busy := true }) _ x) hb]
    rfl
  have hframe := writeSeq_frame x { s with busy := true }
  obtain ⟨hout, -⟩ := writeSeq_appends x (s := { s with busy := true }) hp
  unfold sameButOutput at hframe
  refine ⟨_, command_raised hf hbody, hout, ?_⟩
  rw [hframe]
  rfl

end Sys2Proof.Machine
end

section
/-! PROOF. The abstract `decode` (43_symbol_decoder.md R187, R188): with a tree of the invariant its bounded loop ends, and
it undoes `encode`. -/

namespace Sys2Proof.Machine

namespace CodeTree

/-! ### The loop ends (43_symbol_decoder.md R188) -/

/-- Within the turns R188 counts, decoding from a subtree ends at EOS or on an exhausted input. -/
theorem decodeFrom_ends {t : CodeTree} (hwf : t.wellFormed = true) {fuel : Nat} {c : CodeTree} {x : Bits}
    (hc : c.symbols ⊆ t.symbols) (hfuel : c.turns x.length ≤ fuel) : ∃ d, decodeFrom t fuel c x = some d := by
  induction fuel generalizing c x with
  | zero => cases c <;> simp [turns] at hfuel
  | succ fuel ih =>
    cases c with
    | leaf y =>
      by_cases hy : y = Config.eos
      · exact ⟨_, if_pos hy⟩
      · have hturns := turns_of_other_leaf hwf (hc (List.mem_singleton.mpr rfl)) hy x.length
        obtain ⟨d, hd⟩ := ih (List.Subset.refl t.symbols) (hturns.le.trans (Nat.le_of_succ_le_succ hfuel))
        exact ⟨_, by rw [decodeFrom, if_neg hy, hd, Option.map_some]⟩
    | internal l r =>
      cases x with
      | nil => exact ⟨_, rfl⟩
      | cons b x =>
        obtain ⟨hl, hr⟩ := List.append_subset.mp hc
        have hleft : 2 * x.length + 2 ≤ fuel := Nat.le_of_succ_le_succ hfuel
        cases b with
        | true => exact ih hr ((r.turns_le _).trans hleft)
        | false => exact ih hl ((l.turns_le _).trans hleft)

/-! ### Decoding a code (43_symbol_decoder.md R187) -/

/-- The bits of a path lead to its Leaf, a turn for each bit. -/
theorem decodeFrom_path {c : CodeTree} {y : Sym} {p : Bits} (h : c.path y = some p) (t : CodeTree) (fuel : Nat)
    (x : Bits) : decodeFrom t (p.length + fuel) c (p ++ x) = decodeFrom t fuel (leaf y) x := by
  induction c generalizing p with
  | leaf z =>
    obtain rfl := eq_of_path_leaf h
    obtain rfl : [] = p := Option.some.inj ((if_pos rfl).symm.trans h)
    rw [List.length_nil, Nat.zero_add, List.nil_append]
  | internal l r ihl ihr =>
    obtain ⟨q, hq, rfl⟩ | ⟨q, hq, rfl⟩ := path_internal_cases h
    · rw [List.length_cons, Nat.add_right_comm]
      exact ihl hq
    · rw [List.length_cons, Nat.add_right_comm]
      exact ihr hq

theorem setWidth_byteSym (b : Byte) : (byteSym b).setWidth 8 = b := by
  rw [byteSym, BitVec.setWidth_setWidth_of_le b (by decide), BitVec.setWidth_eq]

/-- The code of a byte is decoded to the byte, in one more turn than it has bits. -/
theorem decodeFrom_byte {t : CodeTree} {b : Byte} {p : Bits} (h : t.path (byteSym b) = some p) (fuel : Nat) (x : Bits) :
    decodeFrom t (p.length + (fuel + 1)) t (p ++ x) = (decodeFrom t fuel t x).map fun d => (b :: d.1, d.2) := by
  rw [decodeFrom_path h, decodeFrom, if_neg (byteSym_ne_eos b), setWidth_byteSym]

/-- The code of EOS ends the decoding. -/
theorem decodeFrom_eos {t : CodeTree} {p : Bits} (h : t.path Config.eos = some p) (fuel : Nat) (x : Bits) :
    decodeFrom t (p.length + (fuel + 1)) t (p ++ x) = some ([], some x) := by
  rw [decodeFrom_path h, decodeFrom, if_pos rfl]

/-- The codes of a message are decoded to the message, in a turn for each bit and each byte. -/
theorem decodeFrom_codesOf {t : CodeTree} {bs : List Byte} {x : Bits} (h : t.codesOf bs = some x) (fuel : Nat)
    (z : Bits) : decodeFrom t (x.length + bs.length + fuel) t (x ++ z) =
      (decodeFrom t fuel t z).map fun d => (bs ++ d.1, d.2) := by
  induction bs generalizing x with
  | nil =>
    obtain rfl : [] = x := Option.some.inj h
    simp
  | cons b bs ih =>
    obtain ⟨p, q, hp, hq, rfl⟩ := codesOf_cons h
    have hturns : (p ++ q).length + (b :: bs).length + fuel = p.length + (q.length + bs.length + fuel + 1) := by
      simp only [List.length_append, List.length_cons]
      omega
    rw [hturns, List.append_assoc, decodeFrom_byte hp, ih hq, Option.map_map]
    rfl

/-! ### The bound (43_symbol_decoder.md R188) -/

/-- In a tree with an EOS Leaf the code of a byte is not empty. -/
theorem path_byteSym_pos {t : CodeTree} (hwf : t.wellFormed = true) {b : Byte} {p : Bits}
    (h : t.path (byteSym b) = some p) : 1 ≤ p.length := by
  obtain ⟨-, -, heos⟩ := t.wellFormed_iff.mp hwf
  obtain ⟨q, hq⟩ := exists_path heos
  cases p with
  | nil => exact absurd (eq_of_path_prefix h hq List.nil_prefix) (byteSym_ne_eos b)
  | cons _ _ => exact Nat.succ_pos _

/-- The codes of a message have at least as many bits as it has bytes. -/
theorem length_le_of_codesOf {t : CodeTree} (hwf : t.wellFormed = true) {bs : List Byte} {x : Bits}
    (h : t.codesOf bs = some x) : bs.length ≤ x.length := by
  induction bs generalizing x with
  | nil => exact Nat.zero_le _
  | cons b bs ih =>
    obtain ⟨p, q, hp, hq, rfl⟩ := codesOf_cons h
    have hpos := path_byteSym_pos hwf hp
    have hle := ih hq
    simp only [List.length_append, List.length_cons]
    omega

end CodeTree

/-- Settles O40: the bound of the loop covers the turns from the root. -/
theorem decodingAlwaysEnds : Obligations.DecodingAlwaysEnds := fun t _ hwf =>
  CodeTree.decodeFrom_ends hwf (List.Subset.refl _) (t.turns_le _)

/-- Settles O39: the codes of the bytes are decoded one after another, then the code of EOS stops the loop; the bound
suffices because every byte has a code of at least one bit. -/
theorem decodeInvertsEncode : Obligations.DecodeInvertsEncode := by
  intro t bytes x z hwf hx
  obtain ⟨p, q, hp, hq, rfl⟩ := CodeTree.encodeBytes_cases hx
  have hle := CodeTree.length_le_of_codesOf hwf hp
  obtain ⟨n, hn⟩ : ∃ n, 2 * (p ++ q ++ z).length + 2 = p.length + bytes.length + (q.length + (n + 1)) :=
    ⟨2 * (p ++ q ++ z).length + 1 - (p.length + bytes.length + q.length), by
      simp only [List.length_append]
      omega⟩
  rw [CodeTree.decode, hn, List.append_assoc, CodeTree.decodeFrom_codesOf hp, CodeTree.decodeFrom_eos hq,
    Option.map_some, List.append_nil]

end Sys2Proof.Machine
end

section
/-! PROOF. DEC computes `decode` (43_symbol_decoder.md R185, R187, R189): its loop and the loop of `decode` take the same
turns, from the same position in the tree and the same pending bits. -/

namespace Sys2Proof.Machine

/-! ### The two sides of the streams -/

theorem sameButInput.ocnt {s t : State} (h : sameButInput s t) : t.ocnt = s.ocnt := by
  unfold sameButInput at h
  rw [h]

theorem sameButInput.outBits {s t : State} (h : sameButInput s t) : t.outBits = s.outBits := by
  unfold sameButInput at h
  rw [h]
  rfl

theorem sameButInput.packerInv {s t : State} (h : sameButInput s t) (hp : s.PackerInv) : t.PackerInv := by
  unfold sameButInput at h
  rw [h]
  exact hp

/-- Writing output does not touch the input side. -/
theorem sameButOutput.inBits {s t : State} (h : sameButOutput s t) : t.inBits = s.inBits := by
  unfold sameButOutput at h
  rw [h]
  rfl

/-- A byte written is appended whole, so the packer keeps its position (20_memory.md R69, R70). -/
theorem writeBits_byte (b : Byte) {s : State} (h : s.PackerInv) :
    (writeBits b s).outBits = s.outBits ++ byteBits [b] ∧ (writeBits b s).PackerInv ∧ (writeBits b s).ocnt = s.ocnt := by
  obtain ⟨hout, hpack, hocnt⟩ := writeBits_appends b h
  exact ⟨by rw [hout, byteBits_cons, byteBits_nil, List.append_nil], hpack, hocnt.trans (BitVec.add_zero s.ocnt)⟩

/-! ### The simulation -/

/-- The engine decodes with `t` and stands at the subtree `c` (43_symbol_decoder.md R185). -/
structure DecodingAt (t c : CodeTree) (s : State) : Prop where
  root : s.At s.root t
  cur : s.At s.cur c
  within : c.symbols ⊆ t.symbols
  packer : s.PackerInv

/-- Moving `CUR` to a subtree, in a state that still holds the tree and a good packer. -/
theorem DecodingAt.move {t c d : CodeTree} {s u : State} {i : Idx} (h : DecodingAt t c s)
    (hu : u.nodeAt = s.nodeAt ∧ u.root = s.root) (hp : u.PackerInv) (hi : s.At i d) (hd : d.symbols ⊆ t.symbols) :
    DecodingAt t d { u with cur := i } where
  root := hu.2 ▸ h.root.of_eq hu.1
  cur := hi.of_eq hu.1
  within := hd
  packer := hp

/-- How DEC's loop ends where `decode` ends with these bits left: at EOS it ends, on an exhausted input it raises
MalformedStream (43_symbol_decoder.md R189). -/
def decEnd : Option Bits → State → Cmd Unit
  | some _, u => .ok () u
  | none, u => .raised .malformedStream 0 u

theorem decEnd_endsIn (e : Option Bits) (u : State) (p : State → Prop) : (decEnd e u).endsIn p ↔ p u := by
  cases e <;> rfl

/-- DEC's loop ends in `u` as `decode` ends with `d`: the bytes are appended and the same input bits are left. -/
structure DecodesTo (d : List Byte × Option Bits) (s u : State) : Prop where
  outBits : u.outBits = s.outBits ++ byteBits d.1
  ocnt : u.ocnt = s.ocnt
  inBits : u.inBits = d.2.getD []

/-- What was written before the loop goes on from a position is the start of what the loop writes. -/
theorem DecodesTo.after {d : List Byte × Option Bits} {s v u : State} {i : Idx} {bs : List Byte}
    (h : DecodesTo d { v with cur := i } u) (hout : v.outBits = s.outBits ++ byteBits bs) (hocnt : v.ocnt = s.ocnt) :
    DecodesTo (bs ++ d.1, d.2) s u where
  outBits :=
    calc u.outBits
        = v.outBits ++ byteBits d.1 := h.outBits
      _ = s.outBits ++ byteBits (bs ++ d.1) := by rw [hout, byteBits_append, List.append_assoc]
  ocnt := h.ocnt.trans hocnt
  inBits := h.inBits

/-- DEC's loop follows `decode` turn by turn. -/
theorem decLoop_decodes {t : CodeTree} (hwf : t.wellFormed = true) {fuel : Nat} {c : CodeTree} {s : State}
    {d : List Byte × Option Bits} (h : DecodingAt t c s) (hd : CodeTree.decodeFrom t fuel c s.inBits = some d) :
    ∃ u, decLoop fuel s = decEnd d.2 u ∧ DecodesTo d s u := by
  induction fuel generalizing c s d with
  | zero => cases hd
  | succ fuel ih =>
    cases c with
    | leaf y =>
      have hle := (t.wellFormed_iff.mp hwf).1 y (h.within (List.mem_singleton.mpr rfl))
      rw [CodeTree.decodeFrom] at hd
      rw [decLoop_leaf h.cur hle]
      by_cases hy : y = Config.eos
      · rw [if_pos hy] at hd ⊢
        cases hd
        exact ⟨s, rfl, (List.append_nil _).symm, rfl, rfl⟩
      · rw [if_neg hy] at hd ⊢
        obtain ⟨e, he, rfl⟩ := Option.map_eq_some_iff.mp hd
        obtain ⟨hout, hpack, hocnt⟩ := writeBits_byte (y.setWidth 8) h.packer
        have hframe := writeBits_frame (y.setWidth 8 : Byte) s
        generalize writeBits (y.setWidth 8 : Byte) s = v at *
        rw [← hframe.inBits] at he
        obtain ⟨u, hu, hdec⟩ := ih (h.move hframe.node_root hpack h.root (List.Subset.refl _)) he
        exact ⟨u, hu, hdec.after hout hocnt⟩
    | internal l r =>
      obtain ⟨i, j, hi, hj, hstep⟩ := decLoop_internal h.cur
      obtain ⟨hl, hr⟩ := List.append_subset.mp h.within
      rw [hstep]
      rcases readBit_cases .malformedStream s with ⟨hb, hread⟩ | ⟨b, v, hb, hread, hv, -⟩
      · rw [hb] at hd
        cases hd
        exact ⟨s, by rw [hread]; rfl, (List.append_nil _).symm, rfl, hb⟩
      · rw [hb] at hd
        rw [hread, bind_ok]
        have hnext : DecodingAt t (if b then r else l) { v with cur := if b then j else i } := by
          cases b with
          | true => exact h.move hv.node_root (hv.packerInv h.packer) hj hr
          | false => exact h.move hv.node_root (hv.packerInv h.packer) hi hl
        obtain ⟨u, hu, hdec⟩ := ih hnext hd
        exact ⟨u, hu, hdec.after (bs := []) (hv.outBits.trans (List.append_nil _).symm) hv.ocnt⟩

/-- The body of DEC computes `decode` and changes nothing but `CUR` and the two streams. -/
theorem decBody_decodes {t : CodeTree} {s : State} {x : Bits} {d : List Byte × Option Bits} (hv : s.treeValid = true)
    (ht : s.At s.root t) (hwf : t.wellFormed = true) (hp : s.PackerInv) (hx : s.inBits = x) (hd : t.decode x = some d) :
    ∃ u, decBody s = decEnd d.2 u ∧ DecodesTo d s u ∧
      u = { s with cur := u.cur, iacc := u.iacc, icnt := u.icnt, inp := u.inp, oacc := u.oacc, out := u.out } := by
  have hstart : DecodingAt t t { s with cur := s.root } := ⟨ht, ht, List.Subset.refl _, hp⟩
  rw [← hx, CodeTree.decode, inBits_length] at hd
  obtain ⟨u, hu, hloop⟩ := decLoop_decodes hwf hstart hd
  have hdec : DecodesTo d s u := hloop.after (bs := []) (List.append_nil _).symm rfl
  have hframe := decLoop_frame (2 * inputBitCount s + 2) { s with cur := s.root }
  rw [hu, decEnd_endsIn, sameButDecoder, hdec.ocnt] at hframe
  exact ⟨u, (decBody_valid hv).trans hu, hdec, hframe⟩

/-- Settles O38: the body ends as `decode` ends, and the frame of a command records the end or the raise. -/
theorem decComputesDecode : Obligations.DecComputesDecode := by
  intro s t bytes hf hv ht hwf hp
  obtain ⟨idx, hs, -⟩ := spans_of_treeAt ht
  refine ⟨fun rest hd => ?_, fun hd => ?_⟩ <;>
    obtain ⟨u, hbody, hdec, hframe⟩ := decBody_decodes (s := { s with busy := true }) hv ⟨idx, hs⟩ hwf hp rfl hd
  · refine ⟨_, command_ok hf hbody, hdec.outBits, hdec.inBits, ?_⟩
    rw [hframe]
  · obtain ⟨hicnt, hinp⟩ := (inBits_eq_nil_iff u).mp hdec.inBits
    rw [hicnt, hinp] at hframe
    refine ⟨_, command_raised hf hbody, hdec.outBits, ?_⟩
    rw [hframe]
    rfl

end Sys2Proof.Machine
end

section
/-! PROOF. Container and control commands (44_container_and_control.md R200 to R204): each command's body in terms of the
bits written and pending, and the frame it runs in. -/

namespace Sys2Proof.Machine

/-! ### Byte streams as bit sequences (20_memory.md R64) -/

/-- A bit sequence is that of at most one byte sequence. -/
theorem byteBits_injective {as bs : List Byte} (h : byteBits as = byteBits bs) : as = bs := by
  induction as generalizing bs with
  | nil =>
    have hlen := congrArg List.length h
    simp only [byteBits_length, List.length_nil] at hlen
    exact (List.length_eq_zero_iff.mp (by omega)).symm
  | cons a as ih =>
    cases bs with
    | nil => simpa using congrArg List.length h
    | cons b bs =>
      obtain ⟨hhead, htail⟩ := List.append_inj h (by rw [msb_length, msb_length])
      rw [byte_eq_of_msb_eq hhead, ih htail]

/-- With no bit pending, the output bits are those of the bytes of `OUT`. -/
theorem outBits_of_ocnt_zero {s : State} (h : s.ocnt = 0) : s.outBits = byteBits s.out := by
  rw [State.outBits, h]
  exact List.append_nil _

/-- With no bit pending on either side of it, what is written is the bytes added to `OUT`. -/
theorem out_of_outBits {s : State} {out : List Byte} (hc : s.ocnt = 0) (h : s.outBits = byteBits out) : s.out = out :=
  byteBits_injective ((outBits_of_ocnt_zero hc).symm.trans h)

/-! ### NOP and INIT -/

/-- Settles O9: the body of NOP ends at once, and a faulted engine ignores it. -/
theorem nopChangesNothing : Obligations.NopChangesNothing := fun s =>
  ⟨fun hf => command_ok (body := nopBody) (t := { s with busy := true }) hf rfl, command_faulted (body := nopBody)⟩

/-- Directly after reset INIT has nothing to clear. -/
theorem clearEngine_reset : clearEngine State.reset = State.reset := by
  have hcode : clearPresent State.reset.code = State.reset.code := Vector.ext fun y hy => by
    rw [clearPresent_getElem]
    simp [State.reset]
  calc clearEngine State.reset
      = { State.reset with code := clearPresent State.reset.code } := rfl
    _ = State.reset := by rw [hcode]

/-- Settles O10: INIT is `clearEngine`, in the faulted state too. -/
theorem initBeginsANewInvocation : Obligations.InitBeginsANewInvocation :=
  ⟨fun s => ⟨_, rfl, rfl, clearPresent_present s.code⟩, congrArg Host.Outcome.next clearEngine_reset⟩

/-! ### FLUSH -/

theorem flushBits_idle {s : State} (h : s.ocnt = 0) : flushBits s = s :=
  if_neg (by rw [h]; decide)

theorem flushBits_emits {s : State} (h : s.ocnt ≠ 0) :
    flushBits s = { s with out := s.out ++ [s.oacc], oacc := 0, ocnt := 0 } :=
  if_pos (Nat.pos_of_ne_zero fun h0 => h (BitVec.eq_of_toNat_eq h0))

theorem execFlush_eq {s : State} (hf : s.fault = 0) :
    exec .flush s = .next { flushBits { s with busy := true } with busy := false } :=
  command_ok (body := flushBody) hf rfl

/-- FLUSH fills the partial byte with zeros and empties the packer. -/
theorem execFlush_pads {s : State} (hf : s.fault = 0) (hp : s.PackerInv) :
    ∃ t, exec .flush s = .next t ∧ byteBits t.out = s.outBits ++ List.replicate ((8 - s.ocnt.toNat) % 8) false ∧
      t = { s with oacc := 0, ocnt := 0, out := t.out, busy := false } := by
  have hframe := flushBits_frame { s with busy := true }
  obtain ⟨hocnt, hoacc⟩ := flushBits_empties (s := { s with busy := true }) hp
  unfold sameButOutput at hframe
  rw [hocnt, hoacc] at hframe
  exact ⟨_, execFlush_eq hf, flushBits_pads (s := { s with busy := true }) hp, by rw [hframe]⟩

/-- Settles O11: with and without a pending bit, and the packer's own law for the padding. -/
theorem flushEmitsThePartialByte : Obligations.FlushEmitsThePartialByte := by
  intro s hf
  refine ⟨fun hc => ?_, fun hc => ?_, fun hp => ?_⟩
  · rw [execFlush_eq hf, flushBits_idle (s := { s with busy := true }) hc]
  · rw [execFlush_eq hf, flushBits_emits (s := { s with busy := true }) hc]
  · obtain ⟨t, hexec, hbits, hframe⟩ := execFlush_pads hf hp
    exact ⟨t, hexec, by rw [hframe], by rw [hframe], hbits⟩

/-! ### HDR_WR -/

/-- The header as bytes (30_encoding.md R107). -/
theorem byteBits_magic : byteBits [0x00, 0x00, 0x07, 0x36] = msb Config.magic := by decide

/-- The body of HDR_WR: 32 bits are appended, so the packer comes back to its position. -/
theorem hdrWrBody_appends {s : State} (h : s.PackerInv) :
    ∃ t, hdrWrBody s = .ok () t ∧ t.outBits = s.outBits ++ msb Config.magic ∧ t.PackerInv ∧
      t = { s with oacc := t.oacc, out := t.out } := by
  obtain ⟨hout, hpack, hocnt⟩ := writeBits_appends Config.magic h
  have hframe := writeBits_frame Config.magic s
  unfold sameButOutput at hframe
  rw [hocnt.trans (BitVec.add_zero s.ocnt)] at hframe
  exact ⟨_, rfl, hout, hpack, hframe⟩

/-- Settles O12: what the body appends, as bits and, with no bit pending, as bytes. -/
theorem hdrWrWritesTheHeader : Obligations.HdrWrWritesTheHeader := by
  intro s hf hp
  obtain ⟨t, hbody, hout, hpack, hframe⟩ := hdrWrBody_appends (s := { s with busy := true }) hp
  have hocnt : t.ocnt = s.ocnt := by rw [hframe]
  refine ⟨_, command_ok (body := hdrWrBody) hf hbody, hout, hpack, by rw [hframe], fun hc => ?_⟩
  refine out_of_outBits (s := t) (hocnt.trans hc) (hout.trans ?_)
  rw [outBits_of_ocnt_zero (s := { s with busy := true }) hc, byteBits_append, byteBits_magic]

/-! ### HDR_RD -/

/-- The body of HDR_RD on an input of 32 bits or more. -/
theorem hdrRdBody_delivers {s : State} {v : Word} {rest : Bits} (h : s.inBits = msb v ++ rest) :
    ∃ t, hdrRdBody s = (if v ≠ Config.magic then .raised .invalidFormat v t else .ok () t) ∧ t.inBits = rest ∧
      t = { s with iacc := t.iacc, inp := t.inp } := by
  obtain ⟨t, hread, hrest, hframe, hicnt⟩ := readBits_delivers .invalidFormat v h
  unfold sameButInput at hframe
  rw [hicnt.trans (BitVec.sub_zero s.icnt)] at hframe
  exact ⟨t, by rw [hdrRdBody, hread, bind_ok], hrest, hframe⟩

/-- The body of HDR_RD on an input of fewer than 32 bits. -/
theorem hdrRdBody_exhausted {s : State} (h : s.inBits.length < 32) :
    ∃ t, hdrRdBody s = .raised .invalidFormat 0 t ∧ t = { s with iacc := t.iacc, icnt := 0, inp := [] } := by
  obtain ⟨t, hread, hrest, hframe⟩ := readBits_exhausted .invalidFormat 32 h
  obtain ⟨hicnt, hinp⟩ := (inBits_eq_nil_iff t).mp hrest
  unfold sameButInput at hframe
  rw [hicnt, hinp] at hframe
  exact ⟨t, by rw [hdrRdBody, hread, bind_raised], hframe⟩

/-- Settles O13: the header, another value, and a short input. -/
theorem hdrRdChecksTheHeader : Obligations.HdrRdChecksTheHeader := by
  intro s hf
  refine ⟨fun rest hb => ?_, fun v rest hv hb => ?_, fun hlen => ?_⟩
  · obtain ⟨t, hbody, hrest, hframe⟩ := hdrRdBody_delivers (s := { s with busy := true }) (v := Config.magic) hb
    refine ⟨_, command_ok (body := hdrRdBody) hf (hbody.trans (if_neg (not_not_intro rfl))), hrest, ?_⟩
    rw [hframe]
  · obtain ⟨t, hbody, hrest, hframe⟩ := hdrRdBody_delivers (s := { s with busy := true }) hb
    refine ⟨_, command_raised (body := hdrRdBody) hf (hbody.trans (if_pos hv)), hrest, ?_⟩
    rw [hframe]
    rfl
  · obtain ⟨t, hbody, hframe⟩ := hdrRdBody_exhausted (s := { s with busy := true }) hlen
    refine ⟨_, command_raised hf hbody, ?_⟩
    rw [hframe]
    rfl

end Sys2Proof.Machine
end

section
/-! PROOF. A host script run move by move (70_reset_and_hazards.md R258): a command keeps the host's moves, so each move
leaves the rest of the script. -/

namespace Sys2Proof.Machine

/-- No command touches the host's moves (30_encoding.md R117). -/
theorem exec_moves {i : Instr} {s t : State} (h : exec i s = .next t) : t.moves = s.moves := by
  cases i with
  | nop => rw [execNop_frame h]
  | init => cases h; rfl
  | hist => rw [execHist_frame h]
  | build => rw [execBuild_frame h]
  | hdrWr => rw [execHdrWr_frame h]
  | treeWr => rw [execTreeWr_frame h]
  | enc => rw [execEnc_frame h]
  | flush => rw [execFlush_frame h]
  | hdrRd => rw [execHdrRd_frame h]
  | treeRd => rw [execTreeRd_frame h]
  | dec => rw [execDec_frame h]

/-- A script is over when no move is left. -/
theorem runScript_nil (s : State) : runScript [] s = .next { s with moves := [] } := rfl

/-- A run goes on from where its first step leads. -/
theorem run_succ {s t : State} (h : step s = .next t) (k : Nat) :
    Host.Core.run Sys2Proof.core (k + 1) s = Host.Core.run Sys2Proof.core k t := by
  have hcore : Sys2Proof.core.step s = .next t := h
  simp only [Host.Core.run, hcore]

/-- The first move of a script, where it leaves the rest of the script pending. -/
theorem runScript_cons {m : HostMove} {ms : List HostMove} {s t : State}
    (h : hostMove m { s with moves := ms } = .next t) (hm : t.moves = ms) : runScript (m :: ms) s = runScript ms t := by
  obtain rfl := hm
  exact run_succ ((step_move (s := { s with moves := m :: t.moves }) rfl).trans h) t.moves.length

/-- A command of a script on an idle engine. -/
theorem runScript_command {i : Instr} {ms : List HostMove} {s t : State} (hb : s.busy = false)
    (h : exec i { s with moves := ms } = .next t) : runScript (commandMove i :: ms) s = runScript ms t := by
  have hmove : hostMove (commandMove i) { s with moves := ms } = .next t :=
    calc memWrite cmdAddr (encode i) { s with moves := ms }
        = dispatch (encode i) { s with moves := ms } := memWrite_cmd _ hb
      _ = exec i { s with moves := ms } := dispatch_legal (decode_encode i) _
      _ = .next t := h
  exact runScript_cons hmove (exec_moves h)

/-- A `Supply` of a script. -/
theorem runScript_supply (bs : List Byte) (ms : List HostMove) (s : State) :
    runScript (.supply bs :: ms) s = runScript ms { s with moves := ms, inp := s.inp ++ bs } :=
  runScript_cons rfl rfl

end Sys2Proof.Machine
end

section
/-! PROOF. The container `G(B)` (44_container_and_control.md R205): it exists for every `B`, and its bits are the header, the
tree and the payload, filled with zeros to a byte boundary. -/

namespace Sys2Proof.Machine

/-! ### Bits packed into bytes (20_memory.md R64, R71) -/

/-- Eight bits are the bits of the byte of their value (20_memory.md R65). -/
theorem msb_bitsValue {bs : Bits} (h : bs.length = 8) : msb (BitVec.ofNat 8 (bitsValue bs)) = bs := by
  obtain ⟨v, rfl⟩ := exists_msb 8 bs h
  rw [bitsValue_msb, BitVec.ofNat_toNat, BitVec.setWidth_eq]

/-- Counting in groups of eight is counting. -/
theorem flatMap_range_eight (f : Nat → Bool) (m : Nat) :
    ((List.range m).flatMap fun k => (List.range 8).map fun j => f (8 * k + j)) = (List.range (8 * m)).map f := by
  induction m with
  | zero => rfl
  | succ m ih =>
    rw [List.range_succ (n := m), List.flatMap_append, ih, List.flatMap_singleton, Nat.mul_succ, List.range_add,
      List.map_append, List.map_map]
    rfl

/-- A list read beyond its end is the list and the default. -/
theorem map_getD_range (x : Bits) {n : Nat} (h : x.length ≤ n) :
    ((List.range n).map fun k => (x[k]?).getD false) = x ++ List.replicate (n - x.length) false := by
  apply List.ext_getElem
  · rw [List.length_map, List.length_range, List.length_append, List.length_replicate]
    omega
  · intro k h1 h2
    rw [List.getElem_map, List.getElem_range, List.getElem_append]
    split
    · rw [List.getElem?_eq_getElem, Option.getD_some]
    next hk => rw [List.getElem?_eq_none (Nat.le_of_not_lt hk), List.getElem_replicate, Option.getD_none]

/-- Packing keeps the bits and fills the last byte with zeros. -/
theorem byteBits_packBits (x : Bits) :
    byteBits (packBits x) = x ++ List.replicate ((8 - x.length % 8) % 8) false := by
  have hpad : 8 * ((x.length + 7) / 8) - x.length = (8 - x.length % 8) % 8 := by omega
  calc byteBits (packBits x)
      = (List.range ((x.length + 7) / 8)).flatMap fun k => (List.range 8).map fun j => (x[8 * k + j]?).getD false := by
        rw [byteBits, packBits, List.flatMap_map]
        exact List.flatMap_congr fun k _ => msb_bitsValue (by rw [List.length_map, List.length_range])
    _ = (List.range (8 * ((x.length + 7) / 8))).map fun k => (x[k]?).getD false :=
        flatMap_range_eight (fun k => (x[k]?).getD false) _
    _ = x ++ List.replicate ((8 - x.length % 8) % 8) false := by rw [map_getD_range x (by omega), hpad]

/-- Packing the bits of bytes gives the bytes. -/
theorem packBits_byteBits (bs : List Byte) : packBits (byteBits bs) = bs := by
  refine byteBits_injective ?_
  rw [byteBits_packBits, byteBits_length, Nat.mul_mod_right]
  exact List.append_nil _

/-! ### The tree of the counts has a code for every byte (40_tree_builder.md R143) -/

theorem exists_codesOf {t : CodeTree} {bs : List Byte} (h : ∀ b ∈ bs, byteSym b ∈ t.symbols) :
    ∃ x, t.codesOf bs = some x := by
  induction bs with
  | nil => exact ⟨[], rfl⟩
  | cons b bs ih =>
    obtain ⟨p, hp⟩ := CodeTree.exists_path (h b List.mem_cons_self)
    obtain ⟨q, hq⟩ := ih fun c hc => h c (List.mem_cons_of_mem b hc)
    exact ⟨p ++ q, by rw [CodeTree.codesOf, hp, hq]⟩

theorem exists_encodeBytes {t : CodeTree} (hwf : t.wellFormed = true) {bs : List Byte}
    (h : ∀ b ∈ bs, byteSym b ∈ t.symbols) : ∃ x, t.encodeBytes bs = some x := by
  obtain ⟨p, hp⟩ := exists_codesOf h
  obtain ⟨q, hq⟩ := CodeTree.exists_path (t.wellFormed_iff.mp hwf).2.2
  exact ⟨p ++ q, by rw [CodeTree.encodeBytes, hp, hq]⟩

/-- The parts of the container: the tree of the counts, the payload written with it, and the bytes. -/
structure ContainerOf (bytes : List Byte) (t : CodeTree) (x : Bits) (g : List Byte) : Prop where
  tree : buildTree (countsOf bytes) = some t
  wellFormed : t.wellFormed = true
  payload : t.encodeBytes bytes = some x
  packed : g = packBits (msb Config.magic ++ t.ser ++ x)

theorem ContainerOf.container_eq {bytes : List Byte} {t : CodeTree} {x : Bits} {g : List Byte}
    (h : ContainerOf bytes t x g) : container bytes = some g := by
  simp only [container, h.tree, h.payload, Option.map_some, h.packed]

/-- Every byte sequence has a container (44_container_and_control.md R205). -/
theorem exists_containerOf (bytes : List Byte) : ∃ t x g, ContainerOf bytes t x g := by
  obtain ⟨t, ht, hwf, hperm, -⟩ := builtTreeHasTheSymbols (countsOf bytes)
  have hmem : ∀ b ∈ bytes, byteSym b ∈ t.symbols := fun b hb =>
    hperm.mem_iff.mpr <| List.mem_append_left _ <| List.mem_map_of_mem <|
      mem_presentBytes.mpr (List.count_pos_iff.mpr hb)
  obtain ⟨x, hx⟩ := exists_encodeBytes hwf hmem
  exact ⟨t, x, _, ht, hwf, hx, rfl⟩

/-- The bits of the container, as a decoder meets them. -/
theorem ContainerOf.bits {bytes : List Byte} {t : CodeTree} {x : Bits} {g : List Byte} (h : ContainerOf bytes t x g) :
    ∃ pad, byteBits g = msb Config.magic ++ (t.ser ++ (x ++ pad)) :=
  ⟨_, by rw [h.packed, byteBits_packBits]; simp only [List.append_assoc]; rfl⟩

end Sys2Proof.Machine
end

section
/-! PROOF. ENCODE_FILE and DECODE_FILE (44_container_and_control.md R205 to R207), command by command: between two of them
the engine is idle and unfaulted, and what it has written so far is known bit by bit. -/

namespace Sys2Proof.Machine

/-! ### Between two moves of a script -/

/-- The engine is idle and unfaulted and has written the bits `x` after the bytes `out`. -/
structure Ready (out : List Byte) (x : Bits) (s : State) : Prop where
  idle : s.busy = false
  unfaulted : s.fault = 0
  packer : s.PackerInv
  outBits : s.outBits = byteBits out ++ x

section
variable {out inp : List Byte} {t : CodeTree} {x : Bits} {s : State}

/-- A command of a script that completes without a fault and appends `y`. -/
theorem Ready.command {i : Instr} {ms : List HostMove} {u : State} {y : Bits} (h : Ready out x s)
    (hexec : exec i { s with moves := ms } = .next u) (hidle : u.busy = false) (hfault : u.fault = 0)
    (hout : u.outBits = s.outBits ++ y) : runScript (commandMove i :: ms) s = runScript ms u ∧ Ready out (x ++ y) u :=
  ⟨runScript_command h.idle hexec, hidle, hfault, (exec_streamsKept hexec).packer h.packer,
    by rw [hout, h.outBits, List.append_assoc]⟩

/-- A command of a script that completes without a fault and writes nothing. -/
theorem Ready.silent {i : Instr} {ms : List HostMove} {u : State} (h : Ready out x s)
    (hexec : exec i { s with moves := ms } = .next u) (hidle : u.busy = false) (hfault : u.fault = 0)
    (hout : u.outBits = s.outBits) : runScript (commandMove i :: ms) s = runScript ms u ∧ Ready out x u := by
  obtain ⟨hrun, hready⟩ := h.command (y := []) hexec hidle hfault (hout.trans (List.append_nil _).symm)
  exact ⟨hrun, List.append_nil x ▸ hready⟩

/-- The packer's position is that of the bits written. -/
theorem Ready.ocnt (h : Ready out x s) : s.ocnt.toNat = x.length % 8 := by
  have hlt := s.ocnt.isLt
  have hlen := congrArg List.length h.outBits
  simp only [State.outBits, List.length_append, byteBits_length, List.length_take, msb_length] at hlen
  omega

/-- Both scripts begin with INIT and the input (44_container_and_control.md R205, R206). -/
theorem ready_start (hidle : s.busy = false) (hinp : s.inp = []) (bytes : List Byte) (ms : List HostMove) :
    ∃ u, runScript (commandMove .init :: .supply bytes :: ms) s = runScript ms u ∧ Ready s.out [] u ∧ u.icnt = 0 ∧
      u.inp = bytes ∧ ∀ b, u.counts b = 0 := by
  have hrun : runScript (commandMove .init :: .supply bytes :: ms) s =
      runScript ms { clearEngine s with moves := ms, inp := s.inp ++ bytes } :=
    (runScript_command (t := clearEngine { s with moves := .supply bytes :: ms }) hidle rfl).trans
      (runScript_supply bytes ms _)
  refine ⟨_, hrun, ⟨rfl, rfl, rfl, rfl⟩, rfl, by rw [hinp, List.nil_append], fun b => ?_⟩
  exact congrArg BitVec.toNat (Vector.getElem_replicate b.isLt)

/-- Both scripts end with FLUSH. -/
theorem Ready.flush (h : Ready out x s) :
    ∃ u, runScript [commandMove .flush] s = .next u ∧ u.endedWell = true ∧ u.out = out ++ packBits x ∧
      u.inp = s.inp ∧ u.ocnt = 0 := by
  obtain ⟨u, hexec, hbits, hframe⟩ := execFlush_pads (s := { s with moves := [] }) h.unfaulted h.packer
  have hrun : runScript [commandMove .flush] s = .next u := by
    rw [runScript_command h.idle hexec, runScript_nil, hframe]
  have hout : byteBits u.out = byteBits (out ++ packBits x) :=
    calc byteBits u.out
        = s.outBits ++ List.replicate ((8 - s.ocnt.toNat) % 8) false := hbits
      _ = byteBits (out ++ packBits x) := by
          rw [byteBits_append, byteBits_packBits, h.outBits, h.ocnt, List.append_assoc]
  have hended : u.endedWell = true := by
    rw [hframe]
    simp [State.endedWell, State.ended, State.faulted, h.unfaulted]
  exact ⟨u, hrun, hended, byteBits_injective hout, by rw [hframe], by rw [hframe]⟩

/-! ### ENCODE_FILE -/

/-- HIST on a table of zeros counts the message (40_tree_builder.md R132). -/
theorem Ready.hist (h : Ready out x s) (ms : List HostMove) (hicnt : s.icnt = 0) (hzero : ∀ b, s.counts b = 0)
    (hinp : s.inp = inp) (hcount : ∀ b, inp.count b < 2 ^ 32) :
    ∃ u, runScript (commandMove .hist :: ms) s = runScript ms u ∧ Ready out x u ∧ u.icnt = 0 ∧ u.inp = [] ∧
      u.counts = countsOf inp := by
  subst hinp
  have hroom : ∀ b, s.counts b + s.inp.count b ≤ 2 ^ 32 - 1 := fun b => by
    rw [hzero, Nat.zero_add]
    exact Nat.le_sub_one_of_lt (hcount b)
  obtain ⟨u, hexec, hframe, hcounts⟩ := histCountsTheBytes { s with moves := ms } h.unfaulted hicnt hroom
  obtain ⟨hrun, hready⟩ := h.silent hexec (by rw [hframe]) (by rw [hframe]; exact h.unfaulted) (by rw [hframe]; rfl)
  refine ⟨u, hrun, hready, by rw [hframe]; exact hicnt, by rw [hframe], funext fun b => ?_⟩
  calc u.counts b
      = s.counts b + s.inp.count b := hcounts b
    _ = countsOf s.inp b := by rw [hzero, Nat.zero_add, countsOf]

/-- The engine holds the tree `t` with its codes and has the message `inp` before it, at a byte boundary. -/
structure Encoding (out : List Byte) (t : CodeTree) (x : Bits) (inp : List Byte) (s : State) : Prop extends
    Ready out x s where
  aligned : s.icnt = 0
  input : s.inp = inp
  valid : s.treeValid = true
  holds : s.Holds t
  codes : CodesOf s.code t

/-- BUILD leaves the tree of the counts and its codes (40_tree_builder.md R133). -/
theorem Ready.build (h : Ready out x s) (ms : List HostMove) (hicnt : s.icnt = 0) (hinp : s.inp = inp)
    (ht : buildTree s.counts = some t) :
    ∃ u, runScript (commandMove .build :: ms) s = runScript ms u ∧ Encoding out t x inp u := by
  obtain ⟨u, t', hexec, ht', htree, hframe⟩ := buildMakesTheTreeOfTheTable { s with moves := ms } h.unfaulted
  obtain rfl : t = t' := Option.some.inj (ht.symm.trans ht')
  obtain ⟨hvalid, htreeInv, hcodeInv⟩ := buildEstablishesTheTree { s with moves := ms } u h.unfaulted hexec
  have hholds := holds_of_tree htreeInv hvalid htree
  obtain ⟨hrun, hready⟩ := h.silent hexec (by rw [hframe]) (by rw [hframe]; exact h.unfaulted) (by rw [hframe]; rfl)
  exact ⟨u, hrun, hready, by rw [hframe]; exact hicnt, by rw [hframe]; exact hinp, hvalid, hholds,
    codesOf_of_codeInv hcodeInv hvalid hholds⟩

/-- The move list is no part of what `Encoding` speaks of. -/
theorem Encoding.setMoves (h : Encoding out t x inp s) (ms : List HostMove) :
    Encoding out t x inp { s with moves := ms } :=
  ⟨⟨h.idle, h.unfaulted, h.packer, h.outBits⟩, h.aligned, h.input, h.valid, h.holds.congr rfl rfl rfl, h.codes⟩

/-- A command that appends `y`, in the frame of HDR_WR, TREE_WR and ENC. -/
theorem Encoding.command {i : Instr} {ms : List HostMove} {u : State} {y : Bits} (h : Encoding out t x inp s)
    (hexec : exec i { s with moves := ms } = .next u) (hout : u.outBits = s.outBits ++ y)
    (hframe : u = { s with
      moves := ms, oacc := u.oacc, ocnt := u.ocnt, out := u.out, inp := u.inp, stack := u.stack, busy := false }) :
    runScript (commandMove i :: ms) s = runScript ms u ∧ Encoding out t (x ++ y) u.inp u := by
  obtain ⟨hrun, hready⟩ := h.toReady.command hexec (by rw [hframe]) (by rw [hframe]; exact h.unfaulted) hout
  exact ⟨hrun, hready, by rw [hframe]; exact h.aligned, rfl, by rw [hframe]; exact h.valid,
    h.holds.congr (by rw [hframe]) (by rw [hframe]) (by rw [hframe]), by rw [hframe]; exact h.codes⟩

/-- HDR_WR in a script (44_container_and_control.md R200). -/
theorem Encoding.hdrWr (h : Encoding out t x inp s) (ms : List HostMove) :
    ∃ u, runScript (commandMove .hdrWr :: ms) s = runScript ms u ∧ Encoding out t (x ++ msb Config.magic) inp u := by
  obtain ⟨u, hexec, hout, -, hframe, -⟩ := hdrWrWritesTheHeader { s with moves := ms } h.unfaulted h.packer
  obtain ⟨hrun, henc⟩ := h.command hexec hout (by rw [hframe])
  have hinp : u.inp = inp := by rw [hframe]; exact h.input
  exact ⟨u, hrun, hinp ▸ henc⟩

/-- TREE_WR in a script (41_tree_codec.md R152). -/
theorem Encoding.treeWr (h : Encoding out t x inp s) (ms : List HostMove) :
    ∃ u, runScript (commandMove .treeWr :: ms) s = runScript ms u ∧ Encoding out t (x ++ t.ser) inp u := by
  obtain ⟨u, hexec, hout, -, hframe⟩ :=
    treeWrWritesTheSerialization { s with moves := ms } t h.unfaulted h.valid (h.setMoves ms).holds.tree h.packer
  obtain ⟨hrun, henc⟩ := h.command hexec hout (by rw [hframe])
  have hinp : u.inp = inp := by rw [hframe]; exact h.input
  exact ⟨u, hrun, hinp ▸ henc⟩

/-- The message is supplied a second time, for ENC (44_container_and_control.md R205). -/
theorem Encoding.supply (h : Encoding out t x inp s) (bytes : List Byte) (ms : List HostMove) :
    ∃ u, runScript (.supply bytes :: ms) s = runScript ms u ∧ Encoding out t x (inp ++ bytes) u :=
  ⟨_, runScript_supply bytes ms s, ⟨h.idle, h.unfaulted, h.packer, h.outBits⟩, h.aligned,
    congrArg (· ++ bytes) h.input, h.valid, h.holds.congr rfl rfl rfl, h.codes⟩

/-- ENC in a script: the message is used up (42_symbol_encoder.md R172). -/
theorem Encoding.enc (h : Encoding out t x inp s) (ms : List HostMove) {y : Bits} (hy : t.encodeBytes inp = some y) :
    ∃ u, runScript (commandMove .enc :: ms) s = runScript ms u ∧ Encoding out t (x ++ y) [] u := by
  have hnext := h.setMoves ms
  obtain ⟨-, hcodes⟩ := invariants_of_tree hnext.valid hnext.holds hnext.codes
  obtain ⟨u, hexec, hout, -, hframe⟩ := encWritesTheCodes { s with moves := ms } t y h.unfaulted h.valid h.aligned
    hnext.holds.tree hcodes h.packer (h.input ▸ hy)
  obtain ⟨hrun, henc⟩ := h.command hexec hout (by rw [hframe])
  have hinp : u.inp = [] := by rw [hframe]
  exact ⟨u, hrun, hinp ▸ henc⟩

/-- ENCODE_FILE appends the container made of the tree of the counts and the payload. -/
theorem encodeFile_writes {bytes g : List Byte} (hg : ContainerOf bytes t x g) (hidle : s.busy = false)
    (hinp : s.inp = []) (hcount : ∀ b, bytes.count b < 2 ^ 32) :
    ∃ u, runScript (encodeFile bytes) s = .next u ∧ u.endedWell = true ∧ u.out = s.out ++ g ∧ u.inp = [] ∧
      u.ocnt = 0 := by
  obtain ⟨s1, run1, h1, hicnt1, hinp1, hzero⟩ := ready_start hidle hinp bytes _
  obtain ⟨s2, run2, h2, hicnt2, hinp2, hcounts⟩ := h1.hist _ hicnt1 hzero hinp1 hcount
  obtain ⟨s3, run3, h3⟩ := h2.build _ hicnt2 hinp2 (hcounts ▸ hg.tree)
  obtain ⟨s4, run4, h4⟩ := h3.hdrWr _
  obtain ⟨s5, run5, h5⟩ := h4.treeWr _
  obtain ⟨s6, run6, h6⟩ := h5.supply bytes _
  obtain ⟨s7, run7, h7⟩ := h6.enc _ hg.payload
  obtain ⟨u, run8, hended, hout, hin, hocnt⟩ := h7.toReady.flush
  refine ⟨u, ?_, hended, hg.packed ▸ hout, hin.trans h7.input, hocnt⟩
  exact run1.trans <| run2.trans <| run3.trans <| run4.trans <| run5.trans <| run6.trans <| run7.trans run8

/-! ### DECODE_FILE -/

/-- HDR_RD in a script, on the header (44_container_and_control.md R201). -/
theorem Ready.hdrRd (h : Ready out x s) (ms : List HostMove) {rest : Bits} (hb : s.inBits = msb Config.magic ++ rest) :
    ∃ u, runScript (commandMove .hdrRd :: ms) s = runScript ms u ∧ Ready out x u ∧ u.inBits = rest := by
  obtain ⟨u, hexec, hrest, hframe⟩ := (hdrRdChecksTheHeader { s with moves := ms } h.unfaulted).1 rest hb
  obtain ⟨hrun, hready⟩ := h.silent hexec (by rw [hframe]) (by rw [hframe]; exact h.unfaulted) (by rw [hframe]; rfl)
  exact ⟨u, hrun, hready, hrest⟩

/-- TREE_RD in a script, on a tree of the invariant (41_tree_codec.md R154). -/
theorem Ready.treeRd (h : Ready out x s) (ms : List HostMove) {rest : Bits} (hwf : t.wellFormed = true)
    (hb : s.inBits = t.ser ++ rest) :
    ∃ u, runScript (commandMove .treeRd :: ms) s = runScript ms u ∧ Ready out x u ∧ u.inBits = rest ∧
      u.treeValid = true ∧ u.Holds t := by
  obtain ⟨u, hexec, hrest, -, hspan, hframe⟩ :=
    execTreeRd_accepts (s := { s with moves := ms }) h.unfaulted (t.readFault_eq_none_iff_wellFormed.mpr hwf) hb
  obtain ⟨hrun, hready⟩ := h.silent hexec (by rw [hframe]) (by rw [hframe]; exact h.unfaulted) (by rw [hframe]; rfl)
  have hroot : u.root = 0 := by rw [hframe]
  exact ⟨u, hrun, hready, hrest, by rw [hframe], hwf, _, hroot ▸ hspan, List.Perm.refl _⟩

/-- DEC in a script, up to EOS (43_symbol_decoder.md R187). -/
theorem Ready.dec (h : Ready out x s) (ms : List HostMove) (hv : s.treeValid = true) (ht : s.Holds t)
    {bytes : List Byte} {rest : Bits} (hd : t.decode s.inBits = some (bytes, some rest)) :
    ∃ u, runScript (commandMove .dec :: ms) s = runScript ms u ∧ Ready out (x ++ byteBits bytes) u := by
  have hholds : State.Holds { s with moves := ms } t := ht.congr rfl rfl rfl
  obtain ⟨u, hexec, hout, -, hframe⟩ :=
    (decComputesDecode { s with moves := ms } t bytes h.unfaulted hv hholds.tree ht.1 h.packer).1 rest hd
  exact ⟨u, h.command hexec (by rw [hframe]) (by rw [hframe]; exact h.unfaulted) hout⟩

/-- DECODE_FILE of a header, a tree and a payload written with it, whatever bits follow (44_container_and_control.md R206,
43_symbol_decoder.md R190). -/
theorem decodeFile_reads {file bytes : List Byte} {z : Bits} (hwf : t.wellFormed = true)
    (hx : t.encodeBytes bytes = some x) (hfile : byteBits file = msb Config.magic ++ (t.ser ++ (x ++ z)))
    (hidle : s.busy = false) (hinp : s.inp = []) :
    ∃ v, runScript (decodeFile file) s = .next v ∧ v.endedWell = true ∧ v.out = s.out ++ bytes := by
  obtain ⟨s1, run1, h1, hicnt, hinp1, -⟩ := ready_start hidle hinp file _
  have hbits : s1.inBits = byteBits file := by
    rw [State.inBits, hicnt, hinp1]
    rfl
  obtain ⟨s2, run2, h2, hbits2⟩ := h1.hdrRd _ (hbits.trans hfile)
  obtain ⟨s3, run3, h3, hbits3, hvalid, hholds⟩ := h2.treeRd _ hwf hbits2
  obtain ⟨s4, run4, h4⟩ := h3.dec _ hvalid hholds (hbits3 ▸ decodeInvertsEncode t bytes x z hwf hx)
  obtain ⟨v, run5, hended, hout, -⟩ := h4.flush
  refine ⟨v, run1.trans <| run2.trans <| run3.trans <| run4.trans run5, hended, ?_⟩
  rw [hout, List.nil_append, packBits_byteBits]

end

/-! ### The statements -/

/-- Settles O59: every byte sequence has a container, and the commands of the script append its parts in order. -/
theorem encodeFileWritesTheContainer : Obligations.EncodeFileWritesTheContainer := by
  intro s bytes hidle hinp hcount
  obtain ⟨t, x, g, hg⟩ := exists_containerOf bytes
  obtain ⟨u, hrun⟩ := encodeFile_writes hg hidle hinp hcount
  exact ⟨g, u, hg.container_eq, hrun⟩

/-- Settles O60: the padding of the container and the bytes after it are what DECODE_FILE leaves unread. -/
theorem fileRoundTrip : Obligations.FileRoundTrip := by
  intro s r bytes more hidle hinp hidle' hinp' hcount
  obtain ⟨t, x, g, hg⟩ := exists_containerOf bytes
  obtain ⟨u, hrun, hended, hout, -⟩ := encodeFile_writes hg hidle hinp hcount
  obtain ⟨pad, hbits⟩ := hg.bits
  have hfile : byteBits (g ++ more) = msb Config.magic ++ (t.ser ++ (x ++ (pad ++ byteBits more))) := by
    simp only [byteBits_append, hbits, List.append_assoc]
  obtain ⟨v, hv⟩ := decodeFile_reads hg.wellFormed hg.payload hfile hidle' hinp'
  exact ⟨g, u, v, hrun, hended, hout, hv⟩

end Sys2Proof.Machine
end

section
/-! PROOF. Faults and the faulted state (60_exceptions.md R221, R231, R232): which commands never raise, what a raise
records, and what a faulted engine still does. -/

namespace Sys2Proof.Machine

/-! ### A faulted engine (30_encoding.md R104, 60_exceptions.md R232) -/

theorem exec_faulted {i : Instr} {s : State} (hi : i ≠ .init) (hf : s.fault ≠ 0) : exec i s = .next s := by
  obtain ⟨_, _, hexec⟩ := exec_eq_command i hi
  rw [hexec, command_faulted hf]

/-- The only word a faulted engine obeys is that of INIT. -/
theorem dispatch_faulted {v : Word} {s : State} (hv : v ≠ encode .init) (hf : s.fault ≠ 0) :
    dispatch v s = .next s := by
  cases hd : decode v with
  | ok i =>
    have hi : i ≠ .init := fun h => hv (h ▸ encode_of_decode hd).symm
    rw [dispatch_legal hd, exec_faulted hi hf]
  | error e => rw [dispatch_illegal hd, command_faulted hf]

/-- `FAULT` and `FINFO` stay until INIT or reset. -/
theorem step_keeps_fault {s t : State} (hf : s.fault ≠ 0) (h : step s = .next t)
    (hreset : s.moves.head? ≠ some .reset) (hinit : s.moves.head? ≠ some (.memWrite cmdAddr (encode .init))) :
    t.fault = s.fault ∧ t.finfo = s.finfo := by
  cases stepTo_of_step h with
  | reset ms hm => exact absurd (by rw [hm]; rfl) hreset
  | illegal _ _ h0 => exact absurd h0 hf
  | command ms i hm hexec =>
    have hi : i ≠ .init := by
      rintro rfl
      exact hinit (by rw [hm]; rfl)
    rw [exec_faulted (s := { s with moves := ms }) hi hf] at hexec
    cases hexec
    exact ⟨rfl, rfl⟩
  | idle ht | read _ _ _ ht | ignored _ ht | freqWrite _ _ _ _ _ _ _ _ ht | supply _ _ _ ht | discard _ ht
  | take _ _ _ ht =>
    subst ht
    exact ⟨rfl, rfl⟩

/-! ### What never faults (60_exceptions.md R221) -/

theorem execBuild_fault {s t : State} (hf : s.fault = 0) (h : exec .build s = .next t) : t.fault = 0 := by
  obtain ⟨u, hu, rfl⟩ := execBuild_next hf h
  obtain ⟨v, hv, hkept⟩ := buildBody_kept { s with busy := true }
  obtain rfl := ok_state_inj (hv.symm.trans hu)
  exact hkept.fault.trans hf

theorem memRead_fault (a : RegAddr) (s : State) : (memRead a s).fault = s.fault := by
  rw [memRead_frame]

theorem memWrite_fault {a : RegAddr} {v : Word} {s t : State} (ha : a ≠ cmdAddr) (h : memWrite a v s = .next t) :
    t.fault = s.fault := by
  rcases memWrite_cases h with ⟨hcmd, _⟩ | ⟨hcmd, _⟩ | ⟨_, _, rfl⟩ | ⟨b, _, _, _, rfl⟩ | ⟨b, _, _, _, rfl⟩
  · exact absurd hcmd ha
  · exact absurd hcmd ha
  · rfl
  · exact setFreq_fault s b v
  · exact setFreq_fault s b (Config.freeWord s.draws)

/-! ### The statements -/

/-- Settles O5: the faulted engine ignores every word but that of INIT, and the other moves do not look at `FAULT`. -/
theorem faultedStateObeysOnlyInit : Obligations.FaultedStateObeysOnlyInit := by
  intro s hf hb
  refine ⟨fun i hi => exec_faulted hi hf, fun v ms hm hv => ?_, fun a ms hm => readsHaveNoEffect s a ms hm hb,
    fun b v ms hm => ?_, fun bs ms hm => step_move hm, fun ms hm => ?_,
    fun t h hreset hinit => step_keeps_fault hf h hreset hinit⟩ <;> rw [step_move hm]
  · have hcmd := memWrite_cmd (s := { s with moves := ms }) v hb
    exact hcmd.trans (dispatch_faulted hv hf)
  · exact memWrite_freq_idle v hb (freqAddr_toNat b)
  · exact discard_idle hb

/-- Settles O8: INIT clears `FAULT`, the bodies of the other four never raise, and a register access other than a CMD
write leaves `FAULT` alone. -/
theorem someCommandsNeverFault : Obligations.SomeCommandsNeverFault := by
  refine ⟨fun i s t hi hf h => ?_, fun s t a v ms hf hm h => ?_⟩
  · simp only [List.mem_cons, List.not_mem_nil, or_false] at hi
    rcases hi with rfl | rfl | rfl | rfl | rfl
    · rw [execNop_frame h]; exact hf
    · cases h; rfl
    · exact execBuild_fault hf h
    · rw [execHdrWr_frame h]; exact hf
    · rw [execFlush_frame h]; exact hf
  · rcases hm with hm | ⟨hm, ha⟩ <;> rw [step_move hm] at h
    · cases h
      exact (memRead_fault a _).trans hf
    · exact (memWrite_fault ha h).trans hf

/-- Settles O7: the frame of a command records the raise, and the numbers are those of the list. -/
theorem raiseRecordsTheFault : Obligations.RaiseRecordsTheFault :=
  ⟨fun _ _ _ _ _ hf hb => command_raised hf hb, rfl⟩

end Sys2Proof.Machine
end

section
/-! PROOF. Reset, and that no step stops (70_reset_and_hazards.md R250, R251, R263): the RESET move is INIT, and from a
state of the invariant every command, and with it every host move, ends in a next state. -/

namespace Sys2Proof.Machine

/-! ### Pseudocode that ends -/

/-- A piece of a command's pseudocode ends with a value or a raise, and not in one of the model's own stops. -/
def Cmd.Ends {α : Type} (c : Cmd α) : Prop := ∀ r, c ≠ .stuck r

theorem ends_ok {α : Type} (a : α) (s : State) : (Cmd.ok a s).Ends := nofun

theorem ends_raised {α : Type} (f : FaultCode) (info : Word) (s : State) : (Cmd.raised (α := α) f info s).Ends := nofun

theorem Cmd.Ends.bind {α β : Type} {c : Cmd α} {k : α → State → Cmd β} (hc : c.Ends) (hk : ∀ a s, (k a s).Ends) :
    (c.bind k).Ends := by
  intro r h
  rcases bind_eq_stuck.mp h with hstuck | ⟨a, s, -, hstuck⟩
  · exact hc r hstuck
  · exact hk a s r hstuck

/-- A command whose body ends answers a next state. -/
theorem command_next {body : State → Cmd Unit} {s : State} (h : (body { s with busy := true }).Ends) :
    ∃ t, command body s = .next t := by
  cases hc : command body s with
  | next t => exact ⟨t, rfl⟩
  | fault r => exact absurd (command_fault hc) (h r)
  | refused r => exact absurd hc (command_not_refused r)

/-! ### Bodies that end in every state -/

theorem readBit_ends (f : FaultCode) (s : State) : (readBit f s).Ends := by
  rcases readBit_cases f s with ⟨-, hread⟩ | ⟨b, t, -, hread, -⟩ <;> rw [hread]
  · exact ends_raised f 0 s
  · exact ends_ok b t

theorem readBitsFrom_ends (n v : Nat) (f : FaultCode) (s : State) : (readBitsFrom n v f s).Ends := by
  induction n generalizing v s with
  | zero => exact ends_ok v s
  | succ n ih => exact (readBit_ends f s).bind fun b t => ih (2 * v + b.toNat) t

theorem readBits_ends (n : Nat) (f : FaultCode) (s : State) : (readBits n f s).Ends :=
  (readBitsFrom_ends n 0 f s).bind fun _ => ends_ok _

theorem hdrRdBody_ends (s : State) : (hdrRdBody s).Ends := by
  refine (readBits_ends 32 .invalidFormat s).bind fun v t => ?_
  split
  · exact ends_raised .invalidFormat v t
  · exact ends_ok () t

theorem histLoop_ends (bs : List Byte) (s : State) : (histLoop bs s).Ends := by
  induction bs generalizing s with
  | nil => exact ends_ok () s
  | cons b rest ih =>
    unfold histLoop
    split
    · exact ends_raised _ _ _
    · exact ih _

theorem histBody_ends (s : State) : (histBody s).Ends := by
  unfold histBody
  split
  · exact ends_raised _ _ _
  · exact histLoop_ends s.inp s

theorem encLoop_ends (bs : List Byte) (s : State) : (encLoop bs s).Ends := by
  induction bs generalizing s with
  | nil => exact ends_ok () _
  | cons b rest ih =>
    unfold encLoop
    split
    · exact ends_raised _ _ _
    · exact ih _

theorem encBody_ends (s : State) : (encBody s).Ends := by
  unfold encBody
  split
  · exact ends_raised _ _ _
  split
  · exact ends_raised _ _ _
  · exact encLoop_ends s.inp s

/-! ### Commands that write a tree -/

theorem execBuild_ends {s : State} (hf : s.fault = 0) : ∃ t, exec .build s = .next t := by
  obtain ⟨t, _, hexec, -⟩ := buildMakesTheTreeOfTheTable s hf
  exact ⟨t, hexec⟩

/-- Every input begins with a tree TREE_RD accepts, or with bits at which a check fails, or it ends first. -/
theorem execTreeRd_ends {s : State} (hf : s.fault = 0) : ∃ t, exec .treeRd s = .next t := by
  obtain ⟨t, ⟨rest, ht, hb⟩ | ⟨f, info, rest, ht, hb⟩ | ⟨q, hq, hb⟩⟩ := CodeTree.inputs_of_treeRd s.inBits
  · obtain ⟨u, hexec, -⟩ := execTreeRd_accepts hf ht hb
    exact ⟨u, hexec⟩
  · obtain ⟨u, hexec, -⟩ := treeRdReportsTheFirstFault s t rest f info hf ht hb
    exact ⟨u, hexec⟩
  · obtain ⟨u, hexec, -⟩ := treeRdNeedsTheWholeTree s t q hf hb hq
    exact ⟨u, hexec⟩

/-! ### Commands that follow a tree -/

theorem execTreeWr_ends {s : State} (hf : s.fault = 0) (hinv : s.TreeInv) (hp : s.PackerInv) :
    ∃ t, exec .treeWr s = .next t := by
  cases hv : s.treeValid with
  | false => exact ⟨_, commandsNeedATree s .treeWr (by decide) hf hv⟩
  | true =>
    obtain ⟨t, ht⟩ := (treeInv_iff s).mp hinv hv
    obtain ⟨u, hexec, -⟩ := treeWrWritesTheSerialization s t hf hv ht.tree hp
    exact ⟨u, hexec⟩

/-- DEC ends because `decode` with a tree of the invariant does (43_symbol_decoder.md R188). -/
theorem execDec_ends {s : State} (hf : s.fault = 0) (hinv : s.TreeInv) (hp : s.PackerInv) :
    ∃ t, exec .dec s = .next t := by
  cases hv : s.treeValid with
  | false => exact ⟨_, commandsNeedATree s .dec (by decide) hf hv⟩
  | true =>
    obtain ⟨t, ht⟩ := (treeInv_iff s).mp hinv hv
    obtain ⟨⟨bytes, rest⟩, hd⟩ := decodingAlwaysEnds t s.inBits ht.1
    obtain ⟨hdone, hshort⟩ := decComputesDecode s t bytes hf hv ht.tree ht.1 hp
    cases rest with
    | some rest =>
      obtain ⟨u, hexec, -⟩ := hdone rest hd
      exact ⟨u, hexec⟩
    | none =>
      obtain ⟨u, hexec, -⟩ := hshort hd
      exact ⟨u, hexec⟩

/-! ### Commands and host moves -/

/-- From a state with a good tree and a good packer every command ends. -/
theorem exec_ends (i : Instr) {s : State} (hinv : s.TreeInv) (hp : s.PackerInv) : ∃ t, exec i s = .next t := by
  by_cases hi : i = .init
  · exact ⟨clearEngine s, by rw [hi]; rfl⟩
  by_cases hf : s.fault = 0
  · cases i with
    | init => exact absurd rfl hi
    | nop => exact command_next (body := nopBody) (ends_ok _ _)
    | hist => exact command_next (histBody_ends _)
    | build => exact execBuild_ends hf
    | hdrWr => exact command_next (body := hdrWrBody) (ends_ok _ _)
    | treeWr => exact execTreeWr_ends hf hinv hp
    | enc => exact command_next (encBody_ends _)
    | flush => exact command_next (body := flushBody) (ends_ok _ _)
    | hdrRd => exact command_next (hdrRdBody_ends _)
    | treeRd => exact execTreeRd_ends hf
    | dec => exact execDec_ends hf hinv hp
  · exact ⟨s, exec_faulted hi hf⟩

/-- Every word dispatched ends: an illegal one raises or is ignored (30_encoding.md R103, R104). -/
theorem dispatch_ends (v : Word) {s : State} (hinv : s.TreeInv) (hp : s.PackerInv) : ∃ t, dispatch v s = .next t := by
  cases hd : decode v with
  | ok i =>
    rw [dispatch_legal hd]
    exact exec_ends i hinv hp
  | error e =>
    rw [dispatch_illegal hd]
    exact command_next (body := illegalBody v) (ends_raised _ _ _)

theorem memWrite_ends (a : RegAddr) (v : Word) {s : State} (hb : s.busy = false) (hinv : s.TreeInv)
    (hp : s.PackerInv) : ∃ t, memWrite a v s = .next t := by
  by_cases hcmd : a = cmdAddr
  · rw [hcmd, memWrite_cmd v hb]
    exact dispatch_ends v hinv hp
  · cases hidx : freqIndex a with
    | none => exact ⟨s, by simp [memWrite, hcmd, hidx]⟩
    | some b => exact ⟨s.setFreq b v, by simp [memWrite, hcmd, hidx, hb]⟩

theorem hostMove_ends (m : HostMove) {s : State} (hb : s.busy = false) (hinv : s.TreeInv) (hp : s.PackerInv) :
    ∃ t, hostMove m s = .next t := by
  cases m with
  | reset => exact ⟨_, rfl⟩
  | memRead a => exact ⟨_, rfl⟩
  | memWrite a v => exact memWrite_ends a v hb hinv hp
  | supply bs => exact ⟨_, rfl⟩
  | discard => exact ⟨_, discard_idle hb⟩
  | takeByte => exact ⟨_, rfl⟩

/-! ### The statements -/

/-- Settles O56: the next move ends, in a state whose tree and packer are still good with the move taken off. -/
theorem noStepStops : Obligations.NoStepStops := by
  rintro s ⟨htree, hcode, hpack, ⟨hbusy, -, -⟩, -, -⟩
  cases hm : s.moves with
  | nil => exact ⟨s, step_idle hm⟩
  | cons m ms =>
    obtain ⟨hinv, -⟩ :=
      SameTree.invariants (s := s) (t := { s with moves := ms }) ⟨rfl, rfl, rfl, rfl, rfl⟩ htree hcode
    rw [step_move hm]
    exact hostMove_ends m hbusy hinv hpack

/-- Settles O46: the RESET move is `clearEngine`, as INIT is. -/
theorem resetMoveClearsTheEngine : Obligations.ResetMoveClearsTheEngine := fun s _ hm =>
  ⟨_, step_move hm, rfl, clearPresent_present s.code, rfl⟩

end Sys2Proof.Machine
end
